-- ==== Sys2Proof/Word.lean ====
section
/-!
DEFINITION. The words of the frame codec block: a byte, a byte sequence (R10, R41) and the
unsigned widths u16 and u32 of R9. The block has no signed quantity.
-/

namespace Sys2Proof

/-- A byte is 8 bits (R41). -/
abbrev Byte := BitVec 8

/-- The spec's `bytes`: a finite sequence of bytes whose length is part of the value (R10, R41). -/
abbrev Bytes := List Byte

/-- The spec's `u16` (R9). -/
abbrev U16 := BitVec 16

/-- The spec's `u32` (R9). -/
abbrev U32 := BitVec 32

end Sys2Proof
end

