-- ==== Sys2Proof/Config.lean ====
section
/-!
DEFINITION. The implementation parameters of 00_scope.md R8 and the free values.
A parameter the spec gives a value has that value here; `TS_TABLE` stands in
Machine/Flags.lean, `RXL` in Machine/Builder.lean and `TXL` in Machine/Parser.lean.
The OPEN parameters and the payload generator's bytes are opaque constants: nothing can be
proved of their values.
-/

namespace Sys2Proof

/-- The ten policy-table sub-fields the source names beside the pattern tag (R81). -/
inductive PolicyField where
  | protectionMode
  | spatialStreams
  | guardInterval
  | powerLevel
  | stbc
  | ldpc
  | beamforming
  | keyIndex
  | retryLimits
  | perStreamMcs
  deriving DecidableEq, Repr

namespace Config

/-- `MAC_LEN` (R8): bytes in a MacAddress. -/
def macLen : Nat := 6

/-- `PAY_MIN_EXCL` (R8, D7): an Ethernet payload is longer than this. -/
def payMinExcl : Nat := 1

/-- `PAY_MAX` (R8, D7): an Ethernet payload is at most this long. -/
def payMax : Nat := 1500

/-- `PRIO_LIMIT` (R8): a user priority is below this. -/
def prioLimit : Nat := 8

/-- `VLAN_LIMIT` (R8, C1): a VLAN id is below this. -/
def vlanLimit : Nat := 4096

/-- `ETYPE_DEFAULT` (R8): the ethertype of IPv4. -/
def etypeDefault : Nat := 0x0800

/-- `ETYPE_DOT1Q` (R8): the 802.1Q ethertype. -/
def etypeDot1q : U16 := 0x8100#16

/-- `TS_DEFAULT` (R8, D6): plain data. -/
def tsDefault : Byte := 0x08#8

/-- `SC_DEFAULT` (R8, D12): the builder's default sequence control. -/
def scDefault : U16 := 0x0000#16

/-- `N_SRC` (R8, D15): the number of logical sources. -/
def nSrc : Nat := 2

/-- `SC_RESET` (R8, D27): a counter's value after reset and after SEQ.RESET. -/
def scReset : U16 := 0x0000#16

/-- `FRAG_MAX` (R8, D16): the most fragments of one MSDU. -/
def fragMax : Nat := 16

/-- `BODY_MAX` (R8, D31): 2^32 - 1, the most the body-length field can state. -/
def bodyMax : Nat := 4294967295

/-- `IV_EXT_BIT` (R8, R83, D21): the bit of the IV word that is the extended-IV flag. -/
def ivExtBit : Nat := 5

/-- `FCS_PLACEHOLDER_LEN` (R8): trailing placeholder bytes of a transmitted body. -/
def fcsPlaceholderLen : Nat := 4

/-- `RX_STATUS` (R8, D11): the reception-status word of a built record. -/
def rxStatus : U32 := 0x00000000#32

/-- `PATTERN_TAG` (R8, R81, D19), OPEN: the value CMP.UP expects in policy word 0.
No value is chosen, so a statement about it holds for every value (assumption log 9). -/
opaque patternTag : U32

/-- `POLICY_LAYOUT` (R8, N9), OPEN: the (word, bit) places of each named policy sub-field, most
significant first. No rule reads it (R81) and no definition of the model does (log 10). -/
opaque policyLayout : PolicyField → List (Nat × Nat)

/-- The payload generator (R103, D29): byte k of all the bytes it draws. A free value: the step
supplies k from `State.draws` and nothing constrains the byte (assumption log 8). -/
opaque drawByte : Nat → Byte

end Config

end Sys2Proof
end

