-- ==== Sys2Proof/Syntax.lean ====
section
/-!
DEFINITION. The record types of 10_state.md R27, the commands of 30_encoding.md R61 and R63 with
their typed operands, and the command as the driver hands it over (R60): an opcode byte and an
operand record. A numeric operand that a rule range-checks is a `Nat` here (R111, R121, R131);
one that is in range by its type is a bit vector or a Bool (R27).
-/

namespace Sys2Proof

/-- A MacAddress: exactly six bytes, `b0` first on every wire (R65, R100). -/
structure MacAddr where
  b0 : Byte
  b1 : Byte
  b2 : Byte
  b3 : Byte
  b4 : Byte
  b5 : Byte
  deriving DecidableEq, Repr

/-- The tag operand of ETH.ENC (R111): its VLAN id is a number not yet checked. -/
structure TagArg where
  cfi : Bool
  vid : Nat
  deriving DecidableEq, Repr

/-- The 802.1Q operand of LLC.ENC (R121): priority and VLAN id are not yet checked. -/
structure Dot1qArg where
  prio : Nat
  cfi : Bool
  vid : Nat
  deriving DecidableEq, Repr

/-- `Tag` (R27): the optional 802.1Q tag of an outbound Ethernet frame. -/
structure Tag where
  cfi : Bool
  vid : BitVec 12
  deriving DecidableEq, Repr

/-- `EthFrame` (R27), outbound. Its `wire` is a function of these fields and is computed
(`ethWire`, R28). -/
structure EthFrame where
  dst : MacAddr
  src : MacAddr
  prio : BitVec 3
  tag : Option Tag
  etype : U16
  payload : Bytes
  deriving DecidableEq, Repr

/-- A decoder's result: when `ok` is 0 no other field is exposed (R22, R201, D8). -/
inductive Decoded (α : Type) where
  /-- `ok = 0`: every other field is unspecified. -/
  | notOk
  /-- `ok = 1` with the decoded fields. -/
  | ok (fields : α)
  deriving DecidableEq, Repr

/-- The fields of an `EthDecoded` whose `ok` is 1 (R27). -/
structure EthDecoded where
  dst : MacAddr
  src : MacAddr
  dot1q : Bool
  prio : BitVec 3
  cfi : Bool
  vid : BitVec 12
  etype : U16
  payload : Bytes
  deriving DecidableEq, Repr

/-- The fields of an `LlcDecoded` whose `ok` is 1 (R27). -/
structure LlcDecoded where
  dot1q : Bool
  prio : BitVec 3
  cfi : Bool
  vid : BitVec 12
  etype : U16
  payload : Bytes
  deriving DecidableEq, Repr

/-- The eight frame-control flags, in the order of R70; each defaults to 0 (R131). -/
structure FcFlags where
  toDs : Bool := false
  fromDs : Bool := false
  moreFrag : Bool := false
  retry : Bool := false
  pwrMgmt : Bool := false
  moreData : Bool := false
  prot : Bool := false
  order : Bool := false
  deriving DecidableEq, Repr

/-- `FcFields` (R27): an unpacked frame-control word. -/
structure FcFields where
  ty : BitVec 2
  subtype : BitVec 4
  ts : Byte
  flags : FcFlags
  deriving DecidableEq, Repr

/-- `BuildCfg` (R27, R140), each field with the source's default; `dst` and `src` have none. -/
structure BuildCfg where
  dst : MacAddr
  src : MacAddr
  ts : Byte := Config.tsDefault
  toDs : Bool := false
  fromDs : Bool := true
  moreFrag : Bool := false
  retry : Bool := false
  pwrMgmt : Bool := false
  moreData : Bool := false
  prot : Bool := false
  order : Bool := false
  sc : U16 := Config.scDefault
  ra : Option MacAddr := none
  ta : Option MacAddr := none
  deriving DecidableEq, Repr

/-- `FragOpt` (R27, R160, C14): `BuildCfg` without `dst`, `src`, `more_frag` and `sc`. -/
structure FragOpt where
  ts : Byte := Config.tsDefault
  toDs : Bool := false
  fromDs : Bool := true
  retry : Bool := false
  pwrMgmt : Bool := false
  moreData : Bool := false
  prot : Bool := false
  order : Bool := false
  ra : Option MacAddr := none
  ta : Option MacAddr := none
  deriving DecidableEq, Repr

/-- The four address slots of an MPDU (R143); the fourth may be empty. -/
structure Addrs where
  addr1 : MacAddr
  addr2 : MacAddr
  addr3 : MacAddr
  addr4 : Option MacAddr
  deriving DecidableEq, Repr

/-- `MpduRx` (R27), a built MPDU. Its `rec` is a function of these fields and is computed
(`ser`, R28, R145). -/
structure MpduRx where
  cfg : BuildCfg
  bssid : MacAddr
  body : Bytes
  addrs : Addrs
  fc : U16
  deriving DecidableEq, Repr

/-- The seven words of the policy table (R80, R81), read whole. -/
structure Policy where
  w0 : U32
  w1 : U32
  w2 : U32
  w3 : U32
  w4 : U32
  w5 : U32
  w6 : U32
  deriving DecidableEq, Repr

/-- The fields of an `MpduTx` (R27), a parsed MPDU, whose `ok` is 1. -/
structure MpduTx where
  queueId : Byte
  channel : Byte
  frameLen : U16
  policy : Policy
  fcw : U16
  fc : FcFields
  dur : U16
  addr1 : MacAddr
  addr2 : Option MacAddr
  addr3 : Option MacAddr
  sc : Option U16
  addr4 : Option MacAddr
  qos : Option U16
  cfc : Option U16
  htc : Option U32
  iv : Option U32
  extIv : Bool
  eiv : Option U32
  body : Bytes
  thLen : Nat
  lenOk : Bool
  deriving DecidableEq, Repr

/-- `Expect` (R27): the comparator's expected logical frame. -/
structure Expect where
  dst : MacAddr
  src : MacAddr
  dot1q : Bool
  etype : U16
  payload : Bytes
  deriving DecidableEq, Repr

/-- The commands: one constructor for each row of spec/opcode_table.json, with its operands
(R61, R63). -/
inductive Instr where
  /-- FCB.RESET (R231). -/
  | fcbReset
  /-- MAC.MK (R101). -/
  | macMk (b : Bytes)
  /-- PAY.GEN (R104). -/
  | payGen (n : Nat)
  /-- ETH.ENC (R111). -/
  | ethEnc (dst src : MacAddr) (prio length etype : Nat) (tag : Option TagArg)
  /-- ETH.DEC (R114). -/
  | ethDec (b : Bytes)
  /-- LLC.ENC (R121). -/
  | llcEnc (payload : Bytes) (etype : Nat) (q : Option Dot1qArg)
  /-- LLC.DEC (R124). -/
  | llcDec (b : Bytes)
  /-- FC.PACK (R131). -/
  | fcPack (ts : Nat) (flags : FcFlags)
  /-- FC.UNPACK (R133). -/
  | fcUnpack (v : U16)
  /-- MPDU.BUILD (R141). -/
  | mpduBuild (body : Bytes) (bssid : MacAddr) (cfg : BuildCfg)
  /-- MPDU.RETRY (R147). -/
  | mpduRetry (m : MpduRx)
  /-- SEQ.RESET (R156). -/
  | seqReset (r : Nat)
  /-- SEQ.MSDU (R157). -/
  | seqMsdu (r : Nat)
  /-- SEQ.FRAG (R158). -/
  | seqFrag (r : Nat)
  /-- FRAG.SEND (R160). -/
  | fragSend (r : Nat) (frame : EthFrame) (bssid : MacAddr) (size : Nat) (opt : FragOpt)
      (scOverride : Option U16)
  /-- MPDU.PARSE (R176). -/
  | mpduParse (rec : Bytes)
  /-- MPDU.THLEN (R178). -/
  | mpduThlen (v : U16) (extIv : Bool) (bodyLen : Nat)
  /-- CMP.DOWN (R191). -/
  | cmpDown (ms : List MpduRx) (exp : Expect)
  /-- CMP.UP (R194). -/
  | cmpUp (t : Decoded MpduTx) (exp : Expect) (ap : MacAddr)
  /-- MPDU.SEND (R63), a spelling of FRAG.SEND. -/
  | mpduSend (r : Nat) (frame : EthFrame) (bssid : MacAddr) (opt : FragOpt)
  /-- FRAG.SENDSC (R63), a spelling of FRAG.SEND. -/
  | fragSendsc (r : Nat) (frame : EthFrame) (bssid : MacAddr) (size : Nat) (opt : FragOpt)
      (sc : U16)
  deriving DecidableEq, Repr

/-- The nineteen defined opcodes (R61). -/
inductive Opcode where
  | fcbReset
  | macMk
  | payGen
  | ethEnc
  | ethDec
  | llcEnc
  | llcDec
  | fcPack
  | fcUnpack
  | mpduBuild
  | mpduRetry
  | seqReset
  | seqMsdu
  | seqFrag
  | fragSend
  | mpduParse
  | mpduThlen
  | cmpDown
  | cmpUp
  deriving DecidableEq, Repr

/-- The flag operands of FC.PACK as a driver hands them over: `none` where one is omitted
(R62, R86, R131). -/
structure FcFlagsArg where
  toDs : Option Bool := none
  fromDs : Option Bool := none
  moreFrag : Option Bool := none
  retry : Option Bool := none
  pwrMgmt : Option Bool := none
  moreData : Option Bool := none
  prot : Option Bool := none
  order : Option Bool := none
  deriving DecidableEq, Repr

/-- A `BuildCfg` operand as a driver hands it over: `none` where a field is omitted (R62, R86). For
`ra` and `ta` that is the value `none` itself, their default (R27). -/
structure BuildCfgArg where
  dst : MacAddr
  src : MacAddr
  ts : Option Byte := none
  toDs : Option Bool := none
  fromDs : Option Bool := none
  moreFrag : Option Bool := none
  retry : Option Bool := none
  pwrMgmt : Option Bool := none
  moreData : Option Bool := none
  prot : Option Bool := none
  order : Option Bool := none
  sc : Option U16 := none
  ra : Option MacAddr := none
  ta : Option MacAddr := none
  deriving DecidableEq, Repr

/-- A `FragOpt` operand as a driver hands it over: `none` where a field is omitted (R62, R86, R160). -/
structure FragOptArg where
  ts : Option Byte := none
  toDs : Option Bool := none
  fromDs : Option Bool := none
  retry : Option Bool := none
  pwrMgmt : Option Bool := none
  moreData : Option Bool := none
  prot : Option Bool := none
  order : Option Bool := none
  ra : Option MacAddr := none
  ta : Option MacAddr := none
  deriving DecidableEq, Repr

/-- The operand records a command can carry, typed values that are never bits (R60). Commands whose
operands have one type share a shape: the opcode says which command it is. An operand with a default
other than `none` may be omitted and is then `none` here; the decoder puts the default in its place
(R62, R86). -/
inductive Operands where
  | unit
  | bytes (b : Bytes)
  | nat (n : Nat)
  | ethEnc (dst src : MacAddr) (prio length : Nat) (etype : Option Nat) (tag : Option TagArg)
  | llcEnc (payload : Bytes) (etype : Option Nat) (q : Option Dot1qArg)
  | fcPack (ts : Nat) (flags : FcFlagsArg)
  | word (v : U16)
  | mpduBuild (body : Bytes) (bssid : MacAddr) (cfg : BuildCfgArg)
  | mpdu (m : MpduRx)
  | fragSend (r : Nat) (frame : EthFrame) (bssid : MacAddr) (size : Nat) (opt : FragOptArg)
      (scOverride : Option U16)
  | mpduThlen (v : U16) (extIv : Bool) (bodyLen : Nat)
  | cmpDown (ms : List MpduRx) (exp : Expect)
  | cmpUp (t : Decoded MpduTx) (exp : Expect) (ap : MacAddr)
  deriving DecidableEq, Repr

/-- Command format `CMD` (R60): an 8-bit opcode followed by an operand record. -/
structure Command where
  op : Byte
  args : Operands
  deriving DecidableEq, Repr

end Sys2Proof
end

