-- ==== Sys2Proof/Machine/Operands.lean ====
section
/-!
DEFINITION. Reading and writing byte sequences: the packers and readers of R11, slices (R10),
addresses on a wire (R65), the 802.1Q word (R66), padding and ceiling division (R12, R45).
A reader is only applied where a length test has passed (R41); past the end it reads 0x00 and no
rule uses that value.
-/

namespace Sys2Proof.Machine

/-- `zeros(n)` (R10). -/
def zeros (n : Nat) : Bytes := List.replicate n 0#8

/-- `B[i]` (R10). -/
def byteAt (b : Bytes) (i : Nat) : Byte := b.getD i 0#8

/-- `B[i:i+n]` (R10). -/
def slice (b : Bytes) (i n : Nat) : Bytes := (b.drop i).take n

/-- `BE16` (R11). -/
def be16 (v : U16) : Bytes := [v.extractLsb' 8 8, v.extractLsb' 0 8]

/-- `LE16` (R11). -/
def le16 (v : U16) : Bytes := [v.extractLsb' 0 8, v.extractLsb' 8 8]

/-- `LE32` (R11). -/
def le32 (v : U32) : Bytes :=
  [v.extractLsb' 0 8, v.extractLsb' 8 8, v.extractLsb' 16 8, v.extractLsb' 24 8]

/-- `LE64` (R11). -/
def le64 (v : BitVec 64) : Bytes :=
  [v.extractLsb' 0 8, v.extractLsb' 8 8, v.extractLsb' 16 8, v.extractLsb' 24 8,
   v.extractLsb' 32 8, v.extractLsb' 40 8, v.extractLsb' 48 8, v.extractLsb' 56 8]

/-- `rdBE16(B, o) = B[o]*256 + B[o+1]` (R11). -/
def rdBE16 (b : Bytes) (o : Nat) : U16 :=
  BitVec.ofNat 16 ((byteAt b o).toNat * 256 + (byteAt b (o + 1)).toNat)

/-- `rdLE16(B, o) = B[o] + B[o+1]*256` (R11). -/
def rdLE16 (b : Bytes) (o : Nat) : U16 :=
  BitVec.ofNat 16 ((byteAt b o).toNat + (byteAt b (o + 1)).toNat * 256)

/-- `rdLE32(B, o) = B[o] + B[o+1]*2^8 + B[o+2]*2^16 + B[o+3]*2^24` (R11). -/
def rdLE32 (b : Bytes) (o : Nat) : U32 :=
  BitVec.ofNat 32
    ((byteAt b o).toNat + (byteAt b (o + 1)).toNat * 256 + (byteAt b (o + 2)).toNat * 65536 +
      (byteAt b (o + 3)).toNat * 16777216)

/-- A MacAddress on a wire: its six bytes in order (R65). -/
def addrBytes (a : MacAddr) : Bytes := [a.b0, a.b1, a.b2, a.b3, a.b4, a.b5]

/-- The MacAddress at offset `o`: `B[o:o+6]` (R65). -/
def addrAt (b : Bytes) (o : Nat) : MacAddr :=
  ⟨byteAt b o, byteAt b (o + 1), byteAt b (o + 2), byteAt b (o + 3), byteAt b (o + 4),
   byteAt b (o + 5)⟩

/-- The broadcast address (R65). -/
def broadcast : MacAddr := ⟨0xFF#8, 0xFF#8, 0xFF#8, 0xFF#8, 0xFF#8, 0xFF#8⟩

/-- `TCI(prio, cfi, vid) = prio * 2^13 + cfi * 2^12 + vid` (R66). -/
def tci (prio : BitVec 3) (cfi : Bool) (vid : BitVec 12) : U16 :=
  BitVec.ofNat 16 (prio.toNat * 8192 + cfi.toNat * 4096 + vid.toNat)

/-- The priority of a tag control word (R66). -/
def tciPrio (t : U16) : BitVec 3 := t.extractLsb' 13 3

/-- The CFI bit of a tag control word (R66). -/
def tciCfi (t : U16) : Bool := t.getLsbD 12

/-- The VLAN id of a tag control word (R66). -/
def tciVid (t : U16) : BitVec 12 := t.extractLsb' 0 12

/-- `pad4(n)`: the least multiple of 4 not below n (R12). -/
def pad4 (n : Nat) : Nat := 4 * ((n + 3) / 4)

/-- `ceil(a / b)` for `b > 0` (R12). -/
def ceilDiv (a b : Nat) : Nat := (a + b - 1) / b

/-- A body followed by its zero padding to a multiple of 4 (R45, R76). -/
def padBody (body : Bytes) : Bytes := body ++ zeros (pad4 body.length - body.length)

/-- The fixed LLC/SNAP header: DSAP, SSAP, control, OUI (R68). -/
def snap : Bytes := [0xAA#8, 0xAA#8, 0x03#8, 0x00#8, 0x00#8, 0x00#8]

end Sys2Proof.Machine
end

