-- ==== Sys2Proof/Machine/Flags.lean ====
section
/-!
DEFINITION. The frame-control word and its flags (R70, R131 to R134), the table of defined
type+subtype bytes (R72) and the predicates on such a byte (R73), and the sequence-control word
(R74). The block has no condition codes (R22): every flag is data in one of these words.
-/

namespace Sys2Proof

/-- The eight frame-control flags of a builder configuration (R27, R141). -/
def BuildCfg.flags (c : BuildCfg) : FcFlags where
  toDs := c.toDs
  fromDs := c.fromDs
  moreFrag := c.moreFrag
  retry := c.retry
  pwrMgmt := c.pwrMgmt
  moreData := c.moreData
  prot := c.prot
  order := c.order

end Sys2Proof

namespace Sys2Proof.Machine

/-- A row of `TS_TABLE` (R72). The name is a label for the reader: no command returns it (D30). -/
structure TsRow where
  ts : Byte
  name : String
  deriving DecidableEq, Repr

/-- The management rows of `TS_TABLE` (R72). -/
def tsMgmtRows : List TsRow :=
  [⟨0x00#8, "association request"⟩, ⟨0x10#8, "association response"⟩,
   ⟨0x20#8, "reassociation request"⟩, ⟨0x30#8, "reassociation response"⟩,
   ⟨0x40#8, "probe request"⟩, ⟨0x50#8, "probe response"⟩, ⟨0x60#8, "timing advertisement"⟩,
   ⟨0x80#8, "beacon"⟩, ⟨0x90#8, "ATIM"⟩, ⟨0xA0#8, "disassociation"⟩, ⟨0xB0#8, "authentication"⟩,
   ⟨0xC0#8, "deauthentication"⟩, ⟨0xD0#8, "action"⟩, ⟨0xE0#8, "action no ack"⟩]

/-- The control rows of `TS_TABLE` (R72). -/
def tsCtrlRows : List TsRow :=
  [⟨0x74#8, "control wrapper"⟩, ⟨0x84#8, "block ack request (BAR)"⟩, ⟨0x94#8, "block ack (BA)"⟩,
   ⟨0xA4#8, "PS-Poll"⟩, ⟨0xB4#8, "RTS"⟩, ⟨0xC4#8, "CTS"⟩, ⟨0xD4#8, "ACK"⟩, ⟨0xE4#8, "CF-End"⟩,
   ⟨0xF4#8, "CF-End + CF-Ack"⟩]

/-- The data rows of `TS_TABLE` (R72). -/
def tsDataRows : List TsRow :=
  [⟨0x08#8, "data"⟩, ⟨0x18#8, "data + CF-Ack"⟩, ⟨0x28#8, "data + CF-Poll"⟩,
   ⟨0x38#8, "data + CF-Ack + CF-Poll"⟩, ⟨0x48#8, "null"⟩, ⟨0x58#8, "CF-Ack"⟩,
   ⟨0x68#8, "CF-Poll"⟩, ⟨0x78#8, "CF-Ack + CF-Poll"⟩, ⟨0x88#8, "QoS data"⟩,
   ⟨0x98#8, "QoS data + CF-Ack"⟩, ⟨0xA8#8, "QoS data + CF-Poll"⟩,
   ⟨0xB8#8, "QoS data + CF-Ack + CF-Poll"⟩, ⟨0xC8#8, "QoS null"⟩, ⟨0xE8#8, "QoS CF-Poll"⟩,
   ⟨0xF8#8, "QoS CF-Ack + CF-Poll"⟩]

/-- `TS_TABLE` (R72, D6): the 38 defined type+subtype bytes. -/
def tsTable : List TsRow := tsMgmtRows ++ tsCtrlRows ++ tsDataRows

/-- `ts in TS_TABLE` (R72). -/
def tsDefined (ts : Byte) : Bool := tsTable.any fun row => row.ts == ts

/-- `type(ts) = ts[3:2]` (R71). -/
def tsType (ts : Byte) : BitVec 2 := ts.extractLsb' 2 2

/-- `subtype(ts) = ts[7:4]` (R71). -/
def tsSubtype (ts : Byte) : BitVec 4 := ts.extractLsb' 4 4

/-- The protocol version, bits 1:0 of the byte (R70). -/
def tsVersion (ts : Byte) : BitVec 2 := ts.extractLsb' 0 2

/-- `is_mgmt` (R73). -/
def isMgmt (ts : Byte) : Bool := tsType ts == 0#2 && tsVersion ts == 0#2

/-- `is_ctrl` (R73). -/
def isCtrl (ts : Byte) : Bool := tsType ts == 1#2 && tsVersion ts == 0#2

/-- `is_data` (R73). -/
def isData (ts : Byte) : Bool := tsType ts == 2#2 && tsVersion ts == 0#2

/-- `is_qos_data` (R73). -/
def isQosData (ts : Byte) : Bool := ts == 0x88#8

/-- `is_ctrl_wrapper` (R73). -/
def isCtrlWrapper (ts : Byte) : Bool := ts == 0x74#8

/-- `is_rts` (R73). -/
def isRts (ts : Byte) : Bool := ts == 0xB4#8

/-- `is_pspoll` (R73). -/
def isPsPoll (ts : Byte) : Bool := ts == 0xA4#8

/-- `is_cfend` (R73). -/
def isCfEnd (ts : Byte) : Bool := ts == 0xE4#8

/-- `is_ba` (R73). -/
def isBa (ts : Byte) : Bool := ts == 0x94#8

/-- `is_bar` (R73). -/
def isBar (ts : Byte) : Bool := ts == 0x84#8

/-- `fc_pack(ts, flags)` (R132), the sum of R131: type+subtype in bits 7:0, to-DS times 2^8 up to
order times 2^15. The summands occupy disjoint bits. -/
def fcPackWord (ts : Byte) (f : FcFlags) : U16 :=
  BitVec.ofNat 16
    (ts.toNat + f.toDs.toNat * 256 + f.fromDs.toNat * 512 + f.moreFrag.toNat * 1024 +
      f.retry.toNat * 2048 + f.pwrMgmt.toNat * 4096 + f.moreData.toNat * 8192 +
      f.prot.toNat * 16384 + f.order.toNat * 32768)

/-- The type+subtype byte of a frame-control word, `v[7:0]` (R70). -/
def fcTs (v : U16) : Byte := v.extractLsb' 0 8

/-- The eight flags of a frame-control word, bits 8 to 15 (R70). -/
def fcFlags (v : U16) : FcFlags where
  toDs := v.getLsbD 8
  fromDs := v.getLsbD 9
  moreFrag := v.getLsbD 10
  retry := v.getLsbD 11
  pwrMgmt := v.getLsbD 12
  moreData := v.getLsbD 13
  prot := v.getLsbD 14
  order := v.getLsbD 15

/-- `fc_unpack(v)` (R134). -/
def fcUnpackWord (v : U16) : FcFields where
  ty := v.extractLsb' 2 2
  subtype := v.extractLsb' 4 4
  ts := fcTs v
  flags := fcFlags v

/-- `seq(sc) = sc[15:4]` (R74). -/
def scSeq (sc : U16) : BitVec 12 := sc.extractLsb' 4 12

/-- `frag(sc) = sc[3:0]` (R74). -/
def scFrag (sc : U16) : BitVec 4 := sc.extractLsb' 0 4

/-- `SCW(seq, frag) = seq * 16 + frag` (R74). -/
def scw (seq : BitVec 12) (frag : BitVec 4) : U16 := BitVec.ofNat 16 (seq.toNat * 16 + frag.toNat)

/-- The counter's step for a new MSDU: sequence + 1 modulo 4096, fragment 0 (R155, R157). -/
def scNextMsdu (sc : U16) : U16 := scw (scSeq sc + 1#12) 0#4

/-- The counter's step for a new fragment: fragment + 1, applied only where `frag(sc) < 15`, so the
sequence number is unchanged (R155, R158). -/
def scNextFrag (sc : U16) : U16 := sc + 1#16

end Sys2Proof.Machine
end

