-- ==== Sys2Proof/Machine/Errors.lean ====
section
/-!
DEFINITION. What a command that ends by `raise` reports (60_exceptions.md): the causes and their
codes (R203), the field ids (R205), and the context recorded in `ST.info` (R23, R203).
-/

namespace Sys2Proof.Machine

/-- The causes of R203. The first two are refusals (R209), the others faults (R208). -/
inductive Cause where
  /-- E_ILLEGAL_CMD: an undefined opcode; a refusal. -/
  | illegalCmd
  /-- E_FAULTED: a command other than FCB.RESET while FAULTED; a refusal. -/
  | faulted
  /-- E_ADDRLEN: raised by MAC.MK. -/
  | addrLen
  /-- E_PAYLEN: raised by PAY.GEN and ETH.ENC. -/
  | payLen
  /-- E_PRIO: raised by ETH.ENC and LLC.ENC. -/
  | prio
  /-- E_VLANID: raised by ETH.ENC and LLC.ENC. -/
  | vlanId
  /-- E_ETYPE: raised by ETH.ENC and LLC.ENC. -/
  | etype
  /-- E_TYPESUBTYPE: raised by FC.PACK, FC.UNPACK, MPDU.BUILD, FRAG.SEND, MPDU.PARSE, MPDU.THLEN. -/
  | typeSubtype
  /-- E_FRAMETYPE: raised by MPDU.BUILD and FRAG.SEND. -/
  | frameType
  /-- E_RATA: raised by MPDU.BUILD and FRAG.SEND. -/
  | rata
  /-- E_BODYLEN: raised by MPDU.BUILD. -/
  | bodyLen
  /-- E_RETRY_TWICE: raised by MPDU.RETRY. -/
  | retryTwice
  /-- E_ROLE: raised by SEQ.RESET, SEQ.MSDU, SEQ.FRAG and FRAG.SEND. -/
  | role
  /-- E_FRAGSIZE: raised by FRAG.SEND. -/
  | fragSize
  /-- E_FRAGCOUNT: raised by SEQ.FRAG and FRAG.SEND. -/
  | fragCount
  /-- E_SC_DIRTY: raised by SEQ.MSDU, SEQ.FRAG and FRAG.SEND without override. -/
  | scDirty
  /-- E_EMPTYCHAIN: raised by CMP.DOWN. -/
  | emptyChain
  /-- E_CHAIN_ADDR: raised by CMP.DOWN. -/
  | chainAddr
  /-- E_CMP_DECODE: raised by CMP.DOWN and CMP.UP. -/
  | cmpDecode
  /-- E_MISMATCH: raised by CMP.DOWN and CMP.UP. -/
  | mismatch
  /-- E_PATTERN: raised by CMP.UP. -/
  | pattern
  /-- E_THLEN: raised by CMP.UP. -/
  | thLen
  deriving DecidableEq, Repr

/-- The code of a cause, the value of `ST.cause` (R203). -/
def causeCode : Cause → Byte
  | .illegalCmd => 0x01#8
  | .faulted => 0x02#8
  | .addrLen => 0x10#8
  | .payLen => 0x11#8
  | .prio => 0x12#8
  | .vlanId => 0x13#8
  | .etype => 0x14#8
  | .typeSubtype => 0x15#8
  | .frameType => 0x16#8
  | .rata => 0x17#8
  | .bodyLen => 0x18#8
  | .retryTwice => 0x19#8
  | .role => 0x1A#8
  | .fragSize => 0x1B#8
  | .fragCount => 0x1C#8
  | .scDirty => 0x1D#8
  | .emptyChain => 0x1E#8
  | .chainAddr => 0x20#8
  | .cmpDecode => 0x21#8
  | .mismatch => 0x22#8
  | .pattern => 0x23#8
  | .thLen => 0x24#8

/-- The fields E_MISMATCH names (R205). -/
inductive FieldId where
  | dst
  | src
  | ethertype
  | payload
  | dot1q
  | addr1
  | addr2
  | addr3
  deriving DecidableEq, Repr

/-- The number of a field id (R205). -/
def fieldCode : FieldId → Nat
  | .dst => 0
  | .src => 1
  | .ethertype => 2
  | .payload => 3
  | .dot1q => 4
  | .addr1 => 5
  | .addr2 => 6
  | .addr3 => 7

/-- A value reported as expected or actual (R203): a number, a byte sequence, an address, a flag, or
the absence of an optional field (V69b). -/
inductive InfoVal where
  | num (n : Nat)
  | bytes (b : Bytes)
  | addr (a : MacAddr)
  | flag (b : Bool)
  | absent
  deriving DecidableEq, Repr

/-- The context of a fault, `ST.info` (R23, R203). Empty when all four are `none`. -/
structure Info where
  field : Option FieldId := none
  index : Option Nat := none
  expected : Option InfoVal := none
  actual : Option InfoVal := none
  deriving DecidableEq, Repr

/-- What `raise C(info)` carries (R13, R208). -/
structure Exc where
  cause : Cause
  info : Info
  deriving DecidableEq, Repr

/-- A cause whose info is "none" in R203. -/
def excPlain (c : Cause) : Exc := ⟨c, {}⟩

/-- A cause that records the actual value, length, index or count (R203). -/
def excActual (c : Cause) (n : Nat) : Exc := ⟨c, { actual := some (.num n) }⟩

/-- A cause that records the index of an MPDU (E_CHAIN_ADDR, R203). -/
def excIndex (c : Cause) (i : Nat) : Exc := ⟨c, { index := some i }⟩

/-- A cause that records an expected and an actual value (E_PATTERN, E_THLEN, R203). -/
def excPair (c : Cause) (expected actual : Nat) : Exc :=
  ⟨c, { expected := some (.num expected), actual := some (.num actual) }⟩

/-- E_MISMATCH with the field and both values (R203, R205). -/
def excMismatch (f : FieldId) (expected actual : InfoVal) : Exc :=
  ⟨.mismatch, { field := some f, expected := some expected, actual := some actual }⟩

/-- One line `if c then raise x` of a command's pseudocode, followed by the rest of it: the first
such line whose condition holds gives the cause reported (R207). -/
def raiseIf {α : Type} (c : Bool) (x : Exc) (k : Except Exc α) : Except Exc α :=
  if c then .error x else k

end Sys2Proof.Machine
end

