-- ==== Sys2Proof/Machine/State.lean ====
section
/-!
DEFINITION. The state of the frame codec block (10_state.md), as plain data, and its value after
reset (R30, R230). Beside the spec's own state (`ST`, `SC`, `SC_DIRTY`, `TXQ`) it holds the
driver's side of the command interface: the commands issued and not yet taken, how each taken
command ended, and the count of bytes the payload generator has drawn.
-/

namespace Sys2Proof.Machine

/-- What a completed command returns (R61, column "result"). -/
inductive Result where
  /-- No result (FCB.RESET, SEQ.RESET). -/
  | unit
  /-- A MacAddress (MAC.MK). -/
  | addr (a : MacAddr)
  /-- A byte sequence (PAY.GEN, LLC.ENC). -/
  | bytes (b : Bytes)
  /-- An Ethernet frame (ETH.ENC). -/
  | ethFrame (f : EthFrame)
  /-- ETH.DEC's result. -/
  | ethDecoded (d : Decoded EthDecoded)
  /-- LLC.DEC's result. -/
  | llcDecoded (d : Decoded LlcDecoded)
  /-- A 16-bit word (FC.PACK, SEQ.MSDU, SEQ.FRAG). -/
  | word (v : U16)
  /-- FC.UNPACK's result. -/
  | fcFields (f : FcFields)
  /-- A built MPDU (MPDU.BUILD, MPDU.RETRY). -/
  | mpdu (m : MpduRx)
  /-- The ordered list of MPDUs (FRAG.SEND and its spellings). -/
  | mpdus (ms : List MpduRx)
  /-- MPDU.PARSE's result. -/
  | parsed (t : Decoded MpduTx)
  /-- A natural number (MPDU.THLEN). -/
  | nat (n : Nat)
  /-- The comparator's pass (CMP.DOWN, CMP.UP). -/
  | pass
  deriving DecidableEq, Repr

/-- The three ways a command ends (R14). -/
inductive Completion where
  /-- Completed with a result record. -/
  | completed (r : Result)
  /-- Ended by `raise`; no result (R208). -/
  | faulted (x : Exc)
  /-- Refused with E_ILLEGAL_CMD or E_FAULTED; no effect and no result (R209). -/
  | refused (c : Cause)
  deriving DecidableEq, Repr

/-- The status record `ST` (R23). -/
structure Status where
  faulted : Bool
  cause : Byte
  info : Info
  deriving DecidableEq, Repr

/-- One source's sequence-control counter `SC[r]` (R24) and validity bit `SC_DIRTY[r]` (R26). -/
structure Counter where
  sc : U16
  dirty : Bool
  deriving DecidableEq, Repr

/-- The counters, one per logical source (R24). -/
structure Counters where
  /-- Index 0, the Access-Point role. -/
  ap : Counter
  /-- Index 1, the Station role. -/
  sta : Counter
  deriving DecidableEq, Repr

/-- The logical sources that own a counter (R24). -/
inductive Role where
  | accessPoint
  | station
  deriving DecidableEq, Repr

/-- Faults that would stop the machine: there are none. A command that ends by `raise` leaves a next
state with `ST` latched (R208), and nothing in this block can hang (93_implementation_defined.md,
treatment `stuck`; R236). No step answers a fault. -/
inductive Fault where
  deriving DecidableEq, Repr

/-- What the model gives no meaning to. -/
inductive Refusal where
  /-- An instruction that has no meaning yet, by its mnemonic in spec/opcode_table.json. Safe. -/
  | notModelled (mnemonic : String)
  /-- Raised by `issueCommand` where the driver hands a defined opcode an operand record of another
  type than the opcode fixes (R60): R233 assumes it never does, so there is no move. Safe. -/
  | operandType
  /-- Raised by `issueCommand` where an operand is an `EthFrame` or `MpduRx` value that no command
  can have built (R27, R28): R233 assumes it never happens, so there is no move. Safe. -/
  | illFormedOperand
  deriving DecidableEq, Repr

/-- The state of the block. -/
structure State where
  /-- `ST` (R23). -/
  st : Status
  /-- `SC[r]` and `SC_DIRTY[r]` (R24, R26). -/
  counters : Counters
  /-- `TXQ`, the transport-out list (R46); no command reads it. -/
  txq : List Bytes
  /-- The model's own: how many bytes the payload generator has drawn (R103; log 8). -/
  draws : Nat
  /-- The model's own: the commands issued and not yet taken, oldest first (R233, R235; log 1). -/
  pending : List Command
  /-- The model's own: how each taken command ended, in order (R14, R235; log 3). -/
  ended : List Completion
  deriving DecidableEq, Repr

/-- `ST` after reset (R30). -/
def Status.clear : Status := ⟨false, 0x00#8, {}⟩

/-- A counter after reset and after SEQ.RESET (R30, R156). -/
def Counter.clear : Counter := ⟨Config.scReset, false⟩

/-- Every counter after reset (R30). -/
def Counters.clear : Counters := ⟨Counter.clear, Counter.clear⟩

/-- The machine after reset (R30, R230): the block waits for the first command. -/
def State.reset : State where
  st := Status.clear
  counters := Counters.clear
  txq := []
  draws := 0
  pending := []
  ended := []

end Sys2Proof.Machine
end

