-- ==== Sys2Proof/Machine/Ops.lean ====
section
/-!
DEFINITION. The operations on State every command is written from: the counters (R24, R26), the
transport-out list (R46), the payload generator (R103), the reset of the block (R231), and how a
command ends (R14): completion, fault entry (R208) and refusal (R209).
-/

namespace Sys2Proof.Machine

/-- The source with index r, none where `r >= N_SRC` (R24, E_ROLE). -/
def roleOf : Nat → Option Role
  | 0 => some .accessPoint
  | 1 => some .station
  | _ => none

/-- The counter of one source. -/
def Counters.get (cs : Counters) : Role → Counter
  | .accessPoint => cs.ap
  | .station => cs.sta

/-- Replace the counter of one source; the other source's stays (R24). -/
def Counters.set (cs : Counters) (r : Role) (c : Counter) : Counters :=
  match r with
  | .accessPoint => { cs with ap := c }
  | .station => { cs with sta := c }

/-- `SC[r]` (R24). -/
def State.sc (s : State) (r : Role) : U16 := (s.counters.get r).sc

/-- `SC_DIRTY[r]` (R26). -/
def State.dirty (s : State) (r : Role) : Bool := (s.counters.get r).dirty

/-- Write the whole counter of source r. -/
def State.setCounter (s : State) (r : Role) (c : Counter) : State :=
  { s with counters := s.counters.set r c }

/-- `SC[r] <- v` (R24). -/
def State.setSc (s : State) (r : Role) (v : U16) : State := s.setCounter r ⟨v, s.dirty r⟩

/-- `SC_DIRTY[r] <- d` (R26). -/
def State.setDirty (s : State) (r : Role) (d : Bool) : State := s.setCounter r ⟨s.sc r, d⟩

/-- `emit(rec)` (R13, R46): append one record to `TXQ`. -/
def State.emit (s : State) (rec : Bytes) : State := { s with txq := s.txq ++ [rec] }

/-- The bytes of `draw(n)` (R13, R103): the next n bytes of the payload generator, any values. -/
def State.drawn (s : State) (n : Nat) : Bytes :=
  (List.range n).map fun k => Config.drawByte (s.draws + k)

/-- The state after `draw(n)`: those n bytes are used up. -/
def State.afterDraw (s : State) (n : Nat) : State := { s with draws := s.draws + n }

/-- The effect of FCB.RESET (R231): `ST` and every counter reset, `TXQ` as it is. -/
def State.resetBlock (s : State) : State :=
  { s with st := Status.clear, counters := Counters.clear }

/-- Replace the commands issued and not yet taken. -/
def State.setPending (s : State) (cs : List Command) : State := { s with pending := cs }

/-- The command at hand has ended; tell the driver how (R14). -/
def State.close (s : State) (e : Completion) : State := { s with ended := s.ended ++ [e] }

/-- Fault entry, `raise C(info)` (R208): `ST` latches the cause and its context; no counter, no dirty
bit and no `TXQ` entry changes; the command returns no result. -/
def State.raise (s : State) (x : Exc) : State :=
  { s with st := ⟨true, causeCode x.cause, x.info⟩ }.close (.faulted x)

/-- Refusal (R209): no effect at all, not even on `ST`. -/
def State.refuse (s : State) (c : Cause) : State := s.close (.refused c)

/-- A command that is refused while FAULTED (R209) and otherwise runs its pseudocode: it completes
with a new state and a result, or it raises, on the state as it was before the command (R208). -/
def State.issue (s : State) (body : Except Exc (State × Result)) :
    Host.Outcome State Fault Refusal :=
  if s.st.faulted then .next (s.refuse .faulted)
  else
    match body with
    | .ok (t, r) => .next (t.close (.completed r))
    | .error x => .next (s.raise x)

/-- A command that writes no state: only its result matters (R47). -/
def State.issuePure (s : State) (body : Except Exc Result) : Host.Outcome State Fault Refusal :=
  s.issue (body.map fun r => (s, r))

end Sys2Proof.Machine
end

