-- ==== Sys2Proof/Machine/Builder.lean ====
section
/-!
DEFINITION. MPDU builder (44_mpdu_builder.md): address-field selection (R143), serialization into
the RX record (R75, R76, R145), MPDU.BUILD and MPDU.RETRY.
-/

namespace Sys2Proof.Machine

/-- The five supported (frame type, to-DS, from-DS) address-assignment rules (R143). -/
inductive AddrRule where
  | management
  | data00
  | dataFromDs
  | dataToDs
  | dataBothDs (ra ta : MacAddr)
  deriving DecidableEq, Repr

/-- E_RATA's condition on a data frame (R141, R160, D13). -/
def rataMissing (toDs fromDs : Bool) (ra ta : Option MacAddr) : Bool :=
  toDs && fromDs && (ra.isNone || ta.isNone)

/-- The row of the address table a configuration selects (R143), or the fault that says there is
none (R141): E_FRAMETYPE for a type other than data and management, then E_RATA. -/
def addrRule (cfg : BuildCfg) : Except Exc AddrRule :=
  if isMgmt cfg.ts then .ok .management
  else if isData cfg.ts then
    match cfg.toDs, cfg.fromDs with
    | false, false => .ok .data00
    | false, true => .ok .dataFromDs
    | true, false => .ok .dataToDs
    | true, true =>
      match cfg.ra, cfg.ta with
      | some ra, some ta => .ok (.dataBothDs ra ta)
      | _, _ => .error (excPlain .rata)
  else .error (excActual .frameType cfg.ts.toNat)

/-- Address-field selection, `select_addr` (R143). -/
def selectAddr (rule : AddrRule) (cfg : BuildCfg) (bssid : MacAddr) : Addrs :=
  match rule with
  | .management => ⟨cfg.dst, cfg.src, bssid, none⟩
  | .data00 => ⟨cfg.dst, cfg.src, bssid, none⟩
  | .dataFromDs => ⟨cfg.dst, bssid, cfg.src, none⟩
  | .dataToDs => ⟨bssid, cfg.src, cfg.dst, none⟩
  | .dataBothDs ra ta => ⟨ra, ta, cfg.dst, some cfg.src⟩

/-- The object MPDU.BUILD makes of a configuration that passed its checks (R141). -/
def mpduOf (rule : AddrRule) (body : Bytes) (bssid : MacAddr) (cfg : BuildCfg) : MpduRx where
  cfg := cfg
  bssid := bssid
  body := body
  addrs := selectAddr rule cfg bssid
  fc := fcPackWord cfg.ts cfg.flags

/-- The pseudocode of MPDU.BUILD (R141). -/
def build (body : Bytes) (bssid : MacAddr) (cfg : BuildCfg) : Except Exc MpduRx :=
  raiseIf (!tsDefined cfg.ts) (excActual .typeSubtype cfg.ts.toNat) <|
  match addrRule cfg with
  | .error x => .error x
  | .ok rule =>
    raiseIf (decide (Config.bodyMax < body.length)) (excActual .bodyLen body.length) <|
    .ok (mpduOf rule body bssid cfg)

/-- The fields of the RX record, in the order of R75 and R76. -/
inductive RxField where
  | rsvd0
  | rsvd1
  | fc
  | dur
  | addr1
  | addr2
  | addr3
  | addr4
  | sc
  | qos
  | htc
  | iv
  | eiv
  | body
  | icv
  | mic
  | fcs
  | bodyLen
  | tstamp
  | rxVec
  | status
  deriving DecidableEq, Repr

/-- `RXL` (R76, R78): each field of a built MPDU's record with its bytes, in order. -/
def rxLayout (m : MpduRx) : List (RxField × Bytes) :=
  [(.rsvd0, le32 0#32), (.rsvd1, le32 0#32), (.fc, le16 m.fc), (.dur, le16 0#16),
   (.addr1, addrBytes m.addrs.addr1), (.addr2, addrBytes m.addrs.addr2),
   (.addr3, addrBytes m.addrs.addr3),
   (.addr4, match m.addrs.addr4 with
            | some a => addrBytes a
            | none => zeros 6),
   (.sc, le16 m.cfg.sc), (.qos, le16 0#16), (.htc, le32 0#32), (.iv, le32 0#32),
   (.eiv, le32 0#32), (.body, padBody m.body), (.icv, le32 0#32), (.mic, zeros 8),
   (.fcs, le32 0#32), (.bodyLen, le32 (BitVec.ofNat 32 m.body.length)), (.tstamp, le64 0#64),
   (.rxVec, zeros 24), (.status, le32 Config.rxStatus)]

/-- `ser(m)` (R145): the RX record of a built MPDU, a function of its fields alone (R28). -/
def ser (m : MpduRx) : Bytes := (rxLayout m).flatMap Prod.snd

/-- The pseudocode of MPDU.RETRY (R147): the retry flag is set, `fc` is packed again, and with it the
record; every other field stays (R146). -/
def addRetry (m : MpduRx) : Except Exc MpduRx :=
  raiseIf m.cfg.retry (excPlain .retryTwice) <|
  let cfg := { m.cfg with retry := true }
  .ok { m with cfg := cfg, fc := fcPackWord cfg.ts cfg.flags }

/-- MPDU.BUILD (R141). -/
def execMpduBuild (body : Bytes) (bssid : MacAddr) (cfg : BuildCfg) (s : State) :
    Host.Outcome State Fault Refusal :=
  s.issuePure ((build body bssid cfg).map .mpdu)

/-- MPDU.RETRY (R147). -/
def execMpduRetry (m : MpduRx) (s : State) : Host.Outcome State Fault Refusal :=
  s.issuePure ((addRetry m).map .mpdu)

end Sys2Proof.Machine
end

