-- ==== Sys2Proof/Machine/Primitives.lean ====
section
/-!
DEFINITION. Address and payload primitives (40_primitives.md): MAC.MK and PAY.GEN.
-/

namespace Sys2Proof.Machine

/-- The pseudocode of MAC.MK (R101): a byte sequence of length exactly 6, as a MacAddress. -/
def macMk (b : Bytes) : Except Exc MacAddr :=
  raiseIf (b.length != Config.macLen) (excActual .addrLen b.length) <| .ok (addrAt b 0)

/-- `1 < n and n <= 1500` (R104, R111, D7). -/
def payLenOk (n : Nat) : Bool := decide (Config.payMinExcl < n) && decide (n ≤ Config.payMax)

/-- The pseudocode of PAY.GEN (R104): n bytes of the payload generator. -/
def payGen (n : Nat) (s : State) : Except Exc (State × Result) :=
  raiseIf (!payLenOk n) (excActual .payLen n) <| .ok (s.afterDraw n, .bytes (s.drawn n))

/-- MAC.MK (R101). -/
def execMacMk (b : Bytes) (s : State) : Host.Outcome State Fault Refusal :=
  s.issuePure ((macMk b).map .addr)

/-- PAY.GEN (R104). -/
def execPayGen (n : Nat) (s : State) : Host.Outcome State Fault Refusal := s.issue (payGen n s)

end Sys2Proof.Machine
end

