-- ==== Sys2Proof/Machine/Ethernet.lean ====
section
/-!
DEFINITION. Ethernet II / 802.1Q codec (41_ethernet.md): ETH.ENC and ETH.DEC.
-/

namespace Sys2Proof.Machine

/-- E_ETYPE's condition (R111, R121, D36): the ethertype does not fit 16 bits, or is 0x8100. -/
def etypeBad (etype : Nat) : Bool := decide (65536 ≤ etype) || etype == Config.etypeDot1q.toNat

/-- The line `if tag = some t and t.vid >= 4096 then raise E_VLANID` (R111). -/
def checkTagVid {α : Type} (tag : Option TagArg) (k : Except Exc α) : Except Exc α :=
  match tag with
  | none => k
  | some t => raiseIf (decide (Config.vlanLimit ≤ t.vid)) (excActual .vlanId t.vid) k

/-- The frame ETH.ENC returns once its operands are checked and its payload drawn (R111). -/
def ethFrameOf (dst src : MacAddr) (prio etype : Nat) (tag : Option TagArg) (payload : Bytes) :
    EthFrame where
  dst := dst
  src := src
  prio := BitVec.ofNat 3 prio
  tag := tag.map fun t => ⟨t.cfi, BitVec.ofNat 12 t.vid⟩
  etype := BitVec.ofNat 16 etype
  payload := payload

/-- `wire`, the encoded frame (R67, R111, R112): dst, src, the tag where there is one, ethertype,
payload. A function of the frame's fields alone (R28). -/
def ethWire (f : EthFrame) : Bytes :=
  addrBytes f.dst ++ addrBytes f.src ++
    (match f.tag with
     | none => []
     | some t => be16 Config.etypeDot1q ++ be16 (tci f.prio t.cfi t.vid)) ++
    be16 f.etype ++ f.payload

/-- The pseudocode of ETH.ENC (R111). -/
def ethEnc (dst src : MacAddr) (prio length etype : Nat) (tag : Option TagArg) (s : State) :
    Except Exc (State × Result) :=
  raiseIf (decide (Config.prioLimit ≤ prio)) (excActual .prio prio) <|
  raiseIf (!payLenOk length) (excActual .payLen length) <|
  raiseIf (etypeBad etype) (excActual .etype etype) <|
  checkTagVid tag <|
  .ok (s.afterDraw length, .ethFrame (ethFrameOf dst src prio etype tag (s.drawn length)))

/-- The pseudocode of ETH.DEC (R113, R114). -/
def ethDec (b : Bytes) : Decoded EthDecoded :=
  if b.length < 14 then .notOk
  else if rdBE16 b 12 = Config.etypeDot1q then
    if b.length < 18 then .notOk
    else
      .ok { dst := addrAt b 0, src := addrAt b 6, dot1q := true, prio := tciPrio (rdBE16 b 14),
            cfi := tciCfi (rdBE16 b 14), vid := tciVid (rdBE16 b 14), etype := rdBE16 b 16,
            payload := b.drop 18 }
  else
    .ok { dst := addrAt b 0, src := addrAt b 6, dot1q := false, prio := 0#3, cfi := false,
          vid := 0#12, etype := rdBE16 b 12, payload := b.drop 14 }

/-- ETH.ENC (R111). -/
def execEthEnc (dst src : MacAddr) (prio length etype : Nat) (tag : Option TagArg) (s : State) :
    Host.Outcome State Fault Refusal :=
  s.issue (ethEnc dst src prio length etype tag s)

/-- ETH.DEC (R114); it never faults (R115). -/
def execEthDec (b : Bytes) (s : State) : Host.Outcome State Fault Refusal :=
  s.issuePure (.ok (.ethDecoded (ethDec b)))

end Sys2Proof.Machine
end

