-- ==== Sys2Proof/Machine/LlcSnap.lean ====
section
/-!
DEFINITION. LLC/SNAP codec (42_llcsnap.md): LLC.ENC and LLC.DEC.
-/

namespace Sys2Proof.Machine

/-- An LLC/SNAP frame with checked fields (R69): the two forms of the format. -/
def llcFrame (payload : Bytes) (etype : U16) (q : Option (BitVec 3 × Tag)) : Bytes :=
  match q with
  | none => snap ++ be16 etype ++ payload
  | some (prio, t) =>
      snap ++ be16 Config.etypeDot1q ++ be16 (tci prio t.cfi t.vid) ++ snap ++ be16 etype ++ payload

/-- The two lines of LLC.ENC that check its 802.1Q option (R121). -/
def checkDot1q {α : Type} (q : Option Dot1qArg) (k : Except Exc α) : Except Exc α :=
  match q with
  | none => k
  | some t =>
      raiseIf (decide (Config.prioLimit ≤ t.prio)) (excActual .prio t.prio) <|
      raiseIf (decide (Config.vlanLimit ≤ t.vid)) (excActual .vlanId t.vid) k

/-- A checked 802.1Q option as fields of their own widths (R66). -/
def dot1qOf (t : Dot1qArg) : BitVec 3 × Tag :=
  (BitVec.ofNat 3 t.prio, ⟨t.cfi, BitVec.ofNat 12 t.vid⟩)

/-- The pseudocode of LLC.ENC (R121). -/
def llcEnc (payload : Bytes) (etype : Nat) (q : Option Dot1qArg) : Except Exc Bytes :=
  raiseIf (etypeBad etype) (excActual .etype etype) <|
  checkDot1q q <|
  .ok (llcFrame payload (BitVec.ofNat 16 etype) (q.map dot1qOf))

/-- The pseudocode of LLC.DEC (R123, R124). -/
def llcDec (b : Bytes) : Decoded LlcDecoded :=
  if b.length < 8 then .notOk
  else if slice b 0 6 ≠ snap then .notOk
  else if rdBE16 b 6 = Config.etypeDot1q then
    if b.length < 18 then .notOk
    else if slice b 10 6 ≠ snap then .notOk
    else
      .ok { dot1q := true, prio := tciPrio (rdBE16 b 8), cfi := tciCfi (rdBE16 b 8),
            vid := tciVid (rdBE16 b 8), etype := rdBE16 b 16, payload := b.drop 18 }
  else
    .ok { dot1q := false, prio := 0#3, cfi := false, vid := 0#12, etype := rdBE16 b 6,
          payload := b.drop 8 }

/-- LLC.ENC (R121). -/
def execLlcEnc (payload : Bytes) (etype : Nat) (q : Option Dot1qArg) (s : State) :
    Host.Outcome State Fault Refusal :=
  s.issuePure ((llcEnc payload etype q).map .bytes)

/-- LLC.DEC (R124); it never faults (R125). -/
def execLlcDec (b : Bytes) (s : State) : Host.Outcome State Fault Refusal :=
  s.issuePure (.ok (.llcDecoded (llcDec b)))

end Sys2Proof.Machine
end

