-- ==== Sys2Proof/Machine/Fragment.lean ====
section
/-!
DEFINITION. Fragmentation engine and sequence-control counter (45_fragmentation.md): SEQ.RESET,
SEQ.MSDU, SEQ.FRAG, FRAG.SEND, and its two spellings MPDU.SEND and FRAG.SENDSC (R63).
-/

namespace Sys2Proof.Machine

/-- The line `if r >= N_SRC then raise E_ROLE` and the source with that index otherwise. -/
def withRole {α : Type} (r : Nat) (k : Role → Except Exc α) : Except Exc α :=
  match roleOf r with
  | none => .error (excActual .role r)
  | some role => k role

/-- The pseudocode of SEQ.RESET (R156). -/
def seqReset (r : Nat) (s : State) : Except Exc (State × Result) :=
  withRole r fun role => .ok (s.setCounter role Counter.clear, .unit)

/-- The pseudocode of SEQ.MSDU (R157). -/
def seqMsdu (r : Nat) (s : State) : Except Exc (State × Result) :=
  withRole r fun role =>
  raiseIf (s.dirty role) (excActual .scDirty r) <|
  .ok (s.setSc role (scNextMsdu (s.sc role)), .word (scNextMsdu (s.sc role)))

/-- The pseudocode of SEQ.FRAG (R158). -/
def seqFrag (r : Nat) (s : State) : Except Exc (State × Result) :=
  withRole r fun role =>
  raiseIf (s.dirty role) (excActual .scDirty r) <|
  raiseIf (scFrag (s.sc role) == 15#4) (excActual .fragCount (Config.fragMax + 1)) <|
  .ok (s.setSc role (scNextFrag (s.sc role)), .word (scNextFrag (s.sc role)))

/-- `llc_body(frame)` (R122, R161): the LLC/SNAP encoding of the MSDU, tagged as the frame is. -/
def llcBody (f : EthFrame) : Bytes := llcFrame f.payload f.etype (f.tag.map fun t => (f.prio, t))

/-- Chunk i of a body cut at `size` bytes: `body[i*S : min((i+1)*S, L)]` (R162). -/
def chunkOf (body : Bytes) (size i : Nat) : Bytes := slice body (i * size) size

/-- The configuration of one fragment (R160): the frame's addresses, the options passed through,
more-fragments clear on the last fragment only, and the sequence control it carries. -/
def fragCfg (frame : EthFrame) (opt : FragOpt) (last : Bool) (w : U16) : BuildCfg where
  dst := frame.dst
  src := frame.src
  ts := opt.ts
  toDs := opt.toDs
  fromDs := opt.fromDs
  moreFrag := !last
  retry := opt.retry
  pwrMgmt := opt.pwrMgmt
  moreData := opt.moreData
  prot := opt.prot
  order := opt.order
  sc := w
  ra := opt.ra
  ta := opt.ta

/-- What the loop of FRAG.SEND works on: the operands, the body to slice, and the source whose
counter follows the fragments (`none` under an override, R164). -/
structure FragJob where
  frame : EthFrame
  bssid : MacAddr
  size : Nat
  opt : FragOpt
  body : Bytes
  counted : Option Role
  deriving DecidableEq, Repr

/-- `if sc_override = none then SC[r] <- w` (R160). -/
def countFrag (j : FragJob) (w : U16) (s : State) : State :=
  match j.counted with
  | none => s
  | some role => s.setSc role w

/-- The loop of FRAG.SEND (R160, R162): `left` chunks are still to go and `i` is the next. Each is
built with the current sequence control `w` and its record emitted; then, unless it was the last,
the fragment number advances. -/
def fragLoop (j : FragJob) : (left i : Nat) → (w : U16) → State → List MpduRx →
    Except Exc (State × List MpduRx)
  | 0, _, _, s, out => .ok (s, out)
  | left + 1, i, w, s, out =>
    match build (chunkOf j.body j.size i) j.bssid (fragCfg j.frame j.opt (left == 0) w) with
    | .error x => .error x
    | .ok m =>
      if left == 0 then fragLoop j left (i + 1) w (s.emit (ser m)) (out ++ [m])
      else
        fragLoop j left (i + 1) (scNextFrag w) (countFrag j (scNextFrag w) (s.emit (ser m)))
          (out ++ [m])

/-- FRAG.SEND with the internal counter of `role` (R160): the sequence number advances once, at the
start; the dirty bit is set for the length of the loop (R26). -/
def fragCounted (r : Nat) (role : Role) (j : FragJob) (s : State) : Except Exc (State × Result) :=
  let n := ceilDiv j.body.length j.size
  raiseIf (s.dirty role) (excActual .scDirty r) <|
  raiseIf (decide (Config.fragMax < n)) (excActual .fragCount n) <|
  (fragLoop j n 0 (scNextMsdu (s.sc role))
      ((s.setDirty role true).setSc role (scNextMsdu (s.sc role))) []).map
    fun p => (p.1.setDirty role false, .mpdus p.2)

/-- FRAG.SEND with an explicit sequence control `w0` (R160, R164): the internal counter is neither
read nor written. -/
def fragOverridden (w0 : U16) (j : FragJob) (s : State) : Except Exc (State × Result) :=
  let n := ceilDiv j.body.length j.size
  raiseIf (decide (Config.fragMax - 1 < (scFrag w0).toNat + n - 1))
    (excActual .fragCount ((scFrag w0).toNat + n)) <|
  (fragLoop j n 0 w0 s []).map fun p => (p.1, .mpdus p.2)

/-- The pseudocode of FRAG.SEND (R160). -/
def fragSend (r : Nat) (frame : EthFrame) (bssid : MacAddr) (size : Nat) (opt : FragOpt)
    (scOverride : Option U16) (s : State) : Except Exc (State × Result) :=
  withRole r fun role =>
  raiseIf (size == 0) (excPlain .fragSize) <|
  raiseIf (!tsDefined opt.ts) (excActual .typeSubtype opt.ts.toNat) <|
  raiseIf (!isData opt.ts) (excActual .frameType opt.ts.toNat) <|
  raiseIf (rataMissing opt.toDs opt.fromDs opt.ra opt.ta) (excPlain .rata) <|
  match scOverride with
  | none => fragCounted r role ⟨frame, bssid, size, opt, llcBody frame, some role⟩ s
  | some w0 => fragOverridden w0 ⟨frame, bssid, size, opt, llcBody frame, none⟩ s

/-- SEQ.RESET (R156). -/
def execSeqReset (r : Nat) (s : State) : Host.Outcome State Fault Refusal := s.issue (seqReset r s)

/-- SEQ.MSDU (R157). -/
def execSeqMsdu (r : Nat) (s : State) : Host.Outcome State Fault Refusal := s.issue (seqMsdu r s)

/-- SEQ.FRAG (R158). -/
def execSeqFrag (r : Nat) (s : State) : Host.Outcome State Fault Refusal := s.issue (seqFrag r s)

/-- FRAG.SEND (R160). -/
def execFragSend (r : Nat) (frame : EthFrame) (bssid : MacAddr) (size : Nat) (opt : FragOpt)
    (scOverride : Option U16) (s : State) : Host.Outcome State Fault Refusal :=
  s.issue (fragSend r frame bssid size opt scOverride s)

/-- MPDU.SEND (R63): FRAG.SEND with the whole body as one fragment and no override. -/
def execMpduSend (r : Nat) (frame : EthFrame) (bssid : MacAddr) (opt : FragOpt) (s : State) :
    Host.Outcome State Fault Refusal :=
  s.issue (fragSend r frame bssid (llcBody frame).length opt none s)

/-- FRAG.SENDSC (R63): FRAG.SEND with a sequence-control override. -/
def execFragSendsc (r : Nat) (frame : EthFrame) (bssid : MacAddr) (size : Nat) (opt : FragOpt)
    (sc : U16) (s : State) : Host.Outcome State Fault Refusal :=
  s.issue (fragSend r frame bssid size opt (some sc) s)

end Sys2Proof.Machine
end

