-- ==== Sys2Proof/WellFormed.lean ====
section
/-!
DEFINITION. Which operand values a driver can hold. The types of Syntax.lean carry most of R27
(an address has six bytes, R102; a priority field three bits). What they do not carry is checked
here: an `EthFrame` is one ETH.ENC can have returned (R27, R111, R160) and an `MpduRx` one that
MPDU.BUILD, MPDU.RETRY or FRAG.SEND can have returned (R28, R146). R233 assumes the driver never
hands over another value.
-/

namespace Sys2Proof

open Sys2Proof.Machine

/-- An Ethernet frame ETH.ENC can have built: payload length in bounds (R27) and an ethertype other
than 0x8100 (R111). -/
def EthFrame.wf (f : EthFrame) : Bool :=
  payLenOk f.payload.length && f.etype != Config.etypeDot1q

/-- A built MPDU consistent with its own fields (R28): building from its body, BSSID and
configuration gives it back. -/
def MpduRx.wf (m : MpduRx) : Bool :=
  match build m.body m.bssid m.cfg with
  | .ok m' => m' == m
  | .error _ => false

/-- Every object operand of the command is one that a command can have built. -/
def Instr.wf : Instr → Bool
  | .fcbReset => true
  | .macMk _ => true
  | .payGen _ => true
  | .ethEnc _ _ _ _ _ _ => true
  | .ethDec _ => true
  | .llcEnc _ _ _ => true
  | .llcDec _ => true
  | .fcPack _ _ => true
  | .fcUnpack _ => true
  | .mpduBuild _ _ _ => true
  | .mpduRetry m => m.wf
  | .seqReset _ => true
  | .seqMsdu _ => true
  | .seqFrag _ => true
  | .fragSend _ frame _ _ _ _ => frame.wf
  | .mpduParse _ => true
  | .mpduThlen _ _ _ => true
  | .cmpDown ms _ => ms.all MpduRx.wf
  | .cmpUp _ _ _ => true
  | .mpduSend _ frame _ _ => frame.wf
  | .fragSendsc _ frame _ _ _ _ => frame.wf

end Sys2Proof
end

