-- ==== Sys2Proof/Decode.lean ====
section
/-!
DEFINITION. Decoding a command (30_encoding.md Part A): the opcode byte names the command and fixes
the type of its operand record (R60, R61); an omitted operand takes its default here, before any
check (R86). Total on every command; an undefined opcode and an
operand record of another type are rejected by name. Then the encoder, and the command the host
means by an opcode-table word.
-/

namespace Sys2Proof

open Sys2Proof.Machine

/-- The opcode map (R61): `op[7:4]` is the family and `op[3:0]` the command in it. -/
def opcodeByte : Opcode → Byte
  | .fcbReset => 0x00#8
  | .macMk => 0x01#8
  | .payGen => 0x02#8
  | .ethEnc => 0x10#8
  | .ethDec => 0x11#8
  | .llcEnc => 0x20#8
  | .llcDec => 0x21#8
  | .fcPack => 0x30#8
  | .fcUnpack => 0x31#8
  | .mpduBuild => 0x40#8
  | .mpduRetry => 0x41#8
  | .seqReset => 0x50#8
  | .seqMsdu => 0x51#8
  | .seqFrag => 0x52#8
  | .fragSend => 0x53#8
  | .mpduParse => 0x60#8
  | .mpduThlen => 0x61#8
  | .cmpDown => 0x70#8
  | .cmpUp => 0x71#8

/-- The defined opcodes, in the order of R61's table. -/
def opcodeTable : List Opcode :=
  [.fcbReset, .macMk, .payGen, .ethEnc, .ethDec, .llcEnc, .llcDec, .fcPack, .fcUnpack, .mpduBuild,
   .mpduRetry, .seqReset, .seqMsdu, .seqFrag, .fragSend, .mpduParse, .mpduThlen, .cmpDown, .cmpUp]

/-- The command an opcode byte names; none for the 237 undefined values (R64). -/
def opcodeOf (op : Byte) : Option Opcode := opcodeTable.find? fun o => opcodeByte o == op

/-- Why a command is not one of R61's. -/
inductive DecodeError where
  /-- The opcode is not in the table of R61 (R64). -/
  | illegalOpcode
  /-- The operand record is not of the type the opcode fixes (R60). -/
  | operandType
  deriving DecidableEq, Repr

/-- The flags of FC.PACK, an omitted one 0 (R86, R131). -/
def FcFlagsArg.assemble (a : FcFlagsArg) : FcFlags where
  toDs := a.toDs.getD false
  fromDs := a.fromDs.getD false
  moreFrag := a.moreFrag.getD false
  retry := a.retry.getD false
  pwrMgmt := a.pwrMgmt.getD false
  moreData := a.moreData.getD false
  prot := a.prot.getD false
  order := a.order.getD false

/-- A `BuildCfg`, an omitted field at its default of R27, which for from-DS is 1 (R86). -/
def BuildCfgArg.assemble (a : BuildCfgArg) : BuildCfg where
  dst := a.dst
  src := a.src
  ts := a.ts.getD Config.tsDefault
  toDs := a.toDs.getD false
  fromDs := a.fromDs.getD true
  moreFrag := a.moreFrag.getD false
  retry := a.retry.getD false
  pwrMgmt := a.pwrMgmt.getD false
  moreData := a.moreData.getD false
  prot := a.prot.getD false
  order := a.order.getD false
  sc := a.sc.getD Config.scDefault
  ra := a.ra
  ta := a.ta

/-- A `FragOpt`, an omitted field at the default `BuildCfg` gives it (R27, R86, R160). -/
def FragOptArg.assemble (a : FragOptArg) : FragOpt where
  ts := a.ts.getD Config.tsDefault
  toDs := a.toDs.getD false
  fromDs := a.fromDs.getD true
  retry := a.retry.getD false
  pwrMgmt := a.pwrMgmt.getD false
  moreData := a.moreData.getD false
  prot := a.prot.getD false
  order := a.order.getD false
  ra := a.ra
  ta := a.ta

/-- The flags of FC.PACK with every one given. -/
def FcFlags.given (f : FcFlags) : FcFlagsArg where
  toDs := some f.toDs
  fromDs := some f.fromDs
  moreFrag := some f.moreFrag
  retry := some f.retry
  pwrMgmt := some f.pwrMgmt
  moreData := some f.moreData
  prot := some f.prot
  order := some f.order

/-- A `BuildCfg` with every field given. -/
def BuildCfg.given (c : BuildCfg) : BuildCfgArg where
  dst := c.dst
  src := c.src
  ts := some c.ts
  toDs := some c.toDs
  fromDs := some c.fromDs
  moreFrag := some c.moreFrag
  retry := some c.retry
  pwrMgmt := some c.pwrMgmt
  moreData := some c.moreData
  prot := some c.prot
  order := some c.order
  sc := some c.sc
  ra := c.ra
  ta := c.ta

/-- A `FragOpt` with every field given. -/
def FragOpt.given (o : FragOpt) : FragOptArg where
  ts := some o.ts
  toDs := some o.toDs
  fromDs := some o.fromDs
  retry := some o.retry
  pwrMgmt := some o.pwrMgmt
  moreData := some o.moreData
  prot := some o.prot
  order := some o.order
  ra := o.ra
  ta := o.ta

/-- The command with a defined opcode, its omitted operands at their defaults (R62, R86), where its operand record is of the type the opcode fixes. -/
def decodeArgs : Opcode → Operands → Except DecodeError Instr
  | .fcbReset, .unit => .ok .fcbReset
  | .macMk, .bytes b => .ok (.macMk b)
  | .payGen, .nat n => .ok (.payGen n)
  | .ethEnc, .ethEnc dst src prio length etype tag =>
      .ok (.ethEnc dst src prio length (etype.getD Config.etypeDefault) tag)
  | .ethDec, .bytes b => .ok (.ethDec b)
  | .llcEnc, .llcEnc payload etype q => .ok (.llcEnc payload (etype.getD Config.etypeDefault) q)
  | .llcDec, .bytes b => .ok (.llcDec b)
  | .fcPack, .fcPack ts flags => .ok (.fcPack ts flags.assemble)
  | .fcUnpack, .word v => .ok (.fcUnpack v)
  | .mpduBuild, .mpduBuild body bssid cfg => .ok (.mpduBuild body bssid cfg.assemble)
  | .mpduRetry, .mpdu m => .ok (.mpduRetry m)
  | .seqReset, .nat r => .ok (.seqReset r)
  | .seqMsdu, .nat r => .ok (.seqMsdu r)
  | .seqFrag, .nat r => .ok (.seqFrag r)
  | .fragSend, .fragSend r frame bssid size opt sc =>
      .ok (.fragSend r frame bssid size opt.assemble sc)
  | .mpduParse, .bytes b => .ok (.mpduParse b)
  | .mpduThlen, .mpduThlen v extIv n => .ok (.mpduThlen v extIv n)
  | .cmpDown, .cmpDown ms exp => .ok (.cmpDown ms exp)
  | .cmpUp, .cmpUp t exp ap => .ok (.cmpUp t exp ap)
  | _, _ => .error .operandType

/-- Decode a command: by its opcode alone (R60), then its operand record. -/
def decode (c : Command) : Except DecodeError Instr :=
  match opcodeOf c.op with
  | none => .error .illegalOpcode
  | some o => decodeArgs o c.args

/-- The real command a pseudo-command spells (R63); every other command is itself. -/
def Instr.expand : Instr → Instr
  | .fcbReset => .fcbReset
  | .macMk b => .macMk b
  | .payGen n => .payGen n
  | .ethEnc dst src prio length etype tag => .ethEnc dst src prio length etype tag
  | .ethDec b => .ethDec b
  | .llcEnc payload etype q => .llcEnc payload etype q
  | .llcDec b => .llcDec b
  | .fcPack ts flags => .fcPack ts flags
  | .fcUnpack v => .fcUnpack v
  | .mpduBuild body bssid cfg => .mpduBuild body bssid cfg
  | .mpduRetry m => .mpduRetry m
  | .seqReset r => .seqReset r
  | .seqMsdu r => .seqMsdu r
  | .seqFrag r => .seqFrag r
  | .fragSend r frame bssid size opt sc => .fragSend r frame bssid size opt sc
  | .mpduParse b => .mpduParse b
  | .mpduThlen v extIv n => .mpduThlen v extIv n
  | .cmpDown ms exp => .cmpDown ms exp
  | .cmpUp t exp ap => .cmpUp t exp ap
  | .mpduSend r frame bssid opt => .fragSend r frame bssid (llcBody frame).length opt none
  | .fragSendsc r frame bssid size opt sc => .fragSend r frame bssid size opt (some sc)

/-- The opcode a command is issued with (R61, R63). -/
def Instr.opcode : Instr → Opcode
  | .fcbReset => .fcbReset
  | .macMk _ => .macMk
  | .payGen _ => .payGen
  | .ethEnc _ _ _ _ _ _ => .ethEnc
  | .ethDec _ => .ethDec
  | .llcEnc _ _ _ => .llcEnc
  | .llcDec _ => .llcDec
  | .fcPack _ _ => .fcPack
  | .fcUnpack _ => .fcUnpack
  | .mpduBuild _ _ _ => .mpduBuild
  | .mpduRetry _ => .mpduRetry
  | .seqReset _ => .seqReset
  | .seqMsdu _ => .seqMsdu
  | .seqFrag _ => .seqFrag
  | .fragSend _ _ _ _ _ _ => .fragSend
  | .mpduParse _ => .mpduParse
  | .mpduThlen _ _ _ => .mpduThlen
  | .cmpDown _ _ => .cmpDown
  | .cmpUp _ _ _ => .cmpUp
  | .mpduSend _ _ _ _ => .fragSend
  | .fragSendsc _ _ _ _ _ _ => .fragSend

/-- The operand record a command is issued with, no operand omitted (R61); a pseudo-command's is that of the FRAG.SEND it
spells (R63). -/
def Instr.operands : Instr → Operands
  | .fcbReset => .unit
  | .macMk b => .bytes b
  | .payGen n => .nat n
  | .ethEnc dst src prio length etype tag => .ethEnc dst src prio length (some etype) tag
  | .ethDec b => .bytes b
  | .llcEnc payload etype q => .llcEnc payload (some etype) q
  | .llcDec b => .bytes b
  | .fcPack ts flags => .fcPack ts flags.given
  | .fcUnpack v => .word v
  | .mpduBuild body bssid cfg => .mpduBuild body bssid cfg.given
  | .mpduRetry m => .mpdu m
  | .seqReset r => .nat r
  | .seqMsdu r => .nat r
  | .seqFrag r => .nat r
  | .fragSend r frame bssid size opt sc => .fragSend r frame bssid size opt.given sc
  | .mpduParse b => .bytes b
  | .mpduThlen v extIv n => .mpduThlen v extIv n
  | .cmpDown ms exp => .cmpDown ms exp
  | .cmpUp t exp ap => .cmpUp t exp ap
  | .mpduSend r frame bssid opt => .fragSend r frame bssid (llcBody frame).length opt.given none
  | .fragSendsc r frame bssid size opt sc => .fragSend r frame bssid size opt.given (some sc)

/-- The command as the driver hands it over: opcode byte and operand record (R60). -/
def encode (i : Instr) : Command := ⟨opcodeByte i.opcode, i.operands⟩

/-- The address of six zero bytes. -/
def zeroAddr : MacAddr := ⟨0#8, 0#8, 0#8, 0#8, 0#8, 0#8⟩

/-- The least frame the type `EthFrame` has (R27): default ethertype, two zero bytes of payload. -/
def zeroFrame : EthFrame where
  dst := zeroAddr
  src := zeroAddr
  prio := 0#3
  tag := none
  etype := BitVec.ofNat 16 Config.etypeDefault
  payload := zeros 2

/-- The MPDU the builder makes of an empty body with every option at its default (R140). -/
def zeroMpdu : MpduRx := mpduOf .dataFromDs [] zeroAddr { dst := zeroAddr, src := zeroAddr }

/-- The expected frame of zeros. -/
def zeroExpect : Expect := ⟨zeroAddr, zeroAddr, false, 0#16, []⟩

/-- The operand record that goes with an opcode-table word, which has no operand bits (R60): each
operand that has a default omitted (R86), every other zero, empty or absent (assumption log 2). -/
def zeroOperands : Opcode → Operands
  | .fcbReset => .unit
  | .macMk => .bytes []
  | .payGen => .nat 0
  | .ethEnc => .ethEnc zeroAddr zeroAddr 0 0 none none
  | .ethDec => .bytes []
  | .llcEnc => .llcEnc [] none none
  | .llcDec => .bytes []
  | .fcPack => .fcPack 0 {}
  | .fcUnpack => .word 0#16
  | .mpduBuild => .mpduBuild [] zeroAddr { dst := zeroAddr, src := zeroAddr }
  | .mpduRetry => .mpdu zeroMpdu
  | .seqReset => .nat 0
  | .seqMsdu => .nat 0
  | .seqFrag => .nat 0
  | .fragSend => .fragSend 0 zeroFrame zeroAddr 0 {} none
  | .mpduParse => .bytes []
  | .mpduThlen => .mpduThlen 0#16 false 0
  | .cmpDown => .cmpDown [] zeroExpect
  | .cmpUp => .cmpUp .notOk zeroExpect zeroAddr

/-- The command whose opcode is the word of an opcode-table row (every row has 8 bits, R60). -/
def tableCommand (w : Nat) : Command :=
  match opcodeOf (BitVec.ofNat 8 w) with
  | none => ⟨BitVec.ofNat 8 w, .unit⟩
  | some o => ⟨BitVec.ofNat 8 w, zeroOperands o⟩

/-- What the decoder reads from an opcode-table word (assumption log 2). The width of a row is always
8 bits. -/
def decodeTableWord (_nbits w : Nat) : Option Instr :=
  match decode (tableCommand w) with
  | .ok i => some i
  | .error _ => none

end Sys2Proof
end

