-- ==== Sys2Proof/Machine/Comparator.lean ====
section
/-!
DEFINITION. Frame comparator (47_comparator.md): CMP.DOWN and CMP.UP.
-/

namespace Sys2Proof.Machine

/-- The logical triple of a built MPDU (R144). -/
def triple (m : MpduRx) : MacAddr × MacAddr × MacAddr := (m.cfg.dst, m.cfg.src, m.bssid)

/-- The least i from 1 on whose triple differs from that of MPDU 0 (R191, E_CHAIN_ADDR). -/
def chainBreak (m0 : MpduRx) (rest : List MpduRx) : Option Nat :=
  (rest.findIdx? fun m => triple m != triple m0).map (· + 1)

/-- An optional address as a reported value (V69b: `none` is reported as absent). -/
def infoAddr : Option MacAddr → InfoVal
  | none => .absent
  | some a => .addr a

/-- The last two comparisons of both checks: ethertype, then payload (R191, R194). -/
def compareTail (d : LlcDecoded) (exp : Expect) : Except Exc Result :=
  raiseIf (d.etype != exp.etype)
    (excMismatch .ethertype (.num exp.etype.toNat) (.num d.etype.toNat)) <|
  raiseIf (d.payload != exp.payload)
    (excMismatch .payload (.bytes exp.payload) (.bytes d.payload)) <|
  .ok .pass

/-- The pseudocode of CMP.DOWN (R191). -/
def cmpDown (ms : List MpduRx) (exp : Expect) : Except Exc Result :=
  match ms with
  | [] => .error (excPlain .emptyChain)
  | m0 :: rest =>
    match chainBreak m0 rest with
    | some i => .error (excIndex .chainAddr i)
    | none =>
      match llcDec ((m0 :: rest).flatMap MpduRx.body) with
      | .notOk => .error (excPlain .cmpDecode)
      | .ok d =>
        raiseIf (m0.cfg.dst != exp.dst)
          (excMismatch .dst (.addr exp.dst) (.addr m0.cfg.dst)) <|
        raiseIf (m0.cfg.src != exp.src)
          (excMismatch .src (.addr exp.src) (.addr m0.cfg.src)) <|
        compareTail d exp

/-- The body of a transmitted frame without its trailing placeholder bytes (R194, H6). -/
def stripFcs (body : Bytes) : Bytes := body.take (body.length - Config.fcsPlaceholderLen)

/-- CMP.UP's work on the body (R194): strip the placeholders, decode, compare. -/
def compareBody (body : Bytes) (exp : Expect) : Except Exc Result :=
  raiseIf (decide (body.length < Config.fcsPlaceholderLen)) (excPlain .cmpDecode) <|
  match llcDec (stripFcs body) with
  | .notOk => .error (excPlain .cmpDecode)
  | .ok d =>
    raiseIf (d.dot1q != exp.dot1q) (excMismatch .dot1q (.flag exp.dot1q) (.flag d.dot1q)) <|
    compareTail d exp

/-- The pseudocode of CMP.UP (R194), with `PATTERN_TAG` as an argument (R81). -/
def cmpUp (tag : U32) (t : Decoded MpduTx) (exp : Expect) (ap : MacAddr) : Except Exc Result :=
  match t with
  | .notOk => .error (excPlain .cmpDecode)
  | .ok t =>
    raiseIf (t.policy.w0 != tag) (excPair .pattern tag.toNat t.policy.w0.toNat) <|
    raiseIf (!t.lenOk) (excPair .thLen t.frameLen.toNat t.thLen) <|
    raiseIf (t.addr1 != ap) (excMismatch .addr1 (.addr ap) (.addr t.addr1)) <|
    raiseIf (t.addr2 != some exp.src)
      (excMismatch .addr2 (.addr exp.src) (infoAddr t.addr2)) <|
    raiseIf (t.addr3 != some exp.dst)
      (excMismatch .addr3 (.addr exp.dst) (infoAddr t.addr3)) <|
    compareBody t.body exp

/-- `expect(f)` (R192). -/
def expectOf (f : EthFrame) : Expect where
  dst := f.dst
  src := f.src
  dot1q := f.tag.isSome
  etype := f.etype
  payload := f.payload

/-- CMP.DOWN (R191). -/
def execCmpDown (ms : List MpduRx) (exp : Expect) (s : State) :
    Host.Outcome State Fault Refusal :=
  s.issuePure (cmpDown ms exp)

/-- CMP.UP (R194). -/
def execCmpUp (t : Decoded MpduTx) (exp : Expect) (ap : MacAddr) (s : State) :
    Host.Outcome State Fault Refusal :=
  s.issuePure (cmpUp Config.patternTag t exp ap)

end Sys2Proof.Machine
end

