-- ==== Sys2Proof/Machine/Control.lean ====
section
/-!
DEFINITION. FCB.RESET (70_reset_and_hazards.md R231).
-/

namespace Sys2Proof.Machine

/-- FCB.RESET (R231): the one command accepted while FAULTED (R209); it never faults. -/
def execFcbReset (s : State) : Host.Outcome State Fault Refusal :=
  .next (s.resetBlock.close (.completed .unit))

end Sys2Proof.Machine
end

