-- ==== Sys2Proof/Machine/FrameControl.lean ====
section
/-!
DEFINITION. 802.11 frame-control codec (43_framecontrol.md): FC.PACK and FC.UNPACK.
-/

namespace Sys2Proof.Machine

/-- The pseudocode of FC.PACK (R131). -/
def fcPack (ts : Nat) (flags : FcFlags) : Except Exc U16 :=
  raiseIf (decide (256 ≤ ts) || !tsDefined (BitVec.ofNat 8 ts)) (excActual .typeSubtype ts) <|
  .ok (fcPackWord (BitVec.ofNat 8 ts) flags)

/-- The pseudocode of FC.UNPACK (R133). -/
def fcUnpack (v : U16) : Except Exc FcFields :=
  raiseIf (!tsDefined (fcTs v)) (excActual .typeSubtype (fcTs v).toNat) <| .ok (fcUnpackWord v)

/-- FC.PACK (R131). -/
def execFcPack (ts : Nat) (flags : FcFlags) (s : State) : Host.Outcome State Fault Refusal :=
  s.issuePure ((fcPack ts flags).map .word)

/-- FC.UNPACK (R133). -/
def execFcUnpack (v : U16) (s : State) : Host.Outcome State Fault Refusal :=
  s.issuePure ((fcUnpack v).map .fcFields)

end Sys2Proof.Machine
end

