-- ==== Sys2Proof/Machine/Parser.lean ====
section
/-!
DEFINITION. MPDU parser (46_mpdu_parser.md): the TX record `TXL` (R80 to R83), MPDU.PARSE and the
theoretical length MPDU.THLEN.
-/

namespace Sys2Proof.Machine

/-- `has_a2(ts)` (R82). -/
def hasA2 (ts : Byte) : Bool :=
  isData ts || isMgmt ts || isRts ts || isPsPoll ts || isCfEnd ts || isBa ts || isBar ts

/-- `has_a3(ts)` (R82). -/
def hasA3 (ts : Byte) : Bool := isData ts || isMgmt ts

/-- `has_sc(ts)` (R82, C7): data frames only. -/
def hasSc (ts : Byte) : Bool := isData ts

/-- The condition of the fourth address (R82): both DS flags, whatever the frame type. -/
def hasA4 (f : FcFlags) : Bool := f.toDs && f.fromDs

/-- The condition of the HT control field (R82). -/
def hasHtc (ts : Byte) (f : FcFlags) : Bool := isCtrlWrapper ts || f.order

/-- `thlen(v, ext_iv, body_len)` (R178), term by term. -/
def thlen (v : U16) (extIv : Bool) (bodyLen : Nat) : Nat :=
  let ts := fcTs v
  let f := fcFlags v
  10
    + 6 * (hasA2 ts).toNat
    + 6 * (hasA3 ts).toNat
    + 2 * (hasSc ts).toNat
    + 6 * (hasA4 f).toNat
    + 2 * (isQosData ts).toNat
    + 2 * (isCtrlWrapper ts).toNat
    + 4 * (hasHtc ts f).toNat
    + 4 * f.prot.toNat
    + 4 * (f.prot && extIv).toNat
    + bodyLen

/-- One conditional field of the MAC header (R176, `take(k)`): absent where its condition fails;
otherwise k bytes are read, and there is no result where fewer are left. -/
def takeField {α : Type} (present : Bool) (k : Nat) (rd : Bytes → α) (b : Bytes) :
    Option (Option α × Bytes) :=
  if present then
    if b.length < k then none else some (some (rd b), b.drop k)
  else some (none, b)

/-- The fields of a TX record's MAC header after its fixed ten bytes (R82). -/
structure TxHeader where
  addr2 : Option MacAddr
  addr3 : Option MacAddr
  sc : Option U16
  addr4 : Option MacAddr
  qos : Option U16
  cfc : Option U16
  htc : Option U32
  iv : Option U32
  extIv : Bool
  eiv : Option U32
  deriving DecidableEq, Repr

/-- The extended-IV flag (R83, R176): the given bit of the IV word, 0 where there is no IV. -/
def extIvFlag (bit : Nat) : Option U32 → Bool
  | none => false
  | some v => v.getLsbD bit

/-- The conditional header fields in the order of R82, and the body after them; none where the bytes
run out (R176). -/
def parseHeader (ivBit : Nat) (fcw : U16) (b0 : Bytes) : Option (TxHeader × Bytes) :=
  let ts := fcTs fcw
  let f := fcFlags fcw
  (takeField (hasA2 ts) 6 (addrAt · 0) b0).bind fun (addr2, b1) =>
  (takeField (hasA3 ts) 6 (addrAt · 0) b1).bind fun (addr3, b2) =>
  (takeField (hasSc ts) 2 (rdLE16 · 0) b2).bind fun (sc, b3) =>
  (takeField (hasA4 f) 6 (addrAt · 0) b3).bind fun (addr4, b4) =>
  (takeField (isQosData ts) 2 (rdLE16 · 0) b4).bind fun (qos, b5) =>
  (takeField (isCtrlWrapper ts) 2 (rdLE16 · 0) b5).bind fun (cfc, b6) =>
  (takeField (hasHtc ts f) 4 (rdLE32 · 0) b6).bind fun (htc, b7) =>
  (takeField f.prot 4 (rdLE32 · 0) b7).bind fun (iv, b8) =>
  (takeField (f.prot && extIvFlag ivBit iv) 4 (rdLE32 · 0) b8).bind fun (eiv, b9) =>
  some (⟨addr2, addr3, sc, addr4, qos, cfc, htc, iv, extIvFlag ivBit iv, eiv⟩, b9)

/-- The seven policy words at offsets 4, 8, ... 28 (R80, R181). -/
def policyOf (rec : Bytes) : Policy :=
  ⟨rdLE32 rec 4, rdLE32 rec 8, rdLE32 rec 12, rdLE32 rec 16, rdLE32 rec 20, rdLE32 rec 24,
   rdLE32 rec 28⟩

/-- The object MPDU.PARSE returns with `ok = 1` (R176): the fixed fields of the record, the parsed
header, the body, and the length self-check (R180). -/
def mpduTxOf (rec : Bytes) (h : TxHeader) (body : Bytes) : MpduTx where
  queueId := byteAt rec 0
  channel := byteAt rec 1
  frameLen := rdLE16 rec 2
  policy := policyOf rec
  fcw := rdLE16 rec 32
  fc := fcUnpackWord (rdLE16 rec 32)
  dur := rdLE16 rec 34
  addr1 := addrAt rec 36
  addr2 := h.addr2
  addr3 := h.addr3
  sc := h.sc
  addr4 := h.addr4
  qos := h.qos
  cfc := h.cfc
  htc := h.htc
  iv := h.iv
  extIv := h.extIv
  eiv := h.eiv
  body := body
  thLen := thlen (rdLE16 rec 32) h.extIv body.length
  lenOk := thlen (rdLE16 rec 32) h.extIv body.length == (rdLE16 rec 2).toNat

/-- The pseudocode of MPDU.PARSE (R176), with `IV_EXT_BIT` as an argument (R83). -/
def parseRec (ivBit : Nat) (rec : Bytes) : Except Exc (Decoded MpduTx) :=
  if rec.length < 42 then .ok .notOk
  else
    raiseIf (!tsDefined (fcTs (rdLE16 rec 32)))
      (excActual .typeSubtype (fcTs (rdLE16 rec 32)).toNat) <|
    match parseHeader ivBit (rdLE16 rec 32) (rec.drop 42) with
    | none => .ok .notOk
    | some (h, body) => .ok (.ok (mpduTxOf rec h body))

/-- The pseudocode of MPDU.THLEN (R178). -/
def mpduThlen (v : U16) (extIv : Bool) (bodyLen : Nat) : Except Exc Nat :=
  raiseIf (!tsDefined (fcTs v)) (excActual .typeSubtype (fcTs v).toNat) <|
  .ok (thlen v extIv bodyLen)

/-- MPDU.PARSE (R176). -/
def execMpduParse (rec : Bytes) (s : State) : Host.Outcome State Fault Refusal :=
  s.issuePure ((parseRec Config.ivExtBit rec).map .parsed)

/-- MPDU.THLEN (R178). -/
def execMpduThlen (v : U16) (extIv : Bool) (bodyLen : Nat) (s : State) :
    Host.Outcome State Fault Refusal :=
  s.issuePure ((mpduThlen v extIv bodyLen).map .nat)

end Sys2Proof.Machine
end

