-- ==== Sys2Proof/Machine/Dispatch.lean ====
section
/-!
DEFINITION. One arm per command (R61, R63), each a direct call of its meaning.
-/

namespace Sys2Proof.Machine

def exec (i : Instr) (s : State) : Host.Outcome State Fault Refusal :=
  match i with
  | .fcbReset => Sys2Proof.Machine.execFcbReset s
  | .macMk b => Sys2Proof.Machine.execMacMk b s
  | .payGen n => Sys2Proof.Machine.execPayGen n s
  | .ethEnc dst src prio length etype tag => Sys2Proof.Machine.execEthEnc dst src prio length etype tag s
  | .ethDec b => Sys2Proof.Machine.execEthDec b s
  | .llcEnc payload etype q => Sys2Proof.Machine.execLlcEnc payload etype q s
  | .llcDec b => Sys2Proof.Machine.execLlcDec b s
  | .fcPack ts flags => Sys2Proof.Machine.execFcPack ts flags s
  | .fcUnpack v => Sys2Proof.Machine.execFcUnpack v s
  | .mpduBuild body bssid cfg => Sys2Proof.Machine.execMpduBuild body bssid cfg s
  | .mpduRetry m => Sys2Proof.Machine.execMpduRetry m s
  | .seqReset r => Sys2Proof.Machine.execSeqReset r s
  | .seqMsdu r => Sys2Proof.Machine.execSeqMsdu r s
  | .seqFrag r => Sys2Proof.Machine.execSeqFrag r s
  | .fragSend r frame bssid size opt ov => Sys2Proof.Machine.execFragSend r frame bssid size opt ov s
  | .mpduParse b => Sys2Proof.Machine.execMpduParse b s
  | .mpduThlen v extIv n => Sys2Proof.Machine.execMpduThlen v extIv n s
  | .cmpDown ms exp => Sys2Proof.Machine.execCmpDown ms exp s
  | .cmpUp t exp ap => Sys2Proof.Machine.execCmpUp t exp ap s
  | .mpduSend r frame bssid opt => Sys2Proof.Machine.execMpduSend r frame bssid opt s
  | .fragSendsc r frame bssid size opt sc => Sys2Proof.Machine.execFragSendsc r frame bssid size opt sc s

end Sys2Proof.Machine
end

