-- ==== Sys2Proof/Machine/Issue.lean ====
section
/-!
DEFINITION. What the block does with the command it has taken: it is refused where its opcode is
undefined (R64, R209), and otherwise decoded and executed. A command the driver is assumed never
to issue (R233) has no move.
-/

namespace Sys2Proof.Machine

/-- Take one command in a state from which it has already been removed. -/
def issueCommand (c : Command) (s : State) : Host.Outcome State Fault Refusal :=
  match decode c with
  | .error .illegalOpcode => .next (s.refuse .illegalCmd)
  | .error .operandType => .refused .operandType
  | .ok i => if i.wf then exec i s else .refused .illFormedOperand

end Sys2Proof.Machine
end

