-- ==== Sys2Proof/Machine/Step.lean ====
section
/-!
DEFINITION. One step: the block takes the oldest command the driver has issued and executes it to
its end (R21, R50); where there is none it waits (R230).
-/

namespace Sys2Proof.Machine

/-- One step of the block (R21, R50, R230). -/
def step (s : State) : Host.Outcome State Fault Refusal :=
  match s.pending with
  | [] => .next s
  | c :: rest => issueCommand c (s.setPending rest)

/-- The state with the command of an opcode-table word issued ahead of every other, so that the next
step takes exactly it (assumption log 1 and 2). -/
def State.withFetchWord (s : State) (_nbits w : Nat) : State :=
  s.setPending (tableCommand w :: s.pending)

end Sys2Proof.Machine
end

