-- ==== Sys2Proof/Safety.lean ====
section
/-!
DEFINITION. Runs (70_reset_and_hazards.md R235): a finite list of commands issued from the reset
state, when it has gone wrong, and what of it is observable otherwise; and the invariant the
reachable states keep (R23, R26, R77).
-/

namespace Sys2Proof.Safety

open Sys2Proof.Machine

/-- The start of a run: the reset state with the run's commands issued (R235). -/
def startOf (cmds : List Command) : State := State.reset.setPending cmds

/-- A run: one step for each command, from reset (R235). -/
def runOf (cmds : List Command) : Host.Outcome State Fault Refusal :=
  Host.Core.run Sys2Proof.core cmds.length (startOf cmds)

/-- Whether a command ended by being refused (R209). -/
def wasRefused : Completion → Bool
  | .refused _ => true
  | .completed _ => false
  | .faulted _ => false

/-- The run has gone wrong: FAULTED at its end, or some command was refused (R235). -/
def goneWrong (s : State) : Bool := s.st.faulted || s.ended.any wasRefused

/-- The results returned, in order (R235). -/
def resultsOf (s : State) : List Result :=
  s.ended.filterMap fun
    | .completed r => some r
    | .faulted _ => none
    | .refused _ => none

/-- The observable outcome of a run that has not gone wrong: results, counters, `TXQ` (R235). -/
def observed (s : State) : List Result × U16 × U16 × List Bytes :=
  (resultsOf s, s.counters.ap.sc, s.counters.sta.sc, s.txq)

/-- The codes of the faults of R203: its table without the two refusals, 0x01 and 0x02. -/
def faultCodes : List Byte :=
  [0x10#8, 0x11#8, 0x12#8, 0x13#8, 0x14#8, 0x15#8, 0x16#8, 0x17#8, 0x18#8, 0x19#8, 0x1A#8, 0x1B#8,
   0x1C#8, 0x1D#8, 0x1E#8, 0x20#8, 0x21#8, 0x22#8, 0x23#8, 0x24#8]

/-- `ST` is as R23 says: cause and info are empty while not FAULTED, and a latched cause is the code of
a fault of R203, never a refusal's. -/
def statusOk (st : Status) : Prop :=
  (st.faulted = false → st.cause = 0x00#8 ∧ st.info = {}) ∧ (st.faulted = true → st.cause ∈ faultCodes)

/-- No counter is dirty: FRAG.SEND is atomic, so no command observes one that is (R26). -/
def countersClean (cs : Counters) : Prop := cs.ap.dirty = false ∧ cs.sta.dirty = false

/-- A record on `TXQ` has the length of an RX record (R77). -/
def recordOk (rec : Bytes) : Prop := 108 ≤ rec.length ∧ rec.length % 4 = 0

/-- The built MPDUs a result hands back are consistent with their own fields (R28). -/
def resultOk : Result → Prop
  | .mpdu m => m.wf = true
  | .mpdus ms => ∀ m ∈ ms, m.wf = true
  | .ethFrame f => f.wf = true
  | _ => True

/-- A completed command's result is consistent (R28). -/
def completionOk : Completion → Prop
  | .completed r => resultOk r
  | .faulted _ => True
  | .refused _ => True

/-- The invariant of the reachable states (R23, R26, R28, R77). -/
def Inv (s : State) : Prop :=
  statusOk s.st ∧ countersClean s.counters ∧ (∀ rec ∈ s.txq, recordOk rec) ∧
    ∀ e ∈ s.ended, completionOk e

/-! The terms in which the statements about commands are made. -/

/-- The block accepts commands: it is not FAULTED (R209). -/
def ready (s : State) : Prop := s.st.faulted = false

/-- Exactly one completion was reported, and `ST` is as it was unless that completion is a fault. -/
def oneCompletion (s t : State) : Prop :=
  ∃ e, t.ended = s.ended ++ [e] ∧ ((∀ x, e ≠ .faulted x) → t.st = s.st)

/-- The commands that write no state and draw nothing (R47): every one but FCB.RESET, PAY.GEN,
ETH.ENC and the commands of 45_fragmentation.md. -/
def isPure : Instr → Bool
  | .fcbReset => false
  | .macMk _ => true
  | .payGen _ => false
  | .ethEnc _ _ _ _ _ _ => false
  | .ethDec _ => true
  | .llcEnc _ _ _ => true
  | .llcDec _ => true
  | .fcPack _ _ => true
  | .fcUnpack _ => true
  | .mpduBuild _ _ _ => true
  | .mpduRetry _ => true
  | .seqReset _ => false
  | .seqMsdu _ => false
  | .seqFrag _ => false
  | .fragSend _ _ _ _ _ _ => false
  | .mpduParse _ => true
  | .mpduThlen _ _ _ => true
  | .cmpDown _ _ => true
  | .cmpUp _ _ _ => true
  | .mpduSend _ _ _ _ => false
  | .fragSendsc _ _ _ _ _ _ => false

/-- The source a command of 45_fragmentation.md names, none for every other command (R24). -/
def namedSource : Instr → Option Nat
  | .seqReset r => some r
  | .seqMsdu r => some r
  | .seqFrag r => some r
  | .fragSend r _ _ _ _ _ => some r
  | .mpduSend r _ _ _ => some r
  | .fragSendsc r _ _ _ _ _ => some r
  | _ => none

/-- How many MPDUs FRAG.SEND makes of a frame (R163): `ceil(L / S)`. -/
def fragCount (frame : EthFrame) (size : Nat) : Nat := ceilDiv (llcBody frame).length size

/-- The options of FRAG.SEND pass its checks (R160). -/
def optOk (opt : FragOpt) : Prop :=
  tsDefined opt.ts = true ∧ isData opt.ts = true ∧
    (opt.toDs = true → opt.fromDs = true → opt.ra.isSome = true ∧ opt.ta.isSome = true)

/-- What FRAG.SEND guarantees of its result (R166): one MPDU for each chunk of the LLC/SNAP body, in
order; each a consistent built MPDU with the frame's addresses and the options passed through, the
more-fragments flag clear on the last only, and fragment numbers counting up from `f0` under the one
sequence number `seq`; the bodies together are the LLC/SNAP body, and all address fields are equal. -/
def isFragChain (frame : EthFrame) (bssid : MacAddr) (size : Nat) (opt : FragOpt)
    (seq : BitVec 12) (f0 : Nat) (out : List MpduRx) : Prop :=
  out.length = fragCount frame size ∧
  out.flatMap MpduRx.body = llcBody frame ∧
  (∀ m ∈ out, ∀ m' ∈ out, m.addrs = m'.addrs) ∧
  ∀ i m, out[i]? = some m →
    m.wf = true ∧ m.bssid = bssid ∧ m.body = chunkOf (llcBody frame) size i ∧
    m.cfg =
      { dst := frame.dst, src := frame.src, ts := opt.ts,
        toDs := opt.toDs, fromDs := opt.fromDs, moreFrag := decide (i + 1 < out.length),
        retry := opt.retry, pwrMgmt := opt.pwrMgmt, moreData := opt.moreData,
        prot := opt.prot, order := opt.order,
        sc := scw seq (BitVec.ofNat 4 (f0 + i)), ra := opt.ra, ta := opt.ta }

/-- An optional field's bytes: none where it is absent. -/
def optBytes {α : Type} (f : α → Bytes) : Option α → Bytes
  | none => []
  | some a => f a

/-- The bytes a parsed MPDU stands for (R179): the record rebuilt from the object's fields, in the
order of R80 and R82. -/
def txBytes (t : MpduTx) : Bytes :=
  [t.queueId, t.channel] ++ le16 t.frameLen ++
    (le32 t.policy.w0 ++ le32 t.policy.w1 ++ le32 t.policy.w2 ++ le32 t.policy.w3 ++
      le32 t.policy.w4 ++ le32 t.policy.w5 ++ le32 t.policy.w6) ++
    (le16 t.fcw ++ le16 t.dur ++ addrBytes t.addr1) ++
    (optBytes addrBytes t.addr2 ++ optBytes addrBytes t.addr3 ++ optBytes le16 t.sc ++
      optBytes addrBytes t.addr4 ++ optBytes le16 t.qos ++ optBytes le16 t.cfc ++
      optBytes le32 t.htc ++ optBytes le32 t.iv ++ optBytes le32 t.eiv) ++
    t.body

end Sys2Proof.Safety
end

