-- ==== Sys2Proof/Certificates/Slice0/Obligations.lean ====
section
/-!
DEFINITION. The statements for the provers. Each docstring names the rule of spec/ it is about;
OBLIGATIONS.json says which are stated rules and which are derived.
-/

open Sys2Proof Sys2Proof.Machine Sys2Proof.Safety

/-! ## The machine: steps, refusal, faults, reset -/

/-- When the oldest issued command decodes to a well-formed instruction, the step is the execution of
that instruction in the state from which the command has been removed (R21, R50).
Rests on log 1, 7. -/
def Obligations.StepRunsDecodedCommand : Prop :=
  ∀ (s : State) (c : Command) (rest : List Command) (i : Instr),
    s.pending = c :: rest → decode c = .ok i → i.wf = true →
      step s = exec i { s with pending := rest }

/-- Each of the 237 undefined opcodes, with any operands and in any state, is refused with no effect
but the report of the refusal (R64, R209).
Rests on the spec's own decisions D1, D26 (92_eei_decisions.md); log 6. -/
def Obligations.UndefinedOpcodeRefused : Prop :=
  ∀ (s : State) (c : Command) (rest : List Command), s.pending = c :: rest →
    c.op ∉ [0x00#8, 0x01#8, 0x02#8, 0x10#8, 0x11#8, 0x20#8, 0x21#8, 0x30#8, 0x31#8, 0x40#8, 0x41#8,
            0x50#8, 0x51#8, 0x52#8, 0x53#8, 0x60#8, 0x61#8, 0x70#8, 0x71#8] →
      step s = .next { s with pending := rest, ended := s.ended ++ [.refused .illegalCmd] }

/-- Decoding the issued form of a command gives the command back, with every operand; a pseudo-command
gives the FRAG.SEND it spells (R60, R61, R63).
Rests on the spec's own decision D1 (92_eei_decisions.md); log 16. -/
def Obligations.DecodeEncodeAgree : Prop :=
  ∀ i : Instr, decode (encode i) = .ok i.expand

/-- A few opcode words of R61 decode to their commands; and whichever operands that have a default are
omitted, each is read as its default before the command runs: the ethertype 0x0800, from-DS 1, the
type+subtype byte 0x08, the sequence control 0x0000, every other flag 0 and every address absent
(R27, R62, R86, R131, R160).
Rests on the spec's own decisions D1, D6, D12 (92_eei_decisions.md); log 21. -/
def Obligations.WrittenOpcodesDecode : Prop :=
  decode ⟨0b00000000#8, .unit⟩ = .ok .fcbReset ∧
  (∀ b, decode ⟨0b00010001#8, .bytes b⟩ = .ok (.ethDec b)) ∧
  (∀ v, decode ⟨0b00110001#8, .word v⟩ = .ok (.fcUnpack v)) ∧
  (∀ r, decode ⟨0b01010001#8, .nat r⟩ = .ok (.seqMsdu r)) ∧
  (∀ t exp ap, decode ⟨0b01110001#8, .cmpUp t exp ap⟩ = .ok (.cmpUp t exp ap)) ∧
  (∀ dst src prio length etype tag, decode ⟨0b00010000#8, .ethEnc dst src prio length etype tag⟩ =
    .ok (.ethEnc dst src prio length (etype.getD 0x0800) tag)) ∧
  (∀ payload etype q, decode ⟨0b00100000#8, .llcEnc payload etype q⟩ =
    .ok (.llcEnc payload (etype.getD 0x0800) q)) ∧
  (∀ (ts : Nat) (a : FcFlagsArg), decode ⟨0b00110000#8, .fcPack ts a⟩ = .ok (.fcPack ts
    { toDs := a.toDs.getD false, fromDs := a.fromDs.getD false, moreFrag := a.moreFrag.getD false,
      retry := a.retry.getD false, pwrMgmt := a.pwrMgmt.getD false,
      moreData := a.moreData.getD false, prot := a.prot.getD false,
      order := a.order.getD false })) ∧
  (∀ (body : Bytes) (bssid : MacAddr) (a : BuildCfgArg),
    decode ⟨0b01000000#8, .mpduBuild body bssid a⟩ = .ok (.mpduBuild body bssid
      { dst := a.dst, src := a.src, ts := a.ts.getD 0x08#8, toDs := a.toDs.getD false,
        fromDs := a.fromDs.getD true, moreFrag := a.moreFrag.getD false,
        retry := a.retry.getD false, pwrMgmt := a.pwrMgmt.getD false,
        moreData := a.moreData.getD false, prot := a.prot.getD false,
        order := a.order.getD false, sc := a.sc.getD 0x0000#16, ra := a.ra, ta := a.ta })) ∧
  (∀ (r : Nat) (frame : EthFrame) (bssid : MacAddr) (size : Nat) (a : FragOptArg) (ov : Option U16),
    decode ⟨0b01010011#8, .fragSend r frame bssid size a ov⟩ = .ok (.fragSend r frame bssid size
      { ts := a.ts.getD 0x08#8, toDs := a.toDs.getD false, fromDs := a.fromDs.getD true,
        retry := a.retry.getD false, pwrMgmt := a.pwrMgmt.getD false,
        moreData := a.moreData.getD false, prot := a.prot.getD false,
        order := a.order.getD false, ra := a.ra, ta := a.ta } ov))

/-- Every command, with any operands in any state, ends and is reported exactly once: it completed,
faulted or was refused, and it was refused exactly where the block was FAULTED and the command is not
FCB.RESET (R14, R209, R236).
Rests on the spec's own decision D26 (92_eei_decisions.md); log 3, 5, 6. -/
def Obligations.EveryCommandEndsOnce : Prop :=
  ∀ (i : Instr) (s : State), ∃ (t : State) (e : Completion),
    exec i s = .next t ∧ t.ended = s.ended ++ [e] ∧
      ((∃ c, e = .refused c) ↔ (s.st.faulted = true ∧ i ≠ .fcbReset))

/-- While FAULTED every command but FCB.RESET is refused with E_FAULTED and nothing changes but the
report (R209).
Rests on the spec's own decision D26 (92_eei_decisions.md); log 6. -/
def Obligations.FaultedRefusesAllButReset : Prop :=
  ∀ (i : Instr) (s : State), s.st.faulted = true → i ≠ .fcbReset →
    exec i s = .next { s with ended := s.ended ++ [.refused .faulted] }

/-- A command that faults changes no counter, emits nothing, draws nothing and returns no result:
every check comes before the first effect (R204). -/
def Obligations.FaultsComeBeforeEffects : Prop :=
  ∀ (i : Instr) (s t : State) (x : Exc), exec i s = .next t →
    t.ended = s.ended ++ [.faulted x] →
      t.counters = s.counters ∧ t.txq = s.txq ∧ t.draws = s.draws ∧ t.pending = s.pending

/-- Fault entry: the status record latches the cause's code and its context, and the next state is the
state before the command with nothing but that and the report changed (R208); the code is one of a
fault, and the codes of all the causes are the numbers of R203's table.
Rests on the spec's own decision D26 (92_eei_decisions.md); log 5, 17. -/
def Obligations.FaultEntryLatchesStatus : Prop :=
  (∀ (i : Instr) (s t : State) (x : Exc), exec i s = .next t →
    t.ended = s.ended ++ [.faulted x] →
      s.st.faulted = false ∧ causeCode x.cause ∈ faultCodes ∧
      t = { s with st := ⟨true, causeCode x.cause, x.info⟩, ended := s.ended ++ [.faulted x] }) ∧
  (causeCode .illegalCmd = 0x01#8 ∧ causeCode .faulted = 0x02#8 ∧ causeCode .addrLen = 0x10#8 ∧
    causeCode .payLen = 0x11#8 ∧ causeCode .prio = 0x12#8 ∧ causeCode .vlanId = 0x13#8 ∧
    causeCode .etype = 0x14#8 ∧ causeCode .typeSubtype = 0x15#8 ∧ causeCode .frameType = 0x16#8 ∧
    causeCode .rata = 0x17#8 ∧ causeCode .bodyLen = 0x18#8 ∧ causeCode .retryTwice = 0x19#8 ∧
    causeCode .role = 0x1A#8 ∧ causeCode .fragSize = 0x1B#8 ∧ causeCode .fragCount = 0x1C#8 ∧
    causeCode .scDirty = 0x1D#8 ∧ causeCode .emptyChain = 0x1E#8 ∧ causeCode .chainAddr = 0x20#8 ∧
    causeCode .cmpDecode = 0x21#8 ∧ causeCode .mismatch = 0x22#8 ∧ causeCode .pattern = 0x23#8 ∧
    causeCode .thLen = 0x24#8)

/-- FCB.RESET completes in every state, FAULTED or not: status, counters and dirty bits take their
reset values and the transport-out list stays (R231).
Rests on the spec's own decision D27 (92_eei_decisions.md); log 19. -/
def Obligations.FcbResetCompletes : Prop :=
  ∀ s : State, exec .fcbReset s =
    .next { s with
      st := ⟨false, 0x00#8, {}⟩
      counters := ⟨⟨0x0000#16, false⟩, ⟨0x0000#16, false⟩⟩
      ended := s.ended ++ [.completed .unit] }

/-- What reset leaves (R30, R230).
Rests on the spec's own decision D27 (92_eei_decisions.md). -/
def Obligations.ResetValues : Prop :=
  State.reset.st = ⟨false, 0x00#8, {}⟩ ∧
  State.reset.counters = ⟨⟨0x0000#16, false⟩, ⟨0x0000#16, false⟩⟩ ∧
  State.reset.txq = []

/-- The invariant holds after reset (R23, R26, R28, R77).
Rests on the spec's own decisions D26, D28 (92_eei_decisions.md). -/
def Obligations.ResetMeetsInvariant : Prop := Inv State.reset

/-- Every step keeps the invariant: the status record is clear while not FAULTED and holds the code of a
fault of R203 while FAULTED, no counter is dirty between commands, every emitted record has the
length of an RX record, and every frame and MPDU handed back is consistent with its own fields
(R23, R26, R28, R77, R203).
Rests on the spec's own decisions D26, D28 (92_eei_decisions.md); log 3, 15. -/
def Obligations.StepKeepsInvariant : Prop :=
  ∀ s t : State, Inv s → step s = .next t → Inv t

/-! ## Frames: what each command leaves as it was -/

/-- Frame of MAC.MK, ETH.DEC, LLC.ENC, LLC.DEC, FC.PACK, FC.UNPACK, MPDU.BUILD, MPDU.RETRY, MPDU.PARSE,
MPDU.THLEN, CMP.DOWN and CMP.UP: they write no state but `ST`, and that only on a fault (R47). -/
def Obligations.PureCommandsFrame : Prop :=
  ∀ (i : Instr) (s t : State), isPure i = true → exec i s = .next t →
    t.counters = s.counters ∧ t.txq = s.txq ∧ t.draws = s.draws ∧ t.pending = s.pending ∧
      oneCompletion s t

/-- Frame of PAY.GEN and ETH.ENC: they write no state but `ST` on a fault; bytes are drawn, as many as
the length operand says, exactly where the command completes (R47, R104, R111).
Rests on the spec's own decision D29 (92_eei_decisions.md); log 8. -/
def Obligations.DrawingCommandsFrame : Prop :=
  ∀ (i : Instr) (n : Nat) (s t : State),
    (i = .payGen n ∨ ∃ dst src prio etype tag, i = .ethEnc dst src prio n etype tag) →
    exec i s = .next t →
      t.counters = s.counters ∧ t.txq = s.txq ∧ t.pending = s.pending ∧ oneCompletion s t ∧
        ((∃ r, t.ended = s.ended ++ [.completed r]) → t.draws = s.draws + n) ∧
        ((¬ ∃ r, t.ended = s.ended ++ [.completed r]) → t.draws = s.draws)

/-- Frame of SEQ.RESET, SEQ.MSDU and SEQ.FRAG: besides `ST` on a fault they write the counter of the
source they name and nothing else (R156, R157, R158).
Rests on the spec's own decisions D15, D16, D27 (92_eei_decisions.md). -/
def Obligations.CounterCommandsFrame : Prop :=
  ∀ (i : Instr) (r : Nat) (s t : State), (i = .seqReset r ∨ i = .seqMsdu r ∨ i = .seqFrag r) →
    exec i s = .next t →
      t.txq = s.txq ∧ t.draws = s.draws ∧ t.pending = s.pending ∧ oneCompletion s t ∧
        (∀ role, roleOf r ≠ some role → t.counters.get role = s.counters.get role) ∧
        (∀ role v, t.ended = s.ended ++ [.completed (.word v)] →
          t.counters.get role = s.counters.get role ∨ t.counters.get role = ⟨v, s.dirty role⟩)

/-- Frame of FRAG.SEND, MPDU.SEND and FRAG.SENDSC: besides `ST` on a fault they append to `TXQ` the
records of the MPDUs returned, in order, and write the counter of the source they name; under an
override no counter at all (R160, R164).
Rests on the spec's own decisions D17, D18 (92_eei_decisions.md); log 15, 16. -/
def Obligations.FragmentCommandsFrame : Prop :=
  ∀ (i : Instr) (r : Nat) (frame : EthFrame) (bssid : MacAddr) (size : Nat) (opt : FragOpt)
    (ov : Option U16) (s t : State),
    i.expand = .fragSend r frame bssid size opt ov → exec i s = .next t →
      t.draws = s.draws ∧ t.pending = s.pending ∧ oneCompletion s t ∧
        (∀ role, roleOf r ≠ some role → t.counters.get role = s.counters.get role) ∧
        (ov ≠ none → t.counters = s.counters) ∧
        (∀ out, t.ended = s.ended ++ [.completed (.mpdus out)] → t.txq = s.txq ++ out.map ser) ∧
        ((¬ ∃ out, t.ended = s.ended ++ [.completed (.mpdus out)]) → t.txq = s.txq)

/-- No command for one source touches another source's counter or dirty bit, and no command but FCB.RESET
and those of the fragmentation engine touches any (R24).
Rests on the spec's own decision D15 (92_eei_decisions.md). -/
def Obligations.SourcesAreIndependent : Prop :=
  ∀ (i : Instr) (s t : State) (role : Role), exec i s = .next t → i ≠ .fcbReset →
    (∀ r, namedSource i = some r → roleOf r ≠ some role) →
      t.counters.get role = s.counters.get role

/-! ## Address and payload primitives -/

/-- MAC.MK returns the address of exactly six bytes and faults with E_ADDRLEN on any other length
(R101).
Rests on the spec's own decision D26 (92_eei_decisions.md). -/
def Obligations.MacMkResult : Prop :=
  ∀ (b : Bytes) (s : State), ready s →
    (∀ a : MacAddr, b = addrBytes a →
      exec (.macMk b) s = .next { s with ended := s.ended ++ [.completed (.addr a)] }) ∧
    (b.length = 6 → ∃ a, b = addrBytes a) ∧
    (b.length ≠ 6 → exec (.macMk b) s = .next (s.raise (excActual .addrLen b.length)))

/-- PAY.GEN returns n bytes, any values, for 1 < n <= 1500, and faults with E_PAYLEN otherwise (R104).
The bytes are the free values of log 8: the statement holds for every value of them.
Rests on the spec's own decisions D7, D29 (92_eei_decisions.md); log 8. -/
def Obligations.PayGenResult : Prop :=
  ∀ (n : Nat) (s : State), ready s →
    (1 < n → n ≤ 1500 → ∃ p : Bytes, p.length = n ∧
      exec (.payGen n) s =
        .next { s with draws := s.draws + n, ended := s.ended ++ [.completed (.bytes p)] }) ∧
    ((n ≤ 1 ∨ 1500 < n) → exec (.payGen n) s = .next (s.raise (excActual .payLen n)))

/-! ## Ethernet -/

/-- ETH.ENC with operands in bounds completes with a frame of the operands and a payload of the length
asked for (R111). The payload is the free values of log 8.
Rests on the spec's own decisions D7, D29, D36 (92_eei_decisions.md); log 8. -/
def Obligations.EthEncCompletes : Prop :=
  ∀ (dst src : MacAddr) (prio length etype : Nat) (tag : Option TagArg) (s : State), ready s →
    prio < 8 → 1 < length → length ≤ 1500 → etype < 65536 → etype ≠ 0x8100 →
    (∀ t, tag = some t → t.vid < 4096) →
      ∃ f : EthFrame,
        exec (.ethEnc dst src prio length etype tag) s =
          .next { s with draws := s.draws + length,
                         ended := s.ended ++ [.completed (.ethFrame f)] } ∧
        f.dst = dst ∧ f.src = src ∧ f.prio.toNat = prio ∧ f.etype.toNat = etype ∧
        f.payload.length = length ∧ (tag = none → f.tag = none) ∧
        (∀ t, tag = some t → ∃ t', f.tag = some t' ∧ t'.cfi = t.cfi ∧ t'.vid.toNat = t.vid)

/-- ETH.ENC's checks, in the order of its pseudocode: the first that fails gives the cause
(R111, R207).
Rests on the spec's own decisions D32, D36 (92_eei_decisions.md). -/
def Obligations.EthEncFaults : Prop :=
  ∀ (dst src : MacAddr) (prio length etype : Nat) (tag : Option TagArg) (s : State), ready s →
    (8 ≤ prio →
      exec (.ethEnc dst src prio length etype tag) s = .next (s.raise (excActual .prio prio))) ∧
    (prio < 8 → (length ≤ 1 ∨ 1500 < length) →
      exec (.ethEnc dst src prio length etype tag) s = .next (s.raise (excActual .payLen length))) ∧
    (prio < 8 → 1 < length → length ≤ 1500 → (65536 ≤ etype ∨ etype = 0x8100) →
      exec (.ethEnc dst src prio length etype tag) s = .next (s.raise (excActual .etype etype))) ∧
    (prio < 8 → 1 < length → length ≤ 1500 → etype < 65536 → etype ≠ 0x8100 →
      ∀ t, tag = some t → 4096 ≤ t.vid →
        exec (.ethEnc dst src prio length etype tag) s = .next (s.raise (excActual .vlanId t.vid)))

/-- The Ethernet frame on the wire: every field at its offset, untagged and tagged; the payload is
everything after the header; and a decoder tells the form by the 16 bits at offset 12 (R67; the byte
order is the spec's decision D2, R42). -/
def Obligations.EthernetFrameLayout : Prop :=
  (∀ f : EthFrame, slice (ethWire f) 0 6 = addrBytes f.dst ∧ slice (ethWire f) 6 6 = addrBytes f.src) ∧
  (∀ f : EthFrame, f.tag = none →
    (ethWire f).length = 14 + f.payload.length ∧ slice (ethWire f) 12 2 = be16 f.etype ∧
      (ethWire f).drop 14 = f.payload) ∧
  (∀ (f : EthFrame) (t : Tag), f.tag = some t →
    (ethWire f).length = 18 + f.payload.length ∧ slice (ethWire f) 12 2 = [0x81#8, 0x00#8] ∧
      slice (ethWire f) 14 2 = be16 (tci f.prio t.cfi t.vid) ∧ slice (ethWire f) 16 2 = be16 f.etype ∧
      (ethWire f).drop 18 = f.payload) ∧
  (∀ (b : Bytes) (d : EthDecoded), ethDec b = .ok d →
    (d.dot1q = true ↔ rdBE16 b 12 = 0x8100#16) ∧ (d.dot1q = false → d.etype = rdBE16 b 12))

/-- A tagged frame's tag control word carries the frame's priority, the tag's CFI and the tag's VLAN id
(R112). -/
def Obligations.TaggedFrameCarriesPriority : Prop :=
  ∀ (f : EthFrame) (t : Tag), f.tag = some t →
    rdBE16 (ethWire f) 14 = tci f.prio t.cfi t.vid ∧
    tciPrio (rdBE16 (ethWire f) 14) = f.prio ∧ tciCfi (rdBE16 (ethWire f) 14) = t.cfi ∧
      tciVid (rdBE16 (ethWire f) 14) = t.vid

/-- ETH.DEC completes on every byte sequence and never faults: not ok below 14 bytes, or below 18 with
0x8100 at offset 12; else the fields at their offsets (R113, R114, R115).
Rests on the spec's own decisions D8, D10 (92_eei_decisions.md); log 11. -/
def Obligations.EthDecResult : Prop :=
  ∀ (b : Bytes) (s : State), ready s → ∃ d,
    exec (.ethDec b) s = .next { s with ended := s.ended ++ [.completed (.ethDecoded d)] } ∧
    (b.length < 14 → d = .notOk) ∧
    (14 ≤ b.length → rdBE16 b 12 = 0x8100#16 → b.length < 18 → d = .notOk) ∧
    (18 ≤ b.length → rdBE16 b 12 = 0x8100#16 →
      d = .ok ⟨addrAt b 0, addrAt b 6, true, tciPrio (rdBE16 b 14), tciCfi (rdBE16 b 14),
               tciVid (rdBE16 b 14), rdBE16 b 16, b.drop 18⟩) ∧
    (14 ≤ b.length → rdBE16 b 12 ≠ 0x8100#16 →
      d = .ok ⟨addrAt b 0, addrAt b 6, false, 0#3, false, 0#12, rdBE16 b 12, b.drop 14⟩)

/-- Ethernet round trip (R116): decoding the wire of any frame ETH.ENC returned gives its addresses,
ethertype, payload and tag back; an untagged frame's priority is not on the wire.
Rests on log 8. -/
def Obligations.EthernetRoundTrip : Prop :=
  ∀ (dst src : MacAddr) (prio length etype : Nat) (tag : Option TagArg) (s t s' : State)
    (f : EthFrame),
    exec (.ethEnc dst src prio length etype tag) s = .next t →
    t.ended = s.ended ++ [.completed (.ethFrame f)] → ready s' →
      ∃ d : EthDecoded,
        exec (.ethDec (ethWire f)) s' =
          .next { s' with ended := s'.ended ++ [.completed (.ethDecoded (.ok d))] } ∧
        d.dst = f.dst ∧ d.src = f.src ∧ d.etype = f.etype ∧ d.payload = f.payload ∧
        d.dot1q = f.tag.isSome ∧
        ∀ g, f.tag = some g → d.prio = f.prio ∧ d.cfi = g.cfi ∧ d.vid = g.vid

/-! ## LLC/SNAP -/

/-- The tag control word: priority in bits 15 to 13, CFI in bit 12, VLAN id in bits 11 to 0; packing and
unpacking are inverse, both codecs put this word on the wire, and the rule's example (R66). -/
def Obligations.TciPacking : Prop :=
  (∀ (p : BitVec 3) (c : Bool) (v : BitVec 12),
    (tci p c v).toNat = p.toNat * 2 ^ 13 + c.toNat * 2 ^ 12 + v.toNat ∧
    tciPrio (tci p c v) = p ∧ tciCfi (tci p c v) = c ∧ tciVid (tci p c v) = v) ∧
  (∀ t : U16, (tciPrio t).toNat = t.toNat / 2 ^ 13 ∧ (tciCfi t).toNat = t.toNat / 2 ^ 12 % 2 ∧
    (tciVid t).toNat = t.toNat % 2 ^ 12 ∧ tci (tciPrio t) (tciCfi t) (tciVid t) = t) ∧
  (∀ (f : EthFrame) (g : Tag), f.tag = some g →
    slice (ethWire f) 14 2 = be16 (tci f.prio g.cfi g.vid)) ∧
  (∀ (payload : Bytes) (etype : U16) (p : BitVec 3) (g : Tag),
    slice (llcFrame payload etype (some (p, g))) 8 2 = be16 (tci p g.cfi g.vid)) ∧
  tci 3#3 false 0x100#12 = 0x6100#16

/-- LLC.ENC completes with the untagged or the tagged form: the fixed header, the ethertype and the
payload at their offsets, the bytes before the payload 8 or 18 (R68, R69, R121).
Rests on the spec's own decisions D36, D37 (92_eei_decisions.md). -/
def Obligations.LlcEncCompletes : Prop :=
  ∀ (payload : Bytes) (etype : Nat) (s : State), ready s → etype < 65536 → etype ≠ 0x8100 →
    exec (.llcEnc payload etype none) s =
      .next { s with ended := s.ended ++ [.completed (.bytes
        ([0xAA#8, 0xAA#8, 0x03#8, 0x00#8, 0x00#8, 0x00#8] ++ be16 (BitVec.ofNat 16 etype) ++
          payload))] } ∧
    ∀ q : Dot1qArg, q.prio < 8 → q.vid < 4096 →
      exec (.llcEnc payload etype (some q)) s =
        .next { s with ended := s.ended ++ [.completed (.bytes
          ([0xAA#8, 0xAA#8, 0x03#8, 0x00#8, 0x00#8, 0x00#8, 0x81#8, 0x00#8] ++
            be16 (BitVec.ofNat 16 (q.prio * 2 ^ 13 + q.cfi.toNat * 2 ^ 12 + q.vid)) ++
            [0xAA#8, 0xAA#8, 0x03#8, 0x00#8, 0x00#8, 0x00#8] ++ be16 (BitVec.ofNat 16 etype) ++
            payload))] }

/-- LLC.ENC's checks, in order: ethertype, priority, VLAN id (R121, R207).
Rests on the spec's own decisions D32, D36 (92_eei_decisions.md). -/
def Obligations.LlcEncFaults : Prop :=
  ∀ (payload : Bytes) (etype : Nat) (q : Option Dot1qArg) (s : State), ready s →
    ((65536 ≤ etype ∨ etype = 0x8100) →
      exec (.llcEnc payload etype q) s = .next (s.raise (excActual .etype etype))) ∧
    (etype < 65536 → etype ≠ 0x8100 → ∀ t, q = some t → 8 ≤ t.prio →
      exec (.llcEnc payload etype q) s = .next (s.raise (excActual .prio t.prio))) ∧
    (etype < 65536 → etype ≠ 0x8100 → ∀ t, q = some t → t.prio < 8 → 4096 ≤ t.vid →
      exec (.llcEnc payload etype q) s = .next (s.raise (excActual .vlanId t.vid)))

/-- LLC.DEC completes on every byte sequence and never faults: not ok below 8 bytes, below 18 in the
tagged branch, or where a fixed header differs; else the fields at their offsets
(R123, R124, R125).
Rests on the spec's own decisions D8, D9, D10 (92_eei_decisions.md); log 11. -/
def Obligations.LlcDecResult : Prop :=
  ∀ (b : Bytes) (s : State), ready s → ∃ d,
    exec (.llcDec b) s = .next { s with ended := s.ended ++ [.completed (.llcDecoded d)] } ∧
    (b.length < 8 → d = .notOk) ∧
    (slice b 0 6 ≠ [0xAA#8, 0xAA#8, 0x03#8, 0x00#8, 0x00#8, 0x00#8] → d = .notOk) ∧
    (8 ≤ b.length → rdBE16 b 6 = 0x8100#16 →
      (b.length < 18 ∨ slice b 10 6 ≠ [0xAA#8, 0xAA#8, 0x03#8, 0x00#8, 0x00#8, 0x00#8]) →
        d = .notOk) ∧
    (18 ≤ b.length → slice b 0 6 = [0xAA#8, 0xAA#8, 0x03#8, 0x00#8, 0x00#8, 0x00#8] →
      rdBE16 b 6 = 0x8100#16 → slice b 10 6 = [0xAA#8, 0xAA#8, 0x03#8, 0x00#8, 0x00#8, 0x00#8] →
        d = .ok ⟨true, tciPrio (rdBE16 b 8), tciCfi (rdBE16 b 8), tciVid (rdBE16 b 8), rdBE16 b 16,
                 b.drop 18⟩) ∧
    (8 ≤ b.length → slice b 0 6 = [0xAA#8, 0xAA#8, 0x03#8, 0x00#8, 0x00#8, 0x00#8] →
      rdBE16 b 6 ≠ 0x8100#16 → d = .ok ⟨false, 0#3, false, 0#12, rdBE16 b 6, b.drop 8⟩)

/-- LLC/SNAP round trip (R126): decoding what LLC.ENC returned gives the payload, ethertype and 802.1Q
option back. -/
def Obligations.LlcRoundTrip : Prop :=
  ∀ (payload : Bytes) (etype : Nat) (q : Option Dot1qArg) (s t s' : State) (w : Bytes),
    exec (.llcEnc payload etype q) s = .next t →
    t.ended = s.ended ++ [.completed (.bytes w)] → ready s' →
      ∃ d : LlcDecoded,
        exec (.llcDec w) s' =
          .next { s' with ended := s'.ended ++ [.completed (.llcDecoded (.ok d))] } ∧
        d.payload = payload ∧ d.etype.toNat = etype ∧ d.dot1q = q.isSome ∧
        ∀ g, q = some g → d.prio.toNat = g.prio ∧ d.cfi = g.cfi ∧ d.vid.toNat = g.vid

/-! ## Frame control -/

/-- FC.PACK returns the type+subtype byte plus each flag times its power of two, and faults with
E_TYPESUBTYPE on a byte that is not defined (R131).
Rests on the spec's own decisions D5, D6 (92_eei_decisions.md). -/
def Obligations.FcPackResult : Prop :=
  ∀ (ts : Nat) (f : FcFlags) (s : State), ready s →
    (ts < 256 → tsDefined (BitVec.ofNat 8 ts) = true →
      exec (.fcPack ts f) s =
        .next { s with ended := s.ended ++ [.completed (.word (BitVec.ofNat 16
          (ts + f.toDs.toNat * 2 ^ 8 + f.fromDs.toNat * 2 ^ 9 + f.moreFrag.toNat * 2 ^ 10 +
            f.retry.toNat * 2 ^ 11 + f.pwrMgmt.toNat * 2 ^ 12 + f.moreData.toNat * 2 ^ 13 +
            f.prot.toNat * 2 ^ 14 + f.order.toNat * 2 ^ 15)))] }) ∧
    ((256 ≤ ts ∨ tsDefined (BitVec.ofNat 8 ts) = false) →
      exec (.fcPack ts f) s = .next (s.raise (excActual .typeSubtype ts)))

/-- FC.UNPACK returns type, subtype, the low byte and the eight flags, each from its bits of the word,
and faults with E_TYPESUBTYPE where the low byte is not defined, which it is not where its two version
bits are not 0; with its encoding and the rule's example (R133). -/
def Obligations.FcUnpackResult : Prop :=
  (∀ (v : U16) (s : State), ready s →
    (tsDefined (v.extractLsb' 0 8) = true →
      exec (.fcUnpack v) s =
        .next { s with ended := s.ended ++ [.completed (.fcFields
          { ty := v.extractLsb' 2 2, subtype := v.extractLsb' 4 4, ts := v.extractLsb' 0 8,
            flags := { toDs := v.getLsbD 8, fromDs := v.getLsbD 9, moreFrag := v.getLsbD 10,
                       retry := v.getLsbD 11, pwrMgmt := v.getLsbD 12, moreData := v.getLsbD 13,
                       prot := v.getLsbD 14, order := v.getLsbD 15 } })] }) ∧
    (tsDefined (v.extractLsb' 0 8) = false →
      exec (.fcUnpack v) s =
        .next (s.raise (excActual .typeSubtype (v.extractLsb' 0 8).toNat)))) ∧
  (∀ v : U16, encode (.fcUnpack v) = ⟨0x31#8, .word v⟩) ∧
  (∀ v : U16, v.extractLsb' 0 2 ≠ 0#2 → tsDefined (v.extractLsb' 0 8) = false) ∧
  (∀ s : State, ready s → exec (.fcUnpack 0x0188#16) s =
    .next { s with ended := s.ended ++ [.completed (.fcFields
      ⟨2#2, 8#4, 0x88#8, { toDs := true }⟩)] })

/-- Frame-control round trip, both ways, for every defined type+subtype byte and all 256 flag
combinations (R135, C2). -/
def Obligations.FrameControlRoundTrip : Prop :=
  (∀ (ts : Byte) (f : FcFlags), tsDefined ts = true →
    ∃ v, fcPack ts.toNat f = .ok v ∧ fcUnpack v = .ok ⟨tsType ts, tsSubtype ts, ts, f⟩) ∧
  (∀ (v : U16) (u : FcFields), fcUnpack v = .ok u → fcPack u.ts.toNat u.flags = .ok v)

/-! ## MPDU builder -/

/-- The address table: which address goes in which slot, for the four data rows and the management row;
any other defined frame type faults with E_FRAMETYPE (R143). -/
def Obligations.AddressSelection : Prop :=
  ∀ (body : Bytes) (bssid : MacAddr) (cfg : BuildCfg) (s : State), ready s →
    tsDefined cfg.ts = true → body.length ≤ 4294967295 →
    let built := fun a : Addrs =>
      ∃ m : MpduRx, m.addrs = a ∧
        exec (.mpduBuild body bssid cfg) s =
          .next { s with ended := s.ended ++ [.completed (.mpdu m)] }
    (isData cfg.ts = true → cfg.toDs = false → cfg.fromDs = false →
      built ⟨cfg.dst, cfg.src, bssid, none⟩) ∧
    (isData cfg.ts = true → cfg.toDs = false → cfg.fromDs = true →
      built ⟨cfg.dst, bssid, cfg.src, none⟩) ∧
    (isData cfg.ts = true → cfg.toDs = true → cfg.fromDs = false →
      built ⟨bssid, cfg.src, cfg.dst, none⟩) ∧
    (∀ ra ta, isData cfg.ts = true → cfg.toDs = true → cfg.fromDs = true →
      cfg.ra = some ra → cfg.ta = some ta → built ⟨ra, ta, cfg.dst, some cfg.src⟩) ∧
    (isMgmt cfg.ts = true → built ⟨cfg.dst, cfg.src, bssid, none⟩) ∧
    (isData cfg.ts = false → isMgmt cfg.ts = false →
      exec (.mpduBuild body bssid cfg) s =
        .next (s.raise (excActual .frameType cfg.ts.toNat)))

/-- MPDU.BUILD completes where its four checks pass, with an object that keeps every field of the
configuration, the BSSID and the body, and packs the frame-control word from them (R141).
Rests on the spec's own decisions D13, D31, D34, D35 (92_eei_decisions.md). -/
def Obligations.MpduBuildCompletes : Prop :=
  ∀ (body : Bytes) (bssid : MacAddr) (cfg : BuildCfg) (s : State), ready s →
    tsDefined cfg.ts = true → (isData cfg.ts = true ∨ isMgmt cfg.ts = true) →
    (isData cfg.ts = true → cfg.toDs = true → cfg.fromDs = true →
      cfg.ra.isSome = true ∧ cfg.ta.isSome = true) →
    body.length ≤ 4294967295 →
      ∃ m : MpduRx,
        exec (.mpduBuild body bssid cfg) s =
          .next { s with ended := s.ended ++ [.completed (.mpdu m)] } ∧
        m.cfg = cfg ∧ m.bssid = bssid ∧ m.body = body ∧ m.fc = fcPackWord cfg.ts cfg.flags ∧
        m.wf = true

/-- MPDU.BUILD's checks, in order: undefined byte, unsupported type, missing receiver or transmitter
address of a data frame with both DS flags, body too long (R141, R207).
Rests on the spec's own decisions D13, D31, D32 (92_eei_decisions.md). -/
def Obligations.MpduBuildFaults : Prop :=
  ∀ (body : Bytes) (bssid : MacAddr) (cfg : BuildCfg) (s : State), ready s →
    (tsDefined cfg.ts = false → exec (.mpduBuild body bssid cfg) s =
      .next (s.raise (excActual .typeSubtype cfg.ts.toNat))) ∧
    (tsDefined cfg.ts = true → isData cfg.ts = false → isMgmt cfg.ts = false →
      exec (.mpduBuild body bssid cfg) s =
        .next (s.raise (excActual .frameType cfg.ts.toNat))) ∧
    (tsDefined cfg.ts = true → isData cfg.ts = true → cfg.toDs = true →
      cfg.fromDs = true → (cfg.ra = none ∨ cfg.ta = none) →
        exec (.mpduBuild body bssid cfg) s = .next (s.raise (excPlain .rata))) ∧
    (tsDefined cfg.ts = true → (isData cfg.ts = true ∨ isMgmt cfg.ts = true) →
      (isData cfg.ts = true → cfg.toDs = true → cfg.fromDs = true →
        cfg.ra.isSome = true ∧ cfg.ta.isSome = true) →
      4294967295 < body.length →
        exec (.mpduBuild body bssid cfg) s =
          .next (s.raise (excActual .bodyLen body.length)))

/-- The RX record: the length and every field of a built MPDU's record at its offset, for any body
(R76, R77, R145; the layout is the spec's parameter `RXL`, D11).
Rests on the spec's own decisions D11, D3 (92_eei_decisions.md); log 12, 14. -/
def Obligations.RxRecordLayout : Prop :=
  ∀ m : MpduRx, let P := pad4 m.body.length; let L := m.body.length
    (ser m).length = 108 + P ∧
    slice (ser m) 0 8 = zeros 8 ∧ slice (ser m) 8 2 = le16 m.fc ∧ slice (ser m) 10 2 = zeros 2 ∧
    slice (ser m) 12 6 = addrBytes m.addrs.addr1 ∧ slice (ser m) 18 6 = addrBytes m.addrs.addr2 ∧
    slice (ser m) 24 6 = addrBytes m.addrs.addr3 ∧
    (∀ a, m.addrs.addr4 = some a → slice (ser m) 30 6 = addrBytes a) ∧
    (m.addrs.addr4 = none → slice (ser m) 30 6 = zeros 6) ∧
    slice (ser m) 36 2 = le16 m.cfg.sc ∧ slice (ser m) 38 14 = zeros 14 ∧
    slice (ser m) 52 L = m.body ∧ slice (ser m) (52 + L) (P - L) = zeros (P - L) ∧
    slice (ser m) (52 + P) 16 = zeros 16 ∧
    slice (ser m) (68 + P) 4 = le32 (BitVec.ofNat 32 L) ∧ slice (ser m) (72 + P) 36 = zeros 36

/-- MPDU.RETRY of an MPDU whose retry flag is 0 completes: the flag is set, every other field stays, and
the rebuilt record differs from the old one in bit 3 of the byte at offset 9 only (R147); on an MPDU
whose retry flag is 1 it faults with E_RETRY_TWICE (D14).
Rests on the spec's own decision D14 (92_eei_decisions.md); log 14. -/
def Obligations.MpduRetryResult : Prop :=
  ∀ (m : MpduRx) (s : State), ready s →
    (m.wf = true → m.cfg.retry = false → ∃ m' : MpduRx,
      exec (.mpduRetry m) s = .next { s with ended := s.ended ++ [.completed (.mpdu m')] } ∧
      m'.cfg = { m.cfg with retry := true } ∧ m'.bssid = m.bssid ∧
      m'.body = m.body ∧ m'.addrs = m.addrs ∧ m'.wf = true ∧ (ser m').length = (ser m).length ∧
      (∀ k, k ≠ 9 → byteAt (ser m') k = byteAt (ser m) k) ∧
      byteAt (ser m') 9 = byteAt (ser m) 9 ||| 0x08#8 ∧ byteAt (ser m) 9 &&& 0x08#8 = 0#8) ∧
    (m.cfg.retry = true → exec (.mpduRetry m) s = .next (s.raise (excPlain .retryTwice)))

/-! ## Counters and fragmentation -/

/-- The sequence-control word: `SCW(seq, frag) = seq * 16 + frag`, its two fields, the two bytes it is on
a wire, and the rule's example (R74). That a record carries it at offset 36 is R76's layout.
Rests on the spec's own decisions D3, D11 (92_eei_decisions.md); log 12. -/
def Obligations.SequenceControlWord : Prop :=
  (∀ (q : BitVec 12) (f : BitVec 4), (scw q f).toNat = q.toNat * 16 + f.toNat ∧
    scSeq (scw q f) = q ∧ scFrag (scw q f) = f) ∧
  (∀ v : U16, (scSeq v).toNat = v.toNat / 16 ∧ (scFrag v).toNat = v.toNat % 16 ∧
    scw (scSeq v) (scFrag v) = v) ∧
  (∀ m : MpduRx, slice (ser m) 36 2 = le16 m.cfg.sc) ∧
  scw 1#12 2#4 = 0x0012#16 ∧ le16 (scw 1#12 2#4) = [0x12#8, 0x00#8]

/-- SEQ.RESET completes for every source, dirty or not, and leaves its counter at 0x0000 and clean
(R156); an index that is no source faults with E_ROLE.
Rests on the spec's own decisions D15, D27 (92_eei_decisions.md). -/
def Obligations.SeqResetResult : Prop :=
  ∀ (r : Nat) (s : State), ready s →
    (∀ role, roleOf r = some role → exec (.seqReset r) s =
      .next { s with counters := s.counters.set role ⟨0x0000#16, false⟩,
                     ended := s.ended ++ [.completed .unit] }) ∧
    (2 ≤ r → exec (.seqReset r) s = .next (s.raise (excActual .role r)))

/-- SEQ.MSDU completes on a clean counter: the sequence number goes up by one modulo 4096 and the fragment
number becomes 0 (R155, R157); it faults with E_ROLE, then E_SC_DIRTY.
Rests on the spec's own decision D15 (92_eei_decisions.md). -/
def Obligations.SeqMsduResult : Prop :=
  ∀ (r : Nat) (s : State), ready s →
    (∀ role, roleOf r = some role → s.dirty role = false →
      let w := BitVec.ofNat 16 (((s.sc role).toNat / 16 + 1) % 4096 * 16)
      exec (.seqMsdu r) s =
        .next { s with counters := s.counters.set role ⟨w, false⟩,
                       ended := s.ended ++ [.completed (.word w)] }) ∧
    (∀ role, roleOf r = some role → s.dirty role = true →
      exec (.seqMsdu r) s = .next (s.raise (excActual .scDirty r))) ∧
    (2 ≤ r → exec (.seqMsdu r) s = .next (s.raise (excActual .role r)))

/-- SEQ.FRAG completes on a clean counter whose fragment number is below 15: the fragment number goes up
by one and the sequence number stays (R155, R158); it faults with E_ROLE, E_SC_DIRTY, E_FRAGCOUNT.
Rests on the spec's own decision D16 (92_eei_decisions.md). -/
def Obligations.SeqFragResult : Prop :=
  ∀ (r : Nat) (s : State), ready s →
    (∀ role, roleOf r = some role → s.dirty role = false → (s.sc role).toNat % 16 < 15 →
      ∃ w : U16, scSeq w = scSeq (s.sc role) ∧
        (scFrag w).toNat = (scFrag (s.sc role)).toNat + 1 ∧
        exec (.seqFrag r) s =
          .next { s with counters := s.counters.set role ⟨w, false⟩,
                         ended := s.ended ++ [.completed (.word w)] }) ∧
    (∀ role, roleOf r = some role → s.dirty role = true →
      exec (.seqFrag r) s = .next (s.raise (excActual .scDirty r))) ∧
    (∀ role, roleOf r = some role → s.dirty role = false → (s.sc role).toNat % 16 = 15 →
      exec (.seqFrag r) s = .next (s.raise (excActual .fragCount 17))) ∧
    (2 ≤ r → exec (.seqFrag r) s = .next (s.raise (excActual .role r)))

/-- The checks of FRAG.SEND and of its spellings MPDU.SEND and FRAG.SENDSC, in order (R63, R160, R207);
a count above 16 faults with E_FRAGCOUNT before anything is emitted (R163).
Rests on the spec's own decisions D1, D16, D17, D18, D32 (92_eei_decisions.md); log 16. -/
def Obligations.FragSendFaults : Prop :=
  ∀ (i : Instr) (r : Nat) (frame : EthFrame) (bssid : MacAddr) (size : Nat) (opt : FragOpt)
    (ov : Option U16) (s : State), i.expand = .fragSend r frame bssid size opt ov → ready s →
    let run := exec i s
    let n := fragCount frame size
    (2 ≤ r → run = .next (s.raise (excActual .role r))) ∧
    ∀ role, roleOf r = some role →
      (size = 0 → run = .next (s.raise (excPlain .fragSize))) ∧
      (0 < size → tsDefined opt.ts = false →
        run = .next (s.raise (excActual .typeSubtype opt.ts.toNat))) ∧
      (0 < size → tsDefined opt.ts = true → isData opt.ts = false →
        run = .next (s.raise (excActual .frameType opt.ts.toNat))) ∧
      (0 < size → tsDefined opt.ts = true → isData opt.ts = true → opt.toDs = true →
        opt.fromDs = true → (opt.ra = none ∨ opt.ta = none) → run = .next (s.raise (excPlain .rata))) ∧
      (0 < size → optOk opt → ov = none → s.dirty role = true →
        run = .next (s.raise (excActual .scDirty r))) ∧
      (0 < size → optOk opt → ov = none → s.dirty role = false → 16 < n →
        run = .next (s.raise (excActual .fragCount n))) ∧
      (0 < size → optOk opt → ∀ w0, ov = some w0 → 16 < (scFrag w0).toNat + n →
        run = .next (s.raise (excActual .fragCount ((scFrag w0).toNat + n))))

/-- FRAG.SEND with the internal counter completes (R160, R166): a chain of `ceil(L / S)` fragments under
the next sequence number, fragment numbers from 0, their records appended to `TXQ` in order, and the
counter left at the last fragment's sequence control, clean.
Rests on the spec's own decisions D15, D16, D18 (92_eei_decisions.md); log 15. -/
def Obligations.FragSendCompletes : Prop :=
  ∀ (r : Nat) (role : Role) (frame : EthFrame) (bssid : MacAddr) (size : Nat) (opt : FragOpt)
    (s : State), ready s → roleOf r = some role → frame.wf = true → 0 < size → optOk opt →
    s.dirty role = false → fragCount frame size ≤ 16 →
      ∃ out : List MpduRx,
        exec (.fragSend r frame bssid size opt none) s =
          .next { s with
            counters := s.counters.set role
              ⟨scw (scSeq (s.sc role) + 1#12) (BitVec.ofNat 4 (fragCount frame size - 1)), false⟩
            txq := s.txq ++ out.map ser
            ended := s.ended ++ [.completed (.mpdus out)] } ∧
        isFragChain frame bssid size opt (scSeq (s.sc role) + 1#12) 0 out

/-- FRAG.SEND with an override completes, on a dirty counter too (R164): a chain that counts up from the
override's own sequence control, and no counter touched. So does its spelling FRAG.SENDSC (R63).
Rests on the spec's own decisions D17, D18 (92_eei_decisions.md); log 15, 16. -/
def Obligations.FragSendOverrideCompletes : Prop :=
  ∀ (r : Nat) (role : Role) (frame : EthFrame) (bssid : MacAddr) (size : Nat) (opt : FragOpt)
    (w0 : U16) (i : Instr) (s : State), ready s → roleOf r = some role → frame.wf = true →
    0 < size → optOk opt → (scFrag w0).toNat + fragCount frame size ≤ 16 →
    (i = .fragSend r frame bssid size opt (some w0) ∨ i = .fragSendsc r frame bssid size opt w0) →
      ∃ out : List MpduRx,
        exec i s =
          .next { s with
            txq := s.txq ++ out.map ser
            ended := s.ended ++ [.completed (.mpdus out)] } ∧
        isFragChain frame bssid size opt (scSeq w0) (scFrag w0).toNat out

/-- MPDU.SEND completes with exactly one MPDU, which carries the whole LLC/SNAP body with more-fragments
clear and fragment number 0 under the next sequence number (R63, R165), and is the chain FRAG.SEND
makes with `S = L`: the frame's addresses, the BSSID and every option passed through (R160, R166).
Rests on the spec's own decisions D1, D15, D18 (92_eei_decisions.md); log 16. -/
def Obligations.MpduSendCompletes : Prop :=
  ∀ (r : Nat) (role : Role) (frame : EthFrame) (bssid : MacAddr) (opt : FragOpt) (s : State),
    ready s → roleOf r = some role → frame.wf = true → optOk opt → s.dirty role = false →
      ∃ m : MpduRx,
        exec (.mpduSend r frame bssid opt) s =
          .next { s with
            counters := s.counters.set role ⟨scw (scSeq (s.sc role) + 1#12) 0#4, false⟩
            txq := s.txq ++ [ser m]
            ended := s.ended ++ [.completed (.mpdus [m])] } ∧
        m.body = llcBody frame ∧ m.cfg.moreFrag = false ∧ m.wf = true ∧
        m.cfg.sc = scw (scSeq (s.sc role) + 1#12) 0#4 ∧
        isFragChain frame bssid (llcBody frame).length opt (scSeq (s.sc role) + 1#12) 0 [m]

/-- The chunks of a completed FRAG.SEND (R162): every chunk but the last is S bytes and the last
`L - (n-1)*S`, between 1 and S; MPDU i carries `SCW(seq, f0 + i)`; the records go to `TXQ` in fragment
order; and with the internal counter `SC[r]` is left at `SCW(seq, n - 1)`. The sequence number and
`f0` are the next sequence number and 0 (R157), under an override the override's own two (R164).
Rests on the spec's own decisions D15, D17 (92_eei_decisions.md). -/
def Obligations.FragmentLoopChunks : Prop :=
  ∀ (r : Nat) (role : Role) (frame : EthFrame) (bssid : MacAddr) (size : Nat) (opt : FragOpt)
    (ov : Option U16) (s t : State) (out : List MpduRx), frame.wf = true → roleOf r = some role →
    exec (.fragSend r frame bssid size opt ov) s = .next t →
    t.ended = s.ended ++ [.completed (.mpdus out)] →
      let L := (llcBody frame).length
      let n := out.length
      let w := ov.getD (scw (scSeq (s.sc role) + 1#12) 0#4)
      0 < n ∧
      (∀ i m, out[i]? = some m →
        m.body = ((llcBody frame).drop (i * size)).take (min ((i + 1) * size) L - i * size) ∧
        (i + 1 < n → m.body.length = size) ∧
        (i + 1 = n → m.body.length = L - (n - 1) * size ∧ 1 ≤ m.body.length ∧
          m.body.length ≤ size) ∧
        m.cfg.sc = scw (scSeq w) (BitVec.ofNat 4 ((scFrag w).toNat + i)) ∧
        (scFrag w).toNat + i < 16) ∧
      t.txq = s.txq ++ out.map ser ∧
      (ov = none → t.sc role = scw (scSeq w) (BitVec.ofNat 4 (n - 1)))

/-- The sequence number advances exactly once per MSDU (R167): the MPDUs of two successive FRAG.SENDs on
a source, whatever happened to other sources between them, differ by one sequence number. -/
def Obligations.SequenceAdvancesOncePerMsdu : Prop :=
  ∀ (r : Nat) (role : Role) (f1 f2 : EthFrame) (b1 b2 : MacAddr) (z1 z2 : Nat) (o1 o2 : FragOpt)
    (s t s' t' : State) (out1 out2 : List MpduRx),
    f1.wf = true → f2.wf = true → roleOf r = some role →
    exec (.fragSend r f1 b1 z1 o1 none) s = .next t →
    t.ended = s.ended ++ [.completed (.mpdus out1)] →
    s'.sc role = t.sc role →
    exec (.fragSend r f2 b2 z2 o2 none) s' = .next t' →
    t'.ended = s'.ended ++ [.completed (.mpdus out2)] →
      ∀ m1 ∈ out1, ∀ m2 ∈ out2, scSeq m2.cfg.sc = scSeq m1.cfg.sc + 1#12

/-! ## MPDU parser -/

/-- MPDU.THLEN: its encoding; the sum of the terms, each under exactly its own condition; E_TYPESUBTYPE on
an undefined byte; the extended-IV operand ignored where the frame is not protected; the header alone between 10 and
44 bytes, with the words that reach the bounds; and the source's example (R178). -/
def Obligations.TheoreticalLength : Prop :=
  (∀ (v : U16) (extIv : Bool) (n : Nat) (s : State), ready s →
    let ts := v.extractLsb' 0 8
    let one := fun c : Bool => if c then 1 else 0
    (tsDefined ts = true →
      exec (.mpduThlen v extIv n) s =
        .next { s with ended := s.ended ++ [.completed (.nat
          (10
            + 6 * one (isData ts || isMgmt ts || isRts ts || isPsPoll ts || isCfEnd ts || isBa ts ||
                isBar ts)
            + 6 * one (isData ts || isMgmt ts)
            + 2 * one (isData ts)
            + 6 * one (v.getLsbD 8 && v.getLsbD 9)
            + 2 * one (isQosData ts)
            + 2 * one (isCtrlWrapper ts)
            + 4 * one (isCtrlWrapper ts || v.getLsbD 15)
            + 4 * one (v.getLsbD 14)
            + 4 * one (v.getLsbD 14 && extIv)
            + n))] }) ∧
    (tsDefined ts = false →
      exec (.mpduThlen v extIv n) s = .next (s.raise (excActual .typeSubtype ts.toNat)))) ∧
  (∀ (v : U16) (extIv : Bool) (n : Nat),
    encode (.mpduThlen v extIv n) = ⟨0x61#8, .mpduThlen v extIv n⟩) ∧
  (∀ (v : U16) (n : Nat), v.getLsbD 14 = false → thlen v true n = thlen v false n) ∧
  (∀ (v : U16) (extIv : Bool), tsDefined (v.extractLsb' 0 8) = true →
    10 ≤ thlen v extIv 0 ∧ thlen v extIv 0 ≤ 44) ∧
  thlen 0x00C4#16 false 0 = 10 ∧ thlen 0x00D4#16 false 0 = 10 ∧ thlen 0xC388#16 true 0 = 44 ∧
  thlen 0x0188#16 false 100 = 126

/-- MPDU.PARSE on a record too short for its prefix and fixed header is not ok, whatever its bytes; with a
defined length and an undefined type+subtype byte it faults (R176).
Rests on the spec's own decisions D23, D32 (92_eei_decisions.md). -/
def Obligations.ParseShortOrUndefined : Prop :=
  ∀ (rec : Bytes) (s : State), ready s →
    (rec.length < 42 → exec (.mpduParse rec) s =
      .next { s with ended := s.ended ++ [.completed (.parsed .notOk)] }) ∧
    (42 ≤ rec.length → tsDefined (byteAt rec 32) = false → exec (.mpduParse rec) s =
      .next (s.raise (excActual .typeSubtype (byteAt rec 32).toNat)))

/-- MPDU.PARSE completes on every record that is long enough for its prefix and has a defined
type+subtype byte (R176): with an unprotected frame it is ok exactly where the record holds the header
its frame control calls for, and the body is every byte after it; with a protected frame the extended
IV, where bit 5 of the IV word says there is one, is part of that header (R83).
Rests on the spec's own decisions D19, D20, D21, D23 (92_eei_decisions.md); log 11, 12. -/
def Obligations.ParseCompletes : Prop :=
  ∀ (rec : Bytes) (s : State), ready s → 42 ≤ rec.length → tsDefined (byteAt rec 32) = true →
    let fcw := rdLE16 rec 32
    let h0 := thlen fcw false 0
    let ext := fcw.getLsbD 14 && (rdLE32 rec (32 + h0 - 4)).getLsbD 5
    let h := thlen fcw ext 0
    ∃ d : Decoded MpduTx,
      exec (.mpduParse rec) s =
        .next { s with ended := s.ended ++ [.completed (.parsed d)] } ∧
      (rec.length < 32 + h0 → d = .notOk) ∧
      (rec.length < 32 + h → d = .notOk) ∧
      (32 + h ≤ rec.length → ∃ t, d = .ok t ∧
        t.queueId = byteAt rec 0 ∧ t.channel = byteAt rec 1 ∧ t.frameLen = rdLE16 rec 2 ∧
        t.policy = ⟨rdLE32 rec 4, rdLE32 rec 8, rdLE32 rec 12, rdLE32 rec 16, rdLE32 rec 20,
                    rdLE32 rec 24, rdLE32 rec 28⟩ ∧
        t.fcw = fcw ∧ t.fc = fcUnpackWord fcw ∧ t.dur = rdLE16 rec 34 ∧ t.addr1 = addrAt rec 36 ∧
        t.extIv = ext ∧ t.body = rec.drop (32 + h))

/-- Which optional fields a parsed MPDU has (R82, R176): each exactly under its own condition.
Rests on the spec's own decisions D20, D21, D22 (92_eei_decisions.md); log 12. -/
def Obligations.ParsedFieldsPresence : Prop :=
  ∀ (rec : Bytes) (t : MpduTx), parseRec Config.ivExtBit rec = .ok (.ok t) →
    let ts := byteAt rec 32
    t.addr2.isSome = (isData ts || isMgmt ts || isRts ts || isPsPoll ts || isCfEnd ts || isBa ts ||
      isBar ts) ∧
    t.addr3.isSome = (isData ts || isMgmt ts) ∧ t.sc.isSome = isData ts ∧
    t.addr4.isSome = (t.fc.flags.toDs && t.fc.flags.fromDs) ∧ t.qos.isSome = isQosData ts ∧
    t.cfc.isSome = isCtrlWrapper ts ∧ t.htc.isSome = (isCtrlWrapper ts || t.fc.flags.order) ∧
    t.iv.isSome = t.fc.flags.prot ∧ t.eiv.isSome = (t.fc.flags.prot && t.extIv) ∧
    (∀ v, t.iv = some v → t.extIv = v.getLsbD 5) ∧ (t.iv = none → t.extIv = false)

/-- Nothing of a record is lost (R179): the record is rebuilt from the parsed object, byte for byte,
its fields in the order of the header; the decoded flags and the theoretical length are those of its
own fields.
Rests on the spec's own decisions D19, D20 (92_eei_decisions.md); log 12. -/
def Obligations.ParseLosesNothing : Prop :=
  ∀ (rec : Bytes) (s s' : State) (t : MpduTx), exec (.mpduParse rec) s = .next s' →
    s'.ended = s.ended ++ [.completed (.parsed (.ok t))] →
      txBytes t = rec ∧ t.fc = fcUnpackWord t.fcw ∧ t.thLen = thlen t.fcw t.extIv t.body.length

/-- The self-check (R177, R180): the theoretical length of a parsed record is the number of its bytes
after the 32-byte prefix, so `len_ok` says that the reported length is that number.
Rests on the spec's own decision D24 (92_eei_decisions.md). -/
def Obligations.ParseLengthSelfCheck : Prop :=
  ∀ (rec : Bytes) (s s' : State) (t : MpduTx), exec (.mpduParse rec) s = .next s' →
    s'.ended = s.ended ++ [.completed (.parsed (.ok t))] →
      t.thLen = rec.length - 32 ∧ (t.lenOk = true ↔ t.frameLen.toNat = rec.length - 32)

/-! ## Comparator -/

/-- CMP.DOWN passes a non-empty chain with one address triple whose bodies together are the LLC/SNAP
encoding of the expected ethertype and payload, and whose destination and source are the expected ones;
802.1Q presence is not compared (R191).
Rests on the spec's own decision D25 (92_eei_decisions.md). -/
def Obligations.CmpDownPasses : Prop :=
  ∀ (ms : List MpduRx) (exp : Expect) (q : Option (BitVec 3 × Tag)) (bssid : MacAddr) (s : State),
    ready s → ms ≠ [] → (∀ m ∈ ms, m.cfg.dst = exp.dst ∧ m.cfg.src = exp.src ∧ m.bssid = bssid) →
    ms.flatMap MpduRx.body = llcFrame exp.payload exp.etype q →
    (q = none → exp.etype ≠ 0x8100#16) →
      exec (.cmpDown ms exp) s = .next { s with ended := s.ended ++ [.completed .pass] }

/-- CMP.DOWN's checks, in order: empty chain, an MPDU with another address triple, a body that does not
decode, then destination, source, ethertype and payload (R191, R205).
Rests on the spec's own decisions D25, D32 (92_eei_decisions.md); log 17. -/
def Obligations.CmpDownFaults : Prop :=
  ∀ (exp : Expect) (s : State), ready s →
    exec (.cmpDown [] exp) s = .next (s.raise (excPlain .emptyChain)) ∧
    ∀ (m0 : MpduRx) (rest : List MpduRx),
      let run := exec (.cmpDown (m0 :: rest) exp) s
      let body := (m0 :: rest).flatMap MpduRx.body
      (∀ i m, rest[i]? = some m →
        ((m.cfg.dst, m.cfg.src, m.bssid) ≠ (m0.cfg.dst, m0.cfg.src, m0.bssid)) →
        (∀ k m', k < i → rest[k]? = some m' →
          (m'.cfg.dst, m'.cfg.src, m'.bssid) = (m0.cfg.dst, m0.cfg.src, m0.bssid)) →
          run = .next (s.raise (excIndex .chainAddr (i + 1)))) ∧
      ((∀ m ∈ rest, (m.cfg.dst, m.cfg.src, m.bssid) = (m0.cfg.dst, m0.cfg.src, m0.bssid)) →
        (llcDec body = .notOk → run = .next (s.raise (excPlain .cmpDecode))) ∧
        ∀ d, llcDec body = .ok d →
          (m0.cfg.dst ≠ exp.dst →
            run = .next (s.raise (excMismatch .dst (.addr exp.dst) (.addr m0.cfg.dst)))) ∧
          (m0.cfg.dst = exp.dst → m0.cfg.src ≠ exp.src →
            run = .next (s.raise (excMismatch .src (.addr exp.src) (.addr m0.cfg.src)))) ∧
          (m0.cfg.dst = exp.dst → m0.cfg.src = exp.src → d.etype ≠ exp.etype →
            run = .next (s.raise
              (excMismatch .ethertype (.num exp.etype.toNat) (.num d.etype.toNat)))) ∧
          (m0.cfg.dst = exp.dst → m0.cfg.src = exp.src → d.etype = exp.etype →
            d.payload ≠ exp.payload →
            run = .next (s.raise (excMismatch .payload (.bytes exp.payload) (.bytes d.payload)))))

/-- The downlink scenario (R193): whatever FRAG.SEND made of a frame ETH.ENC returned, for any fragment
size, options and override, CMP.DOWN passes it against that frame; and against the frame with another
payload it faults with a payload mismatch that names both.
Rests on log 8. -/
def Obligations.DownlinkScenario : Prop :=
  ∀ (dst src : MacAddr) (prio length etype : Nat) (tag : Option TagArg) (f : EthFrame) (r : Nat)
    (bssid : MacAddr) (size : Nat) (opt : FragOpt) (ov : Option U16) (out : List MpduRx)
    (s0 t0 s1 t1 s : State),
    exec (.ethEnc dst src prio length etype tag) s0 = .next t0 →
    t0.ended = s0.ended ++ [.completed (.ethFrame f)] →
    exec (.fragSend r f bssid size opt ov) s1 = .next t1 →
    t1.ended = s1.ended ++ [.completed (.mpdus out)] → ready s →
      exec (.cmpDown out (expectOf f)) s =
        .next { s with ended := s.ended ++ [.completed .pass] } ∧
      ∀ p : Bytes, p ≠ f.payload →
        exec (.cmpDown out { expectOf f with payload := p }) s =
          .next (s.raise (excMismatch .payload (.bytes p) (.bytes f.payload)))

/-- CMP.UP passes a parsed MPDU whose pattern tag, length and addresses are right and whose body is the
LLC/SNAP encoding of the expected frame followed by four bytes of any value; priority, CFI and VLAN id
are not compared (R194). `PATTERN_TAG` is open: the statement holds for every value of it (log 9).
Rests on the spec's own decisions D19, D25 (92_eei_decisions.md); log 9. -/
def Obligations.CmpUpPasses : Prop :=
  ∀ (t : MpduTx) (exp : Expect) (ap : MacAddr) (q : Option (BitVec 3 × Tag)) (tail : Bytes)
    (s : State), ready s →
    t.policy.w0 = Config.patternTag → t.lenOk = true → t.addr1 = ap → t.addr2 = some exp.src →
    t.addr3 = some exp.dst → tail.length = 4 → t.body = llcFrame exp.payload exp.etype q ++ tail →
    exp.dot1q = q.isSome → (q = none → exp.etype ≠ 0x8100#16) →
      exec (.cmpUp (.ok t) exp ap) s = .next { s with ended := s.ended ++ [.completed .pass] }

/-- CMP.UP's checks, in order: a not-ok parse, the pattern tag, the theoretical length, the three
addresses, a body too short for the placeholder bytes or that does not decode, 802.1Q presence,
ethertype, payload (R194, R205).
Rests on the spec's own decisions D25, D32 (92_eei_decisions.md); log 9, 17. -/
def Obligations.CmpUpFaults : Prop :=
  ∀ (exp : Expect) (ap : MacAddr) (s : State), ready s →
    exec (.cmpUp .notOk exp ap) s = .next (s.raise (excPlain .cmpDecode)) ∧
    ∀ t : MpduTx,
      let run := exec (.cmpUp (.ok t) exp ap) s
      (t.policy.w0 ≠ Config.patternTag →
        run = .next (s.raise (excPair .pattern Config.patternTag.toNat t.policy.w0.toNat))) ∧
      (t.policy.w0 = Config.patternTag →
        (t.lenOk = false → run = .next (s.raise (excPair .thLen t.frameLen.toNat t.thLen))) ∧
        (t.lenOk = true →
          (t.addr1 ≠ ap → run = .next (s.raise (excMismatch .addr1 (.addr ap) (.addr t.addr1)))) ∧
          (t.addr1 = ap →
            (t.addr2 ≠ some exp.src →
              run = .next (s.raise (excMismatch .addr2 (.addr exp.src) (infoAddr t.addr2)))) ∧
            (t.addr2 = some exp.src →
              (t.addr3 ≠ some exp.dst →
                run = .next (s.raise (excMismatch .addr3 (.addr exp.dst) (infoAddr t.addr3)))) ∧
              (t.addr3 = some exp.dst →
                (t.body.length < 4 → run = .next (s.raise (excPlain .cmpDecode))) ∧
                (4 ≤ t.body.length →
                  (llcDec (t.body.take (t.body.length - 4)) = .notOk →
                    run = .next (s.raise (excPlain .cmpDecode))) ∧
                  ∀ d, llcDec (t.body.take (t.body.length - 4)) = .ok d →
                    (d.dot1q ≠ exp.dot1q → run =
                      .next (s.raise (excMismatch .dot1q (.flag exp.dot1q) (.flag d.dot1q)))) ∧
                    (d.dot1q = exp.dot1q → d.etype ≠ exp.etype → run =
                      .next (s.raise
                        (excMismatch .ethertype (.num exp.etype.toNat) (.num d.etype.toNat)))) ∧
                    (d.dot1q = exp.dot1q → d.etype = exp.etype → d.payload ≠ exp.payload → run =
                      .next (s.raise
                        (excMismatch .payload (.bytes exp.payload) (.bytes d.payload))))))))))

/-- A comparator failure is never a warning (R195): in the state that accepts commands both checks either
pass and change nothing but the report, or fault; a fault sets `ST.faulted`, the block then refuses
every command but FCB.RESET, and FCB.RESET ends that. -/
def Obligations.ComparatorFailureLatches : Prop :=
  ∀ (i : Instr) (s : State), ready s →
    ((∃ ms exp, i = .cmpDown ms exp) ∨ ∃ p exp ap, i = .cmpUp p exp ap) →
      exec i s = .next { s with ended := s.ended ++ [.completed .pass] } ∨
      ∃ (x : Exc) (t : State), exec i s = .next t ∧ t = s.raise x ∧ t.st.faulted = true ∧
        (∀ i', i' ≠ .fcbReset → exec i' t = .next { t with ended := t.ended ++ [.refused .faulted] }) ∧
        ∃ u, exec .fcbReset t = .next u ∧ ready u
end

