-- ==== Sys2Proof/Laws/Bytes.lean ====
section
/-!
SUPPORT. Byte sequences: lengths, reading through a concatenation, and that each reader of R11
inverts its packer; the fields of the packed words (R66, R70, R74).
-/

namespace Sys2Proof.Laws

open Sys2Proof.Machine

/-! Lengths. -/

@[simp] theorem be16_length (v : U16) : (be16 v).length = 2 := rfl
@[simp] theorem le16_length (v : U16) : (le16 v).length = 2 := rfl
@[simp] theorem le32_length (v : U32) : (le32 v).length = 4 := rfl
@[simp] theorem le64_length (v : BitVec 64) : (le64 v).length = 8 := rfl
@[simp] theorem addrBytes_length (a : MacAddr) : (addrBytes a).length = 6 := rfl
@[simp] theorem snap_length : snap.length = 6 := rfl
@[simp] theorem zeros_length (n : Nat) : (zeros n).length = n := by simp [zeros]

theorem le_pad4 (n : Nat) : n ≤ pad4 n := by unfold pad4; omega

theorem pad4_mod (n : Nat) : pad4 n % 4 = 0 := by unfold pad4; omega

@[simp] theorem padBody_length (b : Bytes) : (padBody b).length = pad4 b.length := by
  have := le_pad4 b.length
  simp [padBody]
  omega

/-! Reading through a concatenation. -/

theorem byteAt_append_left {a b : Bytes} {i : Nat} (h : i < a.length) :
    byteAt (a ++ b) i = byteAt a i := by
  simp [byteAt, List.getD_eq_getElem?_getD, List.getElem?_append_left h]

theorem byteAt_append_right {a b : Bytes} {i : Nat} (h : a.length ≤ i) :
    byteAt (a ++ b) i = byteAt b (i - a.length) := by
  simp [byteAt, List.getD_eq_getElem?_getD, List.getElem?_append_right h]

theorem byteAt_drop (b : Bytes) (n i : Nat) : byteAt (b.drop n) i = byteAt b (n + i) := by
  simp [byteAt, List.getD_eq_getElem?_getD, List.getElem?_drop]

theorem rdBE16_drop (b : Bytes) (n i : Nat) : rdBE16 (b.drop n) i = rdBE16 b (n + i) := by
  simp [rdBE16, byteAt_drop, Nat.add_assoc]

theorem rdLE16_drop (b : Bytes) (n i : Nat) : rdLE16 (b.drop n) i = rdLE16 b (n + i) := by
  simp [rdLE16, byteAt_drop, Nat.add_assoc]

theorem rdLE32_drop (b : Bytes) (n i : Nat) : rdLE32 (b.drop n) i = rdLE32 b (n + i) := by
  simp [rdLE32, byteAt_drop, Nat.add_assoc]

theorem addrAt_drop (b : Bytes) (n i : Nat) : addrAt (b.drop n) i = addrAt b (n + i) := by
  simp [addrAt, byteAt_drop, Nat.add_assoc]

/-! Each reader inverts its packer. -/

/-- A bit field of a word, as a number (R9). -/
theorem field_toNat {w : Nat} (v : BitVec w) (lo n : Nat) :
    (v.extractLsb' lo n).toNat = v.toNat / 2 ^ lo % 2 ^ n := by
  simp [Nat.shiftRight_eq_div_pow]

/-- One bit of a word, as a number (R9). -/
theorem bit_eq {w : Nat} (v : BitVec w) (i : Nat) :
    v.getLsbD i = decide (v.toNat / 2 ^ i % 2 = 1) := by
  simp [BitVec.getLsbD, Nat.testBit_eq_decide_div_mod_eq]

/-- One bit of a word as the number 0 or 1 (R9). -/
theorem bit_toNat {w : Nat} (v : BitVec w) (i : Nat) :
    (v.getLsbD i).toNat = v.toNat / 2 ^ i % 2 := by
  rw [bit_eq]
  generalize v.toNat / 2 ^ i = n
  rcases Nat.mod_two_eq_zero_or_one n with h | h <;> simp [h]

theorem rdBE16_toNat (b : Bytes) (o : Nat) :
    (rdBE16 b o).toNat = (byteAt b o).toNat * 256 + (byteAt b (o + 1)).toNat := by
  have h1 := (byteAt b o).isLt
  have h2 := (byteAt b (o + 1)).isLt
  simp only [rdBE16, BitVec.toNat_ofNat]
  omega

theorem rdLE16_toNat (b : Bytes) (o : Nat) :
    (rdLE16 b o).toNat = (byteAt b o).toNat + (byteAt b (o + 1)).toNat * 256 := by
  have h1 := (byteAt b o).isLt
  have h2 := (byteAt b (o + 1)).isLt
  simp only [rdLE16, BitVec.toNat_ofNat]
  omega

theorem rdLE32_toNat (b : Bytes) (o : Nat) :
    (rdLE32 b o).toNat = (byteAt b o).toNat + (byteAt b (o + 1)).toNat * 256 +
      (byteAt b (o + 2)).toNat * 65536 + (byteAt b (o + 3)).toNat * 16777216 := by
  have h1 := (byteAt b o).isLt
  have h2 := (byteAt b (o + 1)).isLt
  have h3 := (byteAt b (o + 2)).isLt
  have h4 := (byteAt b (o + 3)).isLt
  simp only [rdLE32, BitVec.toNat_ofNat]
  omega

@[simp] theorem rdBE16_be16 (v : U16) (r : Bytes) : rdBE16 (be16 v ++ r) 0 = v := by
  apply BitVec.eq_of_toNat_eq
  have := v.isLt
  rw [rdBE16_toNat]
  simp [be16, byteAt, Nat.shiftRight_eq_div_pow]
  omega

@[simp] theorem rdLE16_le16 (v : U16) (r : Bytes) : rdLE16 (le16 v ++ r) 0 = v := by
  apply BitVec.eq_of_toNat_eq
  have := v.isLt
  rw [rdLE16_toNat]
  simp [le16, byteAt, Nat.shiftRight_eq_div_pow]
  omega

@[simp] theorem rdLE32_le32 (v : U32) (r : Bytes) : rdLE32 (le32 v ++ r) 0 = v := by
  apply BitVec.eq_of_toNat_eq
  have := v.isLt
  rw [rdLE32_toNat]
  simp [le32, byteAt, Nat.shiftRight_eq_div_pow]
  omega

@[simp] theorem addrAt_addrBytes (a : MacAddr) (r : Bytes) : addrAt (addrBytes a ++ r) 0 = a := rfl

/-- The bytes of a little-endian 16-bit read are the two bytes read. -/
theorem le16_rdLE16 (b : Bytes) (o : Nat) : le16 (rdLE16 b o) = [byteAt b o, byteAt b (o + 1)] := by
  have h1 := (byteAt b o).isLt
  have h2 := (byteAt b (o + 1)).isLt
  simp only [le16, List.cons.injEq, and_true]
  constructor <;> apply BitVec.eq_of_toNat_eq <;> rw [field_toNat, rdLE16_toNat] <;> omega

/-- The bytes of a little-endian 32-bit read are the four bytes read. -/
theorem le32_rdLE32 (b : Bytes) (o : Nat) :
    le32 (rdLE32 b o) = [byteAt b o, byteAt b (o + 1), byteAt b (o + 2), byteAt b (o + 3)] := by
  have h1 := (byteAt b o).isLt
  have h2 := (byteAt b (o + 1)).isLt
  have h3 := (byteAt b (o + 2)).isLt
  have h4 := (byteAt b (o + 3)).isLt
  simp only [le32, List.cons.injEq, and_true]
  refine ⟨?_, ?_, ?_, ?_⟩ <;> apply BitVec.eq_of_toNat_eq <;>
    rw [field_toNat, rdLE32_toNat] <;> omega

/-- A slice of k bytes is the k bytes read one by one. -/
theorem take_eq_bytes (b : Bytes) (k : Nat) (h : k ≤ b.length) :
    b.take k = (List.range k).map (byteAt b) := by
  apply List.ext_getElem
  · simp [h]
  · intro i h1 h2
    simp at h1
    simp [byteAt, List.getD_eq_getElem?_getD, h1.2]

/-! The fields of the packed words. -/

/-- `TCI(prio, cfi, vid)` as a number (R66). -/
theorem tci_toNat (p : BitVec 3) (c : Bool) (v : BitVec 12) :
    (tci p c v).toNat = p.toNat * 8192 + c.toNat * 4096 + v.toNat := by
  have h1 := p.isLt
  have h2 := v.isLt
  have h3 := c.toNat_lt
  simp only [tci, BitVec.toNat_ofNat]
  omega

@[simp] theorem tciPrio_tci (p : BitVec 3) (c : Bool) (v : BitVec 12) : tciPrio (tci p c v) = p := by
  have h1 := p.isLt
  have h2 := v.isLt
  have h3 := c.toNat_lt
  apply BitVec.eq_of_toNat_eq
  rw [tciPrio, field_toNat, tci_toNat]
  omega

@[simp] theorem tciCfi_tci (p : BitVec 3) (c : Bool) (v : BitVec 12) : tciCfi (tci p c v) = c := by
  have h1 := p.isLt
  have h2 := v.isLt
  rw [tciCfi, bit_eq, tci_toNat]
  cases c <;> simp <;> omega

@[simp] theorem tciVid_tci (p : BitVec 3) (c : Bool) (v : BitVec 12) : tciVid (tci p c v) = v := by
  have h1 := p.isLt
  have h2 := v.isLt
  have h3 := c.toNat_lt
  apply BitVec.eq_of_toNat_eq
  rw [tciVid, field_toNat, tci_toNat]
  omega

/-- `SCW(seq, frag) = seq * 16 + frag` (R74). -/
theorem scw_toNat (q : BitVec 12) (f : BitVec 4) : (scw q f).toNat = q.toNat * 16 + f.toNat := by
  have h1 := q.isLt
  have h2 := f.isLt
  simp only [scw, BitVec.toNat_ofNat]
  omega

@[simp] theorem scSeq_scw (q : BitVec 12) (f : BitVec 4) : scSeq (scw q f) = q := by
  have h1 := q.isLt
  have h2 := f.isLt
  apply BitVec.eq_of_toNat_eq
  rw [scSeq, field_toNat, scw_toNat]
  omega

@[simp] theorem scFrag_scw (q : BitVec 12) (f : BitVec 4) : scFrag (scw q f) = f := by
  have h1 := q.isLt
  have h2 := f.isLt
  apply BitVec.eq_of_toNat_eq
  rw [scFrag, field_toNat, scw_toNat]
  omega

/-- Every sequence-control word is made of its two fields (R74). -/
theorem scw_fields (sc : U16) : scw (scSeq sc) (scFrag sc) = sc := by
  have h := sc.isLt
  apply BitVec.eq_of_toNat_eq
  rw [scw_toNat, scSeq, scFrag, field_toNat, field_toNat]
  omega

/-- Counting fragments up does not carry into the sequence number while they stay below 16 (R158). -/
theorem scw_add (q : BitVec 12) (a k : Nat) (h : a + k < 16) :
    scw q (BitVec.ofNat 4 a) + BitVec.ofNat 16 k = scw q (BitVec.ofNat 4 (a + k)) := by
  apply BitVec.eq_of_toNat_eq
  have hq := q.isLt
  simp only [BitVec.toNat_add, scw_toNat, BitVec.toNat_ofNat]
  omega

/-- `fc_pack` as a number (R131). -/
theorem fcPackWord_toNat (ts : Byte) (f : FcFlags) :
    (fcPackWord ts f).toNat =
      ts.toNat + f.toDs.toNat * 256 + f.fromDs.toNat * 512 + f.moreFrag.toNat * 1024 +
        f.retry.toNat * 2048 + f.pwrMgmt.toNat * 4096 + f.moreData.toNat * 8192 +
        f.prot.toNat * 16384 + f.order.toNat * 32768 := by
  have h0 := ts.isLt
  have h1 := f.toDs.toNat_lt
  have h2 := f.fromDs.toNat_lt
  have h3 := f.moreFrag.toNat_lt
  have h4 := f.retry.toNat_lt
  have h5 := f.pwrMgmt.toNat_lt
  have h6 := f.moreData.toNat_lt
  have h7 := f.prot.toNat_lt
  have h8 := f.order.toNat_lt
  simp only [fcPackWord, BitVec.toNat_ofNat]
  omega

@[simp] theorem fcTs_fcPackWord (ts : Byte) (f : FcFlags) : fcTs (fcPackWord ts f) = ts := by
  have h0 := ts.isLt
  apply BitVec.eq_of_toNat_eq
  rw [fcTs, field_toNat, fcPackWord_toNat]
  omega

/-- A bit read back from a number below 2: it is the Bool it came from. -/
theorem decide_toNat_eq_one (b : Bool) : decide (b.toNat = 1) = b := by cases b <;> rfl

@[simp] theorem fcFlags_fcPackWord (ts : Byte) (f : FcFlags) : fcFlags (fcPackWord ts f) = f := by
  have h0 := ts.isLt
  have h1 := f.toDs.toNat_lt
  have h2 := f.fromDs.toNat_lt
  have h3 := f.moreFrag.toNat_lt
  have h4 := f.retry.toNat_lt
  have h5 := f.pwrMgmt.toNat_lt
  have h6 := f.moreData.toNat_lt
  have h7 := f.prot.toNat_lt
  have h8 := f.order.toNat_lt
  have key : ∀ (i : Nat) (b : Bool), (fcPackWord ts f).toNat / 2 ^ i % 2 = b.toNat →
      (fcPackWord ts f).getLsbD i = b := by
    intro i b h
    rw [bit_eq, h, decide_toNat_eq_one]
  rw [fcFlags, key 8 f.toDs, key 9 f.fromDs, key 10 f.moreFrag, key 11 f.retry, key 12 f.pwrMgmt,
    key 13 f.moreData, key 14 f.prot, key 15 f.order] <;> rw [fcPackWord_toNat] <;> omega

/-- Every frame-control word is made of its low byte and its eight flags (R131, R134). -/
theorem fcPackWord_fields (v : U16) : fcPackWord (fcTs v) (fcFlags v) = v := by
  apply BitVec.eq_of_toNat_eq
  have := v.isLt
  rw [fcPackWord_toNat, fcTs, field_toNat]
  simp only [fcFlags, bit_toNat]
  omega

end Sys2Proof.Laws
end

