-- ==== Sys2Proof/Laws/State.lean ====
section
/-!
SUPPORT. What each update of State does to each field, so that no proof unfolds a record update.
-/

namespace Sys2Proof.Laws

open Sys2Proof.Machine

/-! Counters by source. -/

@[simp] theorem get_set_same (cs : Counters) (r : Role) (c : Counter) : (cs.set r c).get r = c := by
  cases r <;> rfl

theorem get_set_other (cs : Counters) {r r' : Role} (h : r' ≠ r) (c : Counter) :
    (cs.set r c).get r' = cs.get r' := by
  cases r <;> cases r' <;> first | rfl | exact absurd rfl h

@[simp] theorem set_set (cs : Counters) (r : Role) (c c' : Counter) :
    (cs.set r c).set r c' = cs.set r c' := by
  cases r <;> rfl

@[simp] theorem set_get (cs : Counters) (r : Role) : cs.set r (cs.get r) = cs := by
  cases r <;> rfl

theorem roleOf_isSome {r : Nat} {role : Role} (h : roleOf r = some role) : r < Config.nSrc := by
  match r with
  | 0 => decide
  | 1 => decide
  | _ + 2 => simp [roleOf] at h

theorem roleOf_eq_none {r : Nat} : roleOf r = none ↔ Config.nSrc ≤ r := by
  match r with
  | 0 => decide
  | 1 => decide
  | n + 2 => simp [roleOf, Config.nSrc]

variable (s : State) (r : Role) (c : Counter) (v : U16) (d : Bool) (n : Nat) (rec : Bytes)
variable (cs : List Command) (e : Completion) (x : Exc) (cause : Cause)

/-! setCounter, setSc, setDirty. -/

@[simp] theorem setCounter_st : (s.setCounter r c).st = s.st := rfl
@[simp] theorem setCounter_counters : (s.setCounter r c).counters = s.counters.set r c := rfl
@[simp] theorem setCounter_txq : (s.setCounter r c).txq = s.txq := rfl
@[simp] theorem setCounter_draws : (s.setCounter r c).draws = s.draws := rfl
@[simp] theorem setCounter_pending : (s.setCounter r c).pending = s.pending := rfl
@[simp] theorem setCounter_ended : (s.setCounter r c).ended = s.ended := rfl
@[simp] theorem setSc_st : (s.setSc r v).st = s.st := rfl
@[simp] theorem setSc_counters : (s.setSc r v).counters = s.counters.set r ⟨v, s.dirty r⟩ := rfl
@[simp] theorem setSc_txq : (s.setSc r v).txq = s.txq := rfl
@[simp] theorem setSc_draws : (s.setSc r v).draws = s.draws := rfl
@[simp] theorem setSc_pending : (s.setSc r v).pending = s.pending := rfl
@[simp] theorem setSc_ended : (s.setSc r v).ended = s.ended := rfl
@[simp] theorem setDirty_st : (s.setDirty r d).st = s.st := rfl
@[simp] theorem setDirty_counters : (s.setDirty r d).counters = s.counters.set r ⟨s.sc r, d⟩ := rfl
@[simp] theorem setDirty_txq : (s.setDirty r d).txq = s.txq := rfl
@[simp] theorem setDirty_draws : (s.setDirty r d).draws = s.draws := rfl
@[simp] theorem setDirty_pending : (s.setDirty r d).pending = s.pending := rfl
@[simp] theorem setDirty_ended : (s.setDirty r d).ended = s.ended := rfl

/-! emit, afterDraw. -/

@[simp] theorem emit_st : (s.emit rec).st = s.st := rfl
@[simp] theorem emit_counters : (s.emit rec).counters = s.counters := rfl
@[simp] theorem emit_txq : (s.emit rec).txq = s.txq ++ [rec] := rfl
@[simp] theorem emit_draws : (s.emit rec).draws = s.draws := rfl
@[simp] theorem emit_pending : (s.emit rec).pending = s.pending := rfl
@[simp] theorem emit_ended : (s.emit rec).ended = s.ended := rfl
@[simp] theorem afterDraw_st : (s.afterDraw n).st = s.st := rfl
@[simp] theorem afterDraw_counters : (s.afterDraw n).counters = s.counters := rfl
@[simp] theorem afterDraw_txq : (s.afterDraw n).txq = s.txq := rfl
@[simp] theorem afterDraw_draws : (s.afterDraw n).draws = s.draws + n := rfl
@[simp] theorem afterDraw_pending : (s.afterDraw n).pending = s.pending := rfl
@[simp] theorem afterDraw_ended : (s.afterDraw n).ended = s.ended := rfl

@[simp] theorem drawn_length : (s.drawn n).length = n := by simp [State.drawn]

/-! resetBlock, setPending, close. -/

@[simp] theorem resetBlock_st : s.resetBlock.st = Status.clear := rfl
@[simp] theorem resetBlock_counters : s.resetBlock.counters = Counters.clear := rfl
@[simp] theorem resetBlock_txq : s.resetBlock.txq = s.txq := rfl
@[simp] theorem resetBlock_draws : s.resetBlock.draws = s.draws := rfl
@[simp] theorem resetBlock_pending : s.resetBlock.pending = s.pending := rfl
@[simp] theorem resetBlock_ended : s.resetBlock.ended = s.ended := rfl
@[simp] theorem setPending_st : (s.setPending cs).st = s.st := rfl
@[simp] theorem setPending_counters : (s.setPending cs).counters = s.counters := rfl
@[simp] theorem setPending_txq : (s.setPending cs).txq = s.txq := rfl
@[simp] theorem setPending_draws : (s.setPending cs).draws = s.draws := rfl
@[simp] theorem setPending_pending : (s.setPending cs).pending = cs := rfl
@[simp] theorem setPending_ended : (s.setPending cs).ended = s.ended := rfl
@[simp] theorem close_st : (s.close e).st = s.st := rfl
@[simp] theorem close_counters : (s.close e).counters = s.counters := rfl
@[simp] theorem close_txq : (s.close e).txq = s.txq := rfl
@[simp] theorem close_draws : (s.close e).draws = s.draws := rfl
@[simp] theorem close_pending : (s.close e).pending = s.pending := rfl
@[simp] theorem close_ended : (s.close e).ended = s.ended ++ [e] := rfl

/-! raise, refuse. -/

@[simp] theorem raise_st : (s.raise x).st = ⟨true, causeCode x.cause, x.info⟩ := rfl
@[simp] theorem raise_counters : (s.raise x).counters = s.counters := rfl
@[simp] theorem raise_txq : (s.raise x).txq = s.txq := rfl
@[simp] theorem raise_draws : (s.raise x).draws = s.draws := rfl
@[simp] theorem raise_pending : (s.raise x).pending = s.pending := rfl
@[simp] theorem raise_ended : (s.raise x).ended = s.ended ++ [.faulted x] := rfl
@[simp] theorem refuse_st : (s.refuse cause).st = s.st := rfl
@[simp] theorem refuse_counters : (s.refuse cause).counters = s.counters := rfl
@[simp] theorem refuse_txq : (s.refuse cause).txq = s.txq := rfl
@[simp] theorem refuse_draws : (s.refuse cause).draws = s.draws := rfl
@[simp] theorem refuse_pending : (s.refuse cause).pending = s.pending := rfl
@[simp] theorem refuse_ended : (s.refuse cause).ended = s.ended ++ [.refused cause] := rfl

/-! The counter views through each update. -/

@[simp] theorem sc_setCounter : (s.setCounter r c).sc r = c.sc := by simp [State.sc]
@[simp] theorem dirty_setCounter : (s.setCounter r c).dirty r = c.dirty := by simp [State.dirty]
@[simp] theorem sc_setSc : (s.setSc r v).sc r = v := by simp [State.sc]
@[simp] theorem dirty_setSc : (s.setSc r v).dirty r = s.dirty r := by simp [State.dirty]
@[simp] theorem sc_setDirty : (s.setDirty r d).sc r = s.sc r := by simp [State.sc]
@[simp] theorem dirty_setDirty : (s.setDirty r d).dirty r = d := by simp [State.dirty]
@[simp] theorem sc_emit : (s.emit rec).sc r = s.sc r := rfl
@[simp] theorem dirty_emit : (s.emit rec).dirty r = s.dirty r := rfl

end Sys2Proof.Laws
end

