-- ==== Sys2Proof/Laws/Issue.lean ====
section
/-!
SUPPORT. What the shared operations of every command can do: one check (`raiseIf`), the source test
(`withRole`), and how a command ends (`issue`, `issuePure`).
-/

namespace Sys2Proof.Laws

open Sys2Proof.Machine

variable {α : Type}

@[simp] theorem raiseIf_true (x : Exc) (k : Except Exc α) : raiseIf true x k = .error x := rfl

@[simp] theorem raiseIf_false (x : Exc) (k : Except Exc α) : raiseIf false x k = k := rfl

/-- A check is passed exactly where its condition fails. -/
@[simp] theorem raiseIf_eq_ok {c : Bool} {x : Exc} {k : Except Exc α} {a : α} :
    raiseIf c x k = .ok a ↔ c = false ∧ k = .ok a := by
  cases c <;> simp

/-- A pseudocode that raises does so at this check, or passes it and raises later (R207). -/
theorem raiseIf_eq_error {c : Bool} {x y : Exc} {k : Except Exc α} :
    raiseIf c x k = .error y ↔ (c = true ∧ y = x) ∨ (c = false ∧ k = .error y) := by
  cases c <;> simp [eq_comm]

/-- A comparison that finds two different values raises (R191, R194). -/
theorem raiseIf_bne {β : Type} [BEq β] [LawfulBEq β] {a b : β} (h : a ≠ b) (x : Exc)
    (k : Except Exc α) : raiseIf (a != b) x k = .error x := by
  simp [raiseIf, h]

/-- `withRole` completes only for a source that exists. -/
theorem withRole_eq_ok {r : Nat} {k : Role → Except Exc α} {a : α} :
    withRole r k = .ok a ↔ ∃ role, roleOf r = some role ∧ k role = .ok a := by
  unfold withRole
  cases roleOf r <;> simp

theorem withRole_some {r : Nat} {role : Role} (h : roleOf r = some role)
    (k : Role → Except Exc α) : withRole r k = k role := by
  simp [withRole, h]

theorem withRole_none {r : Nat} (h : roleOf r = none) (k : Role → Except Exc α) :
    withRole r k = .error (excActual .role r) := by
  simp [withRole, h]

variable (s : State) (body : Except Exc (State × Result)) (res : Except Exc Result)

theorem issue_of_faulted (h : s.st.faulted = true) : s.issue body = .next (s.refuse .faulted) := by
  simp [State.issue, h]

theorem issue_ok {t : State} {r : Result} (h : s.st.faulted = false) :
    s.issue (.ok (t, r)) = .next (t.close (.completed r)) := by
  simp [State.issue, h]

theorem issue_error {x : Exc} (h : s.st.faulted = false) :
    s.issue (.error x) = .next (s.raise x) := by
  simp [State.issue, h]

theorem issuePure_of_faulted (h : s.st.faulted = true) :
    s.issuePure res = .next (s.refuse .faulted) := issue_of_faulted s _ h

theorem issuePure_ok {r : Result} (h : s.st.faulted = false) :
    s.issuePure (.ok r) = .next (s.close (.completed r)) := issue_ok s h

theorem issuePure_error {x : Exc} (h : s.st.faulted = false) :
    s.issuePure (.error x) = .next (s.raise x) := issue_error s h

/-- Everything `issue` can do: refuse, complete, or raise; it always answers a next state (R14). -/
theorem issue_cases :
    (s.st.faulted = true ∧ s.issue body = .next (s.refuse .faulted)) ∨
    (s.st.faulted = false ∧ ∃ t r, body = .ok (t, r) ∧
      s.issue body = .next (t.close (.completed r))) ∨
    (s.st.faulted = false ∧ ∃ x, body = .error x ∧ s.issue body = .next (s.raise x)) := by
  cases h : s.st.faulted with
  | true => exact .inl ⟨rfl, issue_of_faulted s body h⟩
  | false =>
    cases body with
    | ok p => exact .inr (.inl ⟨rfl, p.1, p.2, rfl, issue_ok s h⟩)
    | error x => exact .inr (.inr ⟨rfl, x, rfl, issue_error s h⟩)

/-- Everything `issuePure` can do: the state changes only by the completion or the fault. -/
theorem issuePure_cases :
    (s.st.faulted = true ∧ s.issuePure res = .next (s.refuse .faulted)) ∨
    (s.st.faulted = false ∧ ∃ r, res = .ok r ∧ s.issuePure res = .next (s.close (.completed r))) ∨
    (s.st.faulted = false ∧ ∃ x, res = .error x ∧ s.issuePure res = .next (s.raise x)) := by
  cases h : s.st.faulted with
  | true => exact .inl ⟨rfl, issuePure_of_faulted s res h⟩
  | false =>
    cases res with
    | ok r => exact .inr (.inl ⟨rfl, r, rfl, issuePure_ok s h⟩)
    | error x => exact .inr (.inr ⟨rfl, x, rfl, issuePure_error s h⟩)

end Sys2Proof.Laws
end

