-- ==== Sys2Proof/Laws/Builder.lean ====
section
/-!
SUPPORT. What the builder can do: when it completes and with what, that what it makes is
consistent, and the length of an RX record.
-/

namespace Sys2Proof.Laws

open Sys2Proof.Machine

/-! The flags of a configuration, field by field. -/

@[simp] theorem flags_toDs (c : BuildCfg) : c.flags.toDs = c.toDs := rfl
@[simp] theorem flags_fromDs (c : BuildCfg) : c.flags.fromDs = c.fromDs := rfl
@[simp] theorem flags_moreFrag (c : BuildCfg) : c.flags.moreFrag = c.moreFrag := rfl
@[simp] theorem flags_retry (c : BuildCfg) : c.flags.retry = c.retry := rfl
@[simp] theorem flags_pwrMgmt (c : BuildCfg) : c.flags.pwrMgmt = c.pwrMgmt := rfl
@[simp] theorem flags_moreData (c : BuildCfg) : c.flags.moreData = c.moreData := rfl
@[simp] theorem flags_prot (c : BuildCfg) : c.flags.prot = c.prot := rfl
@[simp] theorem flags_order (c : BuildCfg) : c.flags.order = c.order := rfl

/-- MPDU.BUILD completes exactly where its four checks pass, with the one object of R141. -/
theorem build_eq_ok {body : Bytes} {bssid : MacAddr} {cfg : BuildCfg} {m : MpduRx} :
    build body bssid cfg = .ok m ↔
      tsDefined cfg.ts = true ∧ ∃ rule, addrRule cfg = .ok rule ∧ body.length ≤ Config.bodyMax ∧
        m = mpduOf rule body bssid cfg := by
  unfold build
  cases h : addrRule cfg with
  | error x => simp
  | ok rule =>
    simp only [raiseIf_eq_ok, Bool.not_eq_false', decide_eq_false_iff_not, Nat.not_lt,
      Except.ok.injEq, exists_eq_left', @eq_comm _ m]

@[simp] theorem mpduOf_cfg (rule : AddrRule) (body : Bytes) (bssid : MacAddr) (cfg : BuildCfg) :
    (mpduOf rule body bssid cfg).cfg = cfg := rfl

@[simp] theorem mpduOf_bssid (rule : AddrRule) (body : Bytes) (bssid : MacAddr) (cfg : BuildCfg) :
    (mpduOf rule body bssid cfg).bssid = bssid := rfl

@[simp] theorem mpduOf_body (rule : AddrRule) (body : Bytes) (bssid : MacAddr) (cfg : BuildCfg) :
    (mpduOf rule body bssid cfg).body = body := rfl

@[simp] theorem mpduOf_addrs (rule : AddrRule) (body : Bytes) (bssid : MacAddr) (cfg : BuildCfg) :
    (mpduOf rule body bssid cfg).addrs = selectAddr rule cfg bssid := rfl

@[simp] theorem mpduOf_fc (rule : AddrRule) (body : Bytes) (bssid : MacAddr) (cfg : BuildCfg) :
    (mpduOf rule body bssid cfg).fc = fcPackWord cfg.ts cfg.flags := rfl

/-- A consistent MPDU is what the builder makes of its own fields (R28). -/
theorem wf_iff {m : MpduRx} : m.wf = true ↔ build m.body m.bssid m.cfg = .ok m := by
  unfold MpduRx.wf
  cases build m.body m.bssid m.cfg <;> simp

/-- What MPDU.BUILD makes is consistent (R28). -/
theorem build_wf {body : Bytes} {bssid : MacAddr} {cfg : BuildCfg} {m : MpduRx}
    (h : build body bssid cfg = .ok m) : m.wf = true := by
  obtain ⟨_, rule, _, _, rfl⟩ := build_eq_ok.1 h
  exact wf_iff.2 h

/-- The address rule depends on the type, the DS flags and the receiver/transmitter pair only. -/
theorem addrRule_congr {c c' : BuildCfg} (hts : c'.ts = c.ts) (ht : c'.toDs = c.toDs)
    (hf : c'.fromDs = c.fromDs) (hra : c'.ra = c.ra) (hta : c'.ta = c.ta) :
    addrRule c' = addrRule c := by
  simp [addrRule, hts, ht, hf, hra, hta]

/-- The addresses depend on the rule, the destination, the source and the BSSID only (R143). -/
theorem selectAddr_congr {c c' : BuildCfg} (hd : c'.dst = c.dst) (hs : c'.src = c.src)
    (rule : AddrRule) (bssid : MacAddr) : selectAddr rule c' bssid = selectAddr rule c bssid := by
  cases rule <;> simp [selectAddr, hd, hs]

/-- MPDU.RETRY of a consistent MPDU is consistent (R147). -/
theorem addRetry_wf {m m' : MpduRx} (hm : m.wf = true) (h : addRetry m = .ok m') :
    m'.wf = true := by
  simp only [addRetry, raiseIf_eq_ok, Except.ok.injEq] at h
  obtain ⟨_, rfl⟩ := h
  obtain ⟨hts, rule, hr, hl, he⟩ := build_eq_ok.1 (wf_iff.1 hm)
  apply wf_iff.2
  apply build_eq_ok.2
  refine ⟨hts, rule, ?_, hl, ?_⟩
  · exact (addrRule_congr rfl rfl rfl rfl rfl).trans hr
  · have ha : m.addrs = selectAddr rule m.cfg m.bssid := by rw [he]; rfl
    simp only [mpduOf, ha]
    congr 1

/-- The length of an RX record (R77). -/
theorem ser_length (m : MpduRx) : (ser m).length = 108 + pad4 m.body.length := by
  unfold ser rxLayout
  cases m.addrs.addr4 <;> simp <;> omega

end Sys2Proof.Laws
end

