-- ==== Sys2Proof/Laws/Fragment.lean ====
section
/-!
SUPPORT. The fragmentation engine: chunks put together again, and the loop of FRAG.SEND in closed
form: MPDU i carries chunk i and the sequence control counted up i times (R162).
-/

namespace Sys2Proof.Laws

open Sys2Proof.Machine

/-! Chunks. -/

@[simp] theorem chunkOf_length (body : Bytes) (size i : Nat) :
    (chunkOf body size i).length = min size (body.length - i * size) := by
  simp [chunkOf, slice]

/-- The first k chunks are the first `k * size` bytes. -/
theorem flatMap_chunks (body : Bytes) (size k : Nat) :
    (List.range k).flatMap (chunkOf body size) = body.take (k * size) := by
  induction k with
  | zero => simp
  | succ k ih =>
    rw [List.range_succ, List.flatMap_append, ih]
    simp only [List.flatMap_cons, List.flatMap_nil, List.append_nil, chunkOf, slice]
    rw [← List.take_add]
    congr 1
    ring

theorem le_ceilDiv_mul (L S : Nat) (h : 0 < S) : L ≤ ceilDiv L S * S := by
  unfold ceilDiv
  have h1 := Nat.div_add_mod (L + S - 1) S
  have h2 := Nat.mod_lt (L + S - 1) h
  have h3 : S * ((L + S - 1) / S) = (L + S - 1) / S * S := Nat.mul_comm _ _
  omega

/-- The chunks of a body put together are the body (R166). -/
theorem flatMap_chunks_all (body : Bytes) (size : Nat) (h : 0 < size) :
    (List.range (ceilDiv body.length size)).flatMap (chunkOf body size) = body := by
  rw [flatMap_chunks]
  exact List.take_of_length_le (le_ceilDiv_mul _ _ h)

theorem ceilDiv_pos {L S : Nat} (hL : 0 < L) (hS : 0 < S) : 0 < ceilDiv L S := by
  unfold ceilDiv
  exact Nat.div_pos (by omega) hS

theorem ceilDiv_self {L : Nat} (hL : 0 < L) : ceilDiv L L = 1 := by
  unfold ceilDiv
  rw [show L + L - 1 = L + (L - 1) by omega, Nat.add_div_left _ hL, Nat.div_eq_of_lt (by omega)]

@[simp] theorem llcFrame_length (payload : Bytes) (etype : U16) (q : Option (BitVec 3 × Tag)) :
    (llcFrame payload etype q).length = (if q.isSome then 18 else 8) + payload.length := by
  cases q <;> simp [llcFrame] <;> omega

/-- `llc_body(frame)` is 8 or 18 bytes longer than the payload (R161). -/
theorem llcBody_length (f : EthFrame) :
    (llcBody f).length = (if f.tag.isSome then 18 else 8) + f.payload.length := by
  simp [llcBody]

theorem payLenOk_iff {n : Nat} : payLenOk n = true ↔ 1 < n ∧ n ≤ 1500 := by
  simp only [payLenOk, Bool.and_eq_true, decide_eq_true_eq]
  exact Iff.rfl

/-- `10 <= L <= 1518` (R161). -/
theorem llcBody_bounds {f : EthFrame} (h : f.wf = true) :
    10 ≤ (llcBody f).length ∧ (llcBody f).length ≤ 1518 := by
  simp only [EthFrame.wf, Bool.and_eq_true, payLenOk_iff] at h
  rw [llcBody_length]
  split <;> omega

/-! The builder inside the loop. -/

/-- The options of FRAG.SEND select one row of the address table, whichever fragment is built. -/
theorem fragRule {opt : FragOpt} (hd : isData opt.ts = true)
    (hr : rataMissing opt.toDs opt.fromDs opt.ra opt.ta = false) :
    ∃ rule, ∀ frame last w, addrRule (fragCfg frame opt last w) = .ok rule := by
  have hm : isMgmt opt.ts = false := by
    simp only [isData, Bool.and_eq_true, beq_iff_eq] at hd
    simp [isMgmt, hd.1]
  cases ht : opt.toDs <;> cases hf : opt.fromDs
  · exact ⟨.data00, fun _ _ _ => by simp [addrRule, fragCfg, hd, hm, ht, hf]⟩
  · exact ⟨.dataFromDs, fun _ _ _ => by simp [addrRule, fragCfg, hd, hm, ht, hf]⟩
  · exact ⟨.dataToDs, fun _ _ _ => by simp [addrRule, fragCfg, hd, hm, ht, hf]⟩
  · cases hra : opt.ra with
    | none => simp [rataMissing, ht, hf, hra] at hr
    | some ra =>
      cases hta : opt.ta with
      | none => simp [rataMissing, ht, hf, hra, hta] at hr
      | some ta =>
        exact ⟨.dataBothDs ra ta, fun _ _ _ => by simp [addrRule, fragCfg, hd, hm, ht, hf, hra, hta]⟩

/-- The MPDU of chunk `i + k` in a loop that has `left` chunks to go and starts at chunk i. -/
def fragMpdu (rule : AddrRule) (j : FragJob) (left i : Nat) (w : U16) (k : Nat) : MpduRx :=
  mpduOf rule (chunkOf j.body j.size (i + k)) j.bssid
    (fragCfg j.frame j.opt (k + 1 == left) (w + BitVec.ofNat 16 k))

/-- The MPDUs of a loop that has `left` chunks to go. -/
def fragMpdus (rule : AddrRule) (j : FragJob) (left i : Nat) (w : U16) : List MpduRx :=
  (List.range left).map (fragMpdu rule j left i w)

@[simp] theorem fragMpdus_length (rule : AddrRule) (j : FragJob) (left i : Nat) (w : U16) :
    (fragMpdus rule j left i w).length = left := by
  simp [fragMpdus]

/-- The state a loop of `left` chunks leaves: the records emitted in order, and the counter at the
sequence control of the last fragment (R162). -/
def afterFrags (j : FragJob) (left : Nat) (w : U16) (s : State) (recs : List Bytes) : State :=
  { (if left ≤ 1 then s else countFrag j (w + BitVec.ofNat 16 (left - 1)) s) with
    txq := s.txq ++ recs }

@[simp] theorem countFrag_txq (j : FragJob) (w : U16) (s : State) : (countFrag j w s).txq = s.txq := by
  unfold countFrag; cases j.counted <;> rfl

theorem countFrag_countFrag (j : FragJob) (w w' : U16) (s : State) :
    countFrag j w' (countFrag j w s) = countFrag j w' s := by
  unfold countFrag
  cases j.counted <;> simp [State.setSc, State.setCounter, State.dirty]

theorem fragMpdus_succ (rule : AddrRule) (j : FragJob) (left i : Nat) (w : U16) (h : 0 < left) :
    fragMpdus rule j (left + 1) i w =
      mpduOf rule (chunkOf j.body j.size i) j.bssid (fragCfg j.frame j.opt false w) ::
        fragMpdus rule j left (i + 1) (scNextFrag w) := by
  unfold fragMpdus
  rw [List.range_succ_eq_map, List.map_cons, List.map_map]
  congr 1
  · have : (0 + 1 == left + 1) = false := by simp; omega
    simp [fragMpdu, this]
  · apply List.map_congr_left
    intro k _
    simp only [Function.comp, fragMpdu, scNextFrag]
    have h1 : i + k.succ = i + 1 + k := by omega
    have h2 : w + BitVec.ofNat 16 k.succ = w + 1#16 + BitVec.ofNat 16 k := by
      rw [BitVec.add_assoc]; congr 1
      apply BitVec.eq_of_toNat_eq
      simp [Nat.add_comm]
    rw [h1, h2]
    simp

/-- The loop of FRAG.SEND in closed form (R162): it completes, and its MPDUs are those of the chunks
in order, appended to what came before. -/
theorem fragLoop_eq {j : FragJob} {rule : AddrRule} (hts : tsDefined j.opt.ts = true)
    (hrule : ∀ last w, addrRule (fragCfg j.frame j.opt last w) = .ok rule)
    (hbody : j.body.length ≤ Config.bodyMax) (left i : Nat) (w : U16) (s : State)
    (out : List MpduRx) :
    fragLoop j left i w s out =
      .ok (afterFrags j left w s ((fragMpdus rule j left i w).map ser),
           out ++ fragMpdus rule j left i w) := by
  induction left generalizing i w s out with
  | zero => simp [fragLoop, afterFrags, fragMpdus]
  | succ left ih =>
    have hb : ∀ last, build (chunkOf j.body j.size i) j.bssid (fragCfg j.frame j.opt last w) =
        .ok (mpduOf rule (chunkOf j.body j.size i) j.bssid (fragCfg j.frame j.opt last w)) := by
      intro last
      refine build_eq_ok.2 ⟨hts, rule, hrule last w, ?_, rfl⟩
      simp
      omega
    simp only [fragLoop, hb]
    rcases Nat.eq_zero_or_pos left with rfl | hpos
    · simp [fragLoop, afterFrags, fragMpdus, fragMpdu, State.emit]
    · have hne : (left == 0) = false := by simp; omega
      simp only [hne, Bool.false_eq_true, if_false]
      rw [ih, fragMpdus_succ rule j left i w hpos]
      simp only [List.append_assoc, List.singleton_append, List.map_cons, Except.ok.injEq,
        Prod.mk.injEq, and_true]
      have hw : scNextFrag w + BitVec.ofNat 16 (left - 1) = w + BitVec.ofNat 16 left := by
        rw [scNextFrag, BitVec.add_assoc]; congr 1
        apply BitVec.eq_of_toNat_eq
        simp
        omega
      unfold afterFrags
      by_cases h1 : left ≤ 1
      · have hl : left = 1 := by omega
        subst hl
        simp [scNextFrag, State.emit, countFrag]
        cases j.counted <;> simp [State.setSc, State.setCounter, State.dirty]
      · simp only [h1, if_false, show ¬ (left + 1 ≤ 1) by omega, hw, countFrag_countFrag,
          Nat.add_sub_cancel]
        simp [State.emit, countFrag]
        cases j.counted <;> simp [State.setSc, State.setCounter, State.dirty]

end Sys2Proof.Laws
end

