-- ==== Sys2Proof/Laws/Codec.lean ====
section
/-!
SUPPORT. The operand checks the encoders share, and that LLC.DEC inverts the two forms of R69.
-/

namespace Sys2Proof.Laws

open Sys2Proof.Machine

/-! The checks of ETH.ENC and LLC.ENC (R111, R121), as equations. -/

theorem etypeBad_false {e : Nat} (h1 : e < 65536) (h2 : e ≠ 0x8100) : etypeBad e = false := by
  simp only [etypeBad, Bool.or_eq_false_iff, decide_eq_false_iff_not, beq_eq_false_iff_ne]
  exact ⟨by omega, h2⟩

theorem etypeBad_true {e : Nat} (h : 65536 ≤ e ∨ e = 0x8100) : etypeBad e = true := by
  simp only [etypeBad, Bool.or_eq_true, decide_eq_true_eq, beq_iff_eq]
  exact h

theorem prioLimit_false {n : Nat} (h : n < 8) : decide (Config.prioLimit ≤ n) = false := by
  rw [decide_eq_false_iff_not]
  exact Nat.not_le.2 h

theorem prioLimit_true {n : Nat} (h : 8 ≤ n) : decide (Config.prioLimit ≤ n) = true := by
  rw [decide_eq_true_eq]
  exact h

theorem vlanLimit_false {n : Nat} (h : n < 4096) : decide (Config.vlanLimit ≤ n) = false := by
  rw [decide_eq_false_iff_not]
  exact Nat.not_le.2 h

theorem vlanLimit_true {n : Nat} (h : 4096 ≤ n) : decide (Config.vlanLimit ≤ n) = true := by
  rw [decide_eq_true_eq]
  exact h

theorem payLenOk_true {n : Nat} (h : 1 < n) (h' : n ≤ 1500) : payLenOk n = true :=
  payLenOk_iff.2 ⟨h, h'⟩

theorem payLenOk_false {n : Nat} (h : n ≤ 1 ∨ 1500 < n) : payLenOk n = false := by
  rw [← Bool.not_eq_true, payLenOk_iff]
  omega

/-! Reading an LLC/SNAP frame back. -/

/-- The fields an LLC/SNAP frame carries (R69, R124). -/
def llcFieldsOf (p : Bytes) (e : U16) : Option (BitVec 3 × Tag) → LlcDecoded
  | none => ⟨false, 0#3, false, 0#12, e, p⟩
  | some (r, g) => ⟨true, r, g.cfi, g.vid, e, p⟩

theorem llcFieldsOf_etype (p : Bytes) (e : U16) (q : Option (BitVec 3 × Tag)) :
    (llcFieldsOf p e q).etype = e := by
  rcases q with _ | ⟨r, g⟩ <;> rfl

theorem llcFieldsOf_payload (p : Bytes) (e : U16) (q : Option (BitVec 3 × Tag)) :
    (llcFieldsOf p e q).payload = p := by
  rcases q with _ | ⟨r, g⟩ <;> rfl

theorem llcFieldsOf_dot1q (p : Bytes) (e : U16) (q : Option (BitVec 3 × Tag)) :
    (llcFieldsOf p e q).dot1q = q.isSome := by
  rcases q with _ | ⟨r, g⟩ <;> rfl

/-- LLC.DEC inverts the two forms of R69: the fields come back, whatever they are, but that the untagged
form must not carry the ethertype 0x8100, which marks the tagged one (R126). -/
theorem llcDec_llcFrame {p : Bytes} {e : U16} {q : Option (BitVec 3 × Tag)}
    (he : q = none → e ≠ 0x8100#16) : llcDec (llcFrame p e q) = .ok (llcFieldsOf p e q) := by
  cases q with
  | none =>
    have h6 : rdBE16 (llcFrame p e none) 6 = e := by
      have : (llcFrame p e none).drop 6 = be16 e ++ p := by simp [llcFrame, snap]
      have h := rdBE16_drop (llcFrame p e none) 6 0
      rw [← h, this, rdBE16_be16]
    have hl := llcFrame_length p e none
    simp only [Option.isSome_none, Bool.false_eq_true, if_false] at hl
    rw [llcDec, if_neg (by omega), if_neg (by simp [llcFrame, slice, snap]), if_neg (by rw [h6]; exact he rfl), h6]
    simp [llcFieldsOf, llcFrame, snap, be16]
  | some qq =>
    obtain ⟨r, g⟩ := qq
    have h6 : rdBE16 (llcFrame p e (some (r, g))) 6 = 0x8100#16 := by
      have : (llcFrame p e (some (r, g))).drop 6 = be16 0x8100#16 ++ (be16 (tci r g.cfi g.vid) ++ snap ++ be16 e ++ p) := by simp [llcFrame, snap, Config.etypeDot1q]
      have h := rdBE16_drop (llcFrame p e (some (r, g))) 6 0
      rw [← h, this, rdBE16_be16]
    have h8 : rdBE16 (llcFrame p e (some (r, g))) 8 = tci r g.cfi g.vid := by
      have : (llcFrame p e (some (r, g))).drop 8 = be16 (tci r g.cfi g.vid) ++ (snap ++ be16 e ++ p) := by simp [llcFrame, snap, be16]
      have h := rdBE16_drop (llcFrame p e (some (r, g))) 8 0
      rw [← h, this, rdBE16_be16]
    have h16 : rdBE16 (llcFrame p e (some (r, g))) 16 = e := by
      have : (llcFrame p e (some (r, g))).drop 16 = be16 e ++ p := by simp [llcFrame, snap, be16]
      have h := rdBE16_drop (llcFrame p e (some (r, g))) 16 0
      rw [← h, this, rdBE16_be16]
    have hl := llcFrame_length p e (some (r, g))
    simp only [Option.isSome_some, if_true] at hl
    rw [llcDec, if_neg (by omega), if_neg (by simp [llcFrame, slice, snap]), if_pos (show _ = Config.etypeDot1q from h6), if_neg (by omega), if_neg (by simp [llcFrame, slice, snap, be16]), h8, h16]
    simp [llcFieldsOf, llcFrame, snap, be16]

end Sys2Proof.Laws
end

