-- ==== Sys2Proof/Laws/FragSend.lean ====
section
/-!
SUPPORT. FRAG.SEND as a whole: its closed form where it completes, the checks a completed one passed,
that its MPDUs are the chain of R166, and what it leaves alone whatever its operands.
-/

namespace Sys2Proof.Laws

open Sys2Proof.Machine Sys2Proof.Safety

/-- The job of FRAG.SEND (R160). -/
def jobOf (frame : EthFrame) (bssid : MacAddr) (size : Nat) (opt : FragOpt)
    (counted : Option Role) : FragJob := ⟨frame, bssid, size, opt, llcBody frame, counted⟩

/-- The body of a well-formed frame is never too long for the builder (R161). -/
theorem bodyMax_of_wf {f : EthFrame} (h : f.wf = true) : (llcBody f).length ≤ Config.bodyMax :=
  (llcBody_bounds h).2.trans (by decide)

/-- `rataMissing` fails exactly where a frame with both DS flags has both addresses. -/
theorem rataMissing_eq_false {t f : Bool} {ra ta : Option MacAddr} :
    rataMissing t f ra ta = false ↔ (t = true → f = true → ra.isSome = true ∧ ta.isSome = true) := by
  cases t <;> cases f <;> cases ra <;> cases ta <;> simp [rataMissing]

/-- The MPDU at place k of a loop's MPDUs. -/
theorem fragMpdus_getElem? {rule : AddrRule} {j : FragJob} {left i : Nat} {w : U16} {k : Nat}
    {m : MpduRx} (h : (fragMpdus rule j left i w)[k]? = some m) :
    k < left ∧ m = fragMpdu rule j left i w k := by
  simp only [fragMpdus, List.getElem?_map, Option.map_eq_some_iff] at h
  obtain ⟨a, ha, rfl⟩ := h
  rw [List.getElem?_eq_some_iff] at ha
  obtain ⟨h1, h2⟩ := ha
  simp at h1 h2
  exact ⟨h1, by rw [h2]⟩

/-- FRAG.SEND with the internal counter, in closed form (R160, R162). -/
theorem fragSend_counted {r : Nat} {role : Role} {frame : EthFrame} {bssid : MacAddr} {size : Nat}
    {opt : FragOpt} {s : State} (hr : roleOf r = some role) (hf : frame.wf = true)
    (hs : 0 < size) (ho : optOk opt) (hd : s.dirty role = false) (hn : fragCount frame size ≤ 16) :
    ∃ rule, (∀ last w, addrRule (fragCfg frame opt last w) = .ok rule) ∧
      fragSend r frame bssid size opt none s =
        .ok ({ s with
          counters := s.counters.set role
            ⟨scw (scSeq (s.sc role) + 1#12) (BitVec.ofNat 4 (fragCount frame size - 1)), false⟩
          txq := s.txq ++ (fragMpdus rule (jobOf frame bssid size opt (some role))
            (fragCount frame size) 0 (scNextMsdu (s.sc role))).map ser },
          .mpdus (fragMpdus rule (jobOf frame bssid size opt (some role))
            (fragCount frame size) 0 (scNextMsdu (s.sc role)))) := by
  obtain ⟨hts, hda, hra⟩ := ho
  obtain ⟨rule, hrule⟩ := fragRule hda (rataMissing_eq_false.2 hra)
  refine ⟨rule, hrule frame, ?_⟩
  have hL := llcBody_bounds hf
  have hpos : 0 < fragCount frame size := ceilDiv_pos (by omega) hs
  have hz : (size == 0) = false := by simp; omega
  have hn' : decide (Config.fragMax < fragCount frame size) = false := by
    rw [decide_eq_false_iff_not]; exact Nat.not_lt.2 hn
  simp only [fragSend, withRole_some hr, hz, hts, hda, rataMissing_eq_false.2 hra, raiseIf_false,
    Bool.not_true, fragCounted, hd]
  change raiseIf (decide (Config.fragMax < fragCount frame size)) _ (Except.map _ (fragLoop
    (jobOf frame bssid size opt (some role)) (fragCount frame size) _ _ _ _)) = _
  rw [hn', raiseIf_false, fragLoop_eq (rule := rule) hts (hrule frame) (bodyMax_of_wf hf)]
  simp only [Except.map, List.nil_append, afterFrags]
  have hq : ∀ k, k < 16 → scNextMsdu (s.sc role) + BitVec.ofNat 16 k =
      scw (scSeq (s.sc role) + 1#12) (BitVec.ofNat 4 k) := by
    intro k hk
    have := scw_add (scSeq (s.sc role) + 1#12) 0 k (by omega)
    simpa [scNextMsdu] using this
  congr 2
  by_cases h1 : fragCount frame size ≤ 1
  · have he : fragCount frame size = 1 := by omega
    simp [he, State.setDirty, State.setSc, State.setCounter, scNextMsdu, State.sc, State.dirty]
  · simp only [h1, if_false, hq (fragCount frame size - 1) (by omega)]
    simp [countFrag, jobOf, State.setDirty, State.setSc, State.setCounter, State.sc, State.dirty]

/-- FRAG.SEND under an override, in closed form (R160, R164). -/
theorem fragSend_overridden {r : Nat} {role : Role} {frame : EthFrame} {bssid : MacAddr}
    {size : Nat} {opt : FragOpt} {w0 : U16} {s : State} (hr : roleOf r = some role)
    (hf : frame.wf = true) (hs : 0 < size) (ho : optOk opt)
    (hn : (scFrag w0).toNat + fragCount frame size ≤ 16) :
    ∃ rule, (∀ last w, addrRule (fragCfg frame opt last w) = .ok rule) ∧
      fragSend r frame bssid size opt (some w0) s =
        .ok ({ s with
          txq := s.txq ++ (fragMpdus rule (jobOf frame bssid size opt none)
            (fragCount frame size) 0 w0).map ser },
          .mpdus (fragMpdus rule (jobOf frame bssid size opt none)
            (fragCount frame size) 0 w0)) := by
  obtain ⟨hts, hda, hra⟩ := ho
  obtain ⟨rule, hrule⟩ := fragRule hda (rataMissing_eq_false.2 hra)
  refine ⟨rule, hrule frame, ?_⟩
  have hz : (size == 0) = false := by simp; omega
  have hn' : decide (Config.fragMax - 1 < (scFrag w0).toNat + fragCount frame size - 1) = false := by
    rw [decide_eq_false_iff_not]; change ¬ (16 - 1 < _); omega
  simp only [fragSend, withRole_some hr, hz, hts, hda, rataMissing_eq_false.2 hra, raiseIf_false,
    Bool.not_true, fragOverridden]
  change raiseIf (decide (Config.fragMax - 1 < (scFrag w0).toNat + fragCount frame size - 1)) _
    (Except.map _ (fragLoop (jobOf frame bssid size opt none) (fragCount frame size) _ _ _ _)) = _
  rw [hn', raiseIf_false, fragLoop_eq (rule := rule) hts (hrule frame) (bodyMax_of_wf hf)]
  simp [Except.map, afterFrags, countFrag, jobOf]

/-- FRAG.SEND completes only where its checks pass (R160). -/
theorem fragSend_ok_checks {r : Nat} {frame : EthFrame} {bssid : MacAddr} {size : Nat}
    {opt : FragOpt} {ov : Option U16} {s : State} {p : State × Result}
    (h : fragSend r frame bssid size opt ov s = .ok p) :
    ∃ role, roleOf r = some role ∧ 0 < size ∧ optOk opt ∧
      (ov = none → s.dirty role = false ∧ fragCount frame size ≤ 16) ∧
      (∀ w0, ov = some w0 → (scFrag w0).toNat + fragCount frame size ≤ 16) := by
  simp only [fragSend, withRole_eq_ok, raiseIf_eq_ok, Bool.not_eq_false'] at h
  obtain ⟨role, hr, hz, hts, hda, hra, hk⟩ := h
  have hz' : 0 < size := by
    simp at hz; omega
  refine ⟨role, hr, hz', ⟨hts, hda, rataMissing_eq_false.1 hra⟩, ?_, ?_⟩
  · rintro rfl
    simp only [fragCounted, raiseIf_eq_ok, decide_eq_false_iff_not, Nat.not_lt] at hk
    exact ⟨hk.1, hk.2.1⟩
  · rintro w0 rfl
    simp only [fragOverridden, raiseIf_eq_ok, decide_eq_false_iff_not, Nat.not_lt] at hk
    have := hk.1
    change _ ≤ 16 - 1 at this
    change _ + ceilDiv _ _ ≤ 16
    omega

/-- Every MPDU of a loop is a consistent one (R28). -/
theorem fragMpdu_wf {rule : AddrRule} {frame : EthFrame} {bssid : MacAddr} {size : Nat}
    {opt : FragOpt} {c : Option Role} {left i : Nat} {w : U16} (hts : tsDefined opt.ts = true)
    (hrule : ∀ last w, addrRule (fragCfg frame opt last w) = .ok rule) (hf : frame.wf = true)
    (k : Nat) : (fragMpdu rule (jobOf frame bssid size opt c) left i w k).wf = true := by
  refine build_wf (body := chunkOf (llcBody frame) size (i + k)) (bssid := bssid)
    (cfg := fragCfg frame opt (k + 1 == left) (w + BitVec.ofNat 16 k)) ?_
  refine build_eq_ok.2 ⟨hts, rule, hrule _ _, ?_, rfl⟩
  have := bodyMax_of_wf hf
  simp
  omega

/-- The MPDUs of a loop over a whole body are the chain of R166. -/
theorem fragMpdus_chain {rule : AddrRule} {frame : EthFrame} {bssid : MacAddr} {size : Nat}
    {opt : FragOpt} {c : Option Role} {q : BitVec 12} {f0 : BitVec 4} (ho : optOk opt)
    (hrule : ∀ last w, addrRule (fragCfg frame opt last w) = .ok rule) (hf : frame.wf = true)
    (hs : 0 < size) (hn : f0.toNat + fragCount frame size ≤ 16) :
    isFragChain frame bssid size opt q f0.toNat
      (fragMpdus rule (jobOf frame bssid size opt c) (fragCount frame size) 0 (scw q f0)) := by
  refine ⟨by simp, ?_, ?_, ?_⟩
  · have h := flatMap_chunks_all (llcBody frame) size hs
    simp only [fragMpdus, List.flatMap_map]
    change (List.range (ceilDiv _ _)).flatMap _ = _
    simpa [fragMpdu, jobOf] using h
  · intro m hm m' hm'
    simp only [fragMpdus, List.mem_map] at hm hm'
    obtain ⟨k, _, rfl⟩ := hm
    obtain ⟨k', _, rfl⟩ := hm'
    simp only [fragMpdu, mpduOf_addrs]
    exact selectAddr_congr rfl rfl _ _
  · intro i m hm
    obtain ⟨hi, rfl⟩ := fragMpdus_getElem? hm
    refine ⟨fragMpdu_wf ho.1 hrule hf i, rfl, by simp [fragMpdu, jobOf], ?_⟩
    have hw : scw q f0 + BitVec.ofNat 16 i = scw q (BitVec.ofNat 4 (f0.toNat + i)) := by
      have := scw_add q f0.toNat i (by omega)
      simpa using this
    have hl : (!(i + 1 == fragCount frame size)) = decide (i + 1 < fragCount frame size) := by
      rw [Bool.eq_iff_iff]; simp; omega
    simp only [fragMpdu, mpduOf_cfg, jobOf, fragCfg, hw, fragMpdus_length, hl]
/-- Advancing the counter writes one counter and no dirty bit (R160). -/
theorem countFrag_fields (j : FragJob) (w : U16) (s : State) :
    (countFrag j w s).st = s.st ∧ (countFrag j w s).draws = s.draws ∧
      (countFrag j w s).pending = s.pending ∧ (countFrag j w s).ended = s.ended ∧
      (∀ role, (countFrag j w s).dirty role = s.dirty role) ∧
      (∀ role, j.counted ≠ some role → (countFrag j w s).counters.get role = s.counters.get role) := by
  unfold countFrag
  cases j.counted with
  | none => simp
  | some c =>
    refine ⟨rfl, rfl, rfl, rfl, fun role => ?_, fun role h => ?_⟩
    · cases c <;> cases role <;> rfl
    · exact get_set_other _ (fun h' => h (by rw [h'])) _

/-- What the loop of FRAG.SEND leaves alone, and what it emits, whatever its operands. -/
theorem fragLoop_frame {j : FragJob} {left i : Nat} {w : U16} {s t : State} {out out' : List MpduRx}
    (h : fragLoop j left i w s out = .ok (t, out')) :
    t.st = s.st ∧ t.draws = s.draws ∧ t.pending = s.pending ∧ t.ended = s.ended ∧
      (∀ role, t.dirty role = s.dirty role) ∧
      (∀ role, j.counted ≠ some role → t.counters.get role = s.counters.get role) ∧
      ∃ ms, out' = out ++ ms ∧ t.txq = s.txq ++ ms.map ser ∧ ∀ m ∈ ms, m.wf = true := by
  induction left generalizing i w s out with
  | zero =>
    simp only [fragLoop, Except.ok.injEq, Prod.mk.injEq] at h
    obtain ⟨rfl, rfl⟩ := h
    exact ⟨rfl, rfl, rfl, rfl, fun _ => rfl, fun _ _ => rfl, [], by simp⟩
  | succ left ih =>
    rw [fragLoop] at h
    cases hb : build (chunkOf j.body j.size i) j.bssid (fragCfg j.frame j.opt (left == 0) w) with
    | error x => simp [hb] at h
    | ok m =>
      simp only [hb] at h
      split at h
      · obtain ⟨h1, h2, h3, h4, h5, h6, ms, rfl, h7, h8⟩ := ih h
        exact ⟨h1, h2, h3, h4, h5, h6, m :: ms, by simp, by simpa using h7, by
          simpa [build_wf hb] using h8⟩
      · obtain ⟨h1, h2, h3, h4, h5, h6, ms, rfl, h7, h8⟩ := ih h
        obtain ⟨c1, c2, c3, c4, c5, c6⟩ := countFrag_fields j (scNextFrag w) (s.emit (ser m))
        exact ⟨h1.trans c1, h2.trans c2, h3.trans c3, h4.trans c4,
          fun role => (h5 role).trans (c5 role), fun role hr => (h6 role hr).trans (c6 role hr),
          m :: ms, by simp, by simpa using h7, by simpa [build_wf hb] using h8⟩

/-- What a completed FRAG.SEND leaves alone and what it emits, whatever its operands (R160). -/
theorem fragSend_frame {r : Nat} {frame : EthFrame} {bssid : MacAddr} {size : Nat}
    {opt : FragOpt} {ov : Option U16} {s t : State} {res : Result}
    (h : fragSend r frame bssid size opt ov s = .ok (t, res)) :
    t.st = s.st ∧ t.draws = s.draws ∧ t.pending = s.pending ∧ t.ended = s.ended ∧
      (∀ role, t.dirty role = s.dirty role) ∧
      (∀ role, roleOf r ≠ some role → t.counters.get role = s.counters.get role) ∧
      (ov ≠ none → t.counters = s.counters) ∧
      ∃ ms, res = .mpdus ms ∧ t.txq = s.txq ++ ms.map ser ∧ ∀ m ∈ ms, m.wf = true := by
  simp only [fragSend, withRole_eq_ok, raiseIf_eq_ok] at h
  obtain ⟨role, hr, -, -, -, -, hk⟩ := h
  cases ov with
  | none =>
    simp only [fragCounted, raiseIf_eq_ok, Except.map] at hk
    obtain ⟨hd, -, hk⟩ := hk
    split at hk
    · cases hk
    · rename_i p hp
      obtain ⟨t', out⟩ := p
      simp only [Except.ok.injEq, Prod.mk.injEq] at hk
      obtain ⟨rfl, rfl⟩ := hk
      obtain ⟨h1, h2, h3, h4, h5, h6, ms, h7, h8, h9⟩ := fragLoop_frame hp
      simp only [List.nil_append] at h7
      subst h7
      refine ⟨h1, h2, h3, h4, fun role' => ?_, fun role' hne => ?_, by simp, out, rfl, h8, h9⟩
      · by_cases he : role' = role
        · subst he; simp [hd]
        · have := h5 role'
          simp only [State.dirty, setDirty_counters, get_set_other _ he, setSc_counters] at this ⊢
          exact this
      · have hn : role' ≠ role := fun h => hne (by rw [h, hr])
        have := h6 role' (by simpa using fun h => hn h.symm)
        simpa [get_set_other _ hn] using this
  | some w0 =>
    simp only [fragOverridden, raiseIf_eq_ok, Except.map] at hk
    obtain ⟨-, hk⟩ := hk
    split at hk
    · cases hk
    · rename_i p hp
      obtain ⟨t', out⟩ := p
      simp only [Except.ok.injEq, Prod.mk.injEq] at hk
      obtain ⟨rfl, rfl⟩ := hk
      obtain ⟨h1, h2, h3, h4, h5, h6, ms, h7, h8, h9⟩ := fragLoop_frame hp
      simp only [List.nil_append] at h7
      subst h7
      have hc : ∀ role, t'.counters.get role = s.counters.get role := fun role => h6 role (by simp)
      refine ⟨h1, h2, h3, h4, h5, fun role' _ => hc role', fun _ => ?_, out, rfl, h8, h9⟩
      have ha := hc .accessPoint
      have hs := hc .station
      simp only [Counters.get] at ha hs
      cases ht : t'.counters; cases hs' : s.counters
      simp_all

/-- What a FRAG.SEND that completed has shown: its operands passed the checks, its result is the chain
of R166 under the sequence control it started from, and where the counter stands (R162, R164). -/
theorem fragSend_done {r : Nat} {role} {frame : EthFrame} {bssid : MacAddr} {size : Nat} {opt : FragOpt}
    {ov : Option U16} {s t : State} {out : List MpduRx} (hf : frame.wf = true) (hr : roleOf r = some role)
    (h : exec (.fragSend r frame bssid size opt ov) s = .next t)
    (he : t.ended = s.ended ++ [.completed (.mpdus out)]) :
    0 < size ∧ optOk opt ∧ (let w := ov.getD (scw (scSeq (s.sc role) + 1#12) 0#4); (scFrag w).toNat + fragCount frame size ≤ 16 ∧
      isFragChain frame bssid size opt (scSeq w) (scFrag w).toNat out ∧ t.txq = s.txq ++ out.map ser ∧
      (ov = none → t.sc role = scw (scSeq w) (BitVec.ofNat 4 (fragCount frame size - 1)))) := by
  simp only [exec, execFragSend] at h
  rcases issue_cases s (fragSend r frame bssid size opt ov s) with ⟨_, he'⟩ | ⟨h', t', res, hk, he'⟩ | ⟨h', x, hk, he'⟩
  · rw [he'] at h; cases h; simp at he
  · obtain ⟨role', hr', hs, ho, h1, h2⟩ := fragSend_ok_checks hk
    rw [hr] at hr'; cases hr'
    refine ⟨hs, ho, ?_⟩
    rw [he'] at h; cases h
    cases ov with
    | none =>
      obtain ⟨hd, hn⟩ := h1 rfl
      obtain ⟨rule, hrule, heq⟩ := fragSend_counted (bssid := bssid) hr hf hs ho hd hn
      rw [heq] at hk; cases hk
      simp at he; subst he
      refine ⟨by simpa using hn, ?_, rfl, fun _ => ?_⟩
      · rw [show scNextMsdu (s.sc role) = scw (scSeq (s.sc role) + 1#12) 0#4 from rfl]
        simpa only [Option.getD_none, scSeq_scw, scFrag_scw] using fragMpdus_chain (c := some role) (q := scSeq (s.sc role) + 1#12) (f0 := 0#4) (bssid := bssid) ho hrule hf hs (by simpa using hn)
      · simp [State.sc]
    | some w0 =>
      have hn := h2 w0 rfl
      obtain ⟨rule, hrule, heq⟩ := fragSend_overridden (s := s) (bssid := bssid) hr hf hs ho hn
      rw [heq] at hk; cases hk
      simp at he; subst he
      refine ⟨hn, ?_, rfl, by simp⟩
      have := fragMpdus_chain (c := none) (q := scSeq w0) (f0 := scFrag w0) (bssid := bssid) ho hrule hf hs hn
      rw [scw_fields] at this; exact this
  · rw [he'] at h; cases h; simp at he

/-- `ceil(L / S)` chunks of S bytes reach the end of the body, and one fewer does not (R162). -/
theorem ceilDiv_bounds {L S : Nat} (hL : 0 < L) (hS : 0 < S) : (ceilDiv L S - 1) * S < L ∧ L ≤ ceilDiv L S * S ∧ 0 < ceilDiv L S := by
  have h1 := le_ceilDiv_mul L S hS
  have h2 := ceilDiv_pos hL hS
  refine ⟨?_, h1, h2⟩
  have : ceilDiv L S * S ≤ L + S - 1 := Nat.div_mul_le_self _ _
  obtain ⟨k, hk⟩ := Nat.exists_eq_succ_of_ne_zero (show ceilDiv L S ≠ 0 by omega)
  rw [hk] at this ⊢
  simp [Nat.succ_mul] at this ⊢
  omega

end Sys2Proof.Laws
end

