-- ==== Sys2Proof/Laws/Raises.lean ====
section
/-!
SUPPORT. What the commands raise is always a fault of R203, never a refusal: one lemma per way a
pseudocode is put together, then one per command.
-/

namespace Sys2Proof.Laws

open Sys2Proof.Machine Sys2Proof.Safety

variable {α β : Type}

/-- Whatever this pseudocode raises has the code of a fault (R203, R208). -/
def RaisesFaults (e : Except Exc α) : Prop := ∀ x, e = .error x → causeCode x.cause ∈ faultCodes

theorem raises_ok (a : α) : RaisesFaults (.ok a : Except Exc α) := fun _ h => by cases h

theorem raises_error {x : Exc} (h : causeCode x.cause ∈ faultCodes) :
    RaisesFaults (.error x : Except Exc α) := fun _ hx => by cases hx; exact h

/-- A check raises its own cause or whatever follows it raises. -/
theorem raises_raiseIf {c : Bool} {x : Exc} {k : Except Exc α}
    (h : causeCode x.cause ∈ faultCodes) (hk : RaisesFaults k) : RaisesFaults (raiseIf c x k) := by
  cases c
  · exact hk
  · exact raises_error h

theorem raises_map {f : α → β} {e : Except Exc α} (h : RaisesFaults e) :
    RaisesFaults (e.map f) := by
  cases e with
  | ok a => exact raises_ok _
  | error x => exact raises_error (h x rfl)

theorem raises_withRole {r : Nat} {k : Role → Except Exc α} (h : ∀ role, RaisesFaults (k role)) :
    RaisesFaults (withRole r k) := by
  unfold withRole
  cases roleOf r with
  | none => exact raises_error (by decide : (0x1A#8 : Byte) ∈ faultCodes)
  | some role => exact h role

theorem raises_macMk (b : Bytes) : RaisesFaults (macMk b) :=
  raises_raiseIf (by decide : (0x10#8 : Byte) ∈ faultCodes) (raises_ok _)

theorem raises_payGen (n : Nat) (s : State) : RaisesFaults (payGen n s) :=
  raises_raiseIf (by decide : (0x11#8 : Byte) ∈ faultCodes) (raises_ok _)

theorem raises_ethEnc (dst src : MacAddr) (prio length etype : Nat) (tag : Option TagArg)
    (s : State) : RaisesFaults (ethEnc dst src prio length etype tag s) := by
  refine raises_raiseIf (by decide : (0x12#8 : Byte) ∈ faultCodes) <|
    raises_raiseIf (by decide : (0x11#8 : Byte) ∈ faultCodes) <|
    raises_raiseIf (by decide : (0x14#8 : Byte) ∈ faultCodes) ?_
  cases tag with
  | none => exact raises_ok _
  | some t => exact raises_raiseIf (by decide : (0x13#8 : Byte) ∈ faultCodes) (raises_ok _)

theorem raises_llcEnc (payload : Bytes) (etype : Nat) (q : Option Dot1qArg) :
    RaisesFaults (llcEnc payload etype q) := by
  refine raises_raiseIf (by decide : (0x14#8 : Byte) ∈ faultCodes) ?_
  cases q with
  | none => exact raises_ok _
  | some t =>
    exact raises_raiseIf (by decide : (0x12#8 : Byte) ∈ faultCodes) <|
      raises_raiseIf (by decide : (0x13#8 : Byte) ∈ faultCodes) (raises_ok _)

theorem raises_fcPack (ts : Nat) (flags : FcFlags) : RaisesFaults (fcPack ts flags) :=
  raises_raiseIf (by decide : (0x15#8 : Byte) ∈ faultCodes) (raises_ok _)

theorem raises_fcUnpack (v : U16) : RaisesFaults (fcUnpack v) :=
  raises_raiseIf (by decide : (0x15#8 : Byte) ∈ faultCodes) (raises_ok _)

theorem raises_addrRule (cfg : BuildCfg) : RaisesFaults (addrRule cfg) := by
  unfold addrRule
  split
  · exact raises_ok _
  split
  · split
    · exact raises_ok _
    · exact raises_ok _
    · exact raises_ok _
    split
    · exact raises_ok _
    · exact raises_error (by decide : (0x17#8 : Byte) ∈ faultCodes)
  · exact raises_error (by decide : (0x16#8 : Byte) ∈ faultCodes)

theorem raises_build (body : Bytes) (bssid : MacAddr) (cfg : BuildCfg) :
    RaisesFaults (build body bssid cfg) := by
  refine raises_raiseIf (by decide : (0x15#8 : Byte) ∈ faultCodes) ?_
  split
  · rename_i x hx
    exact raises_error (raises_addrRule cfg x hx)
  · exact raises_raiseIf (by decide : (0x18#8 : Byte) ∈ faultCodes) (raises_ok _)

theorem raises_addRetry (m : MpduRx) : RaisesFaults (addRetry m) :=
  raises_raiseIf (by decide : (0x19#8 : Byte) ∈ faultCodes) (raises_ok _)

theorem raises_seqReset (r : Nat) (s : State) : RaisesFaults (seqReset r s) :=
  raises_withRole fun _ => raises_ok _

theorem raises_seqMsdu (r : Nat) (s : State) : RaisesFaults (seqMsdu r s) :=
  raises_withRole fun _ => raises_raiseIf (by decide : (0x1D#8 : Byte) ∈ faultCodes) (raises_ok _)

theorem raises_seqFrag (r : Nat) (s : State) : RaisesFaults (seqFrag r s) :=
  raises_withRole fun _ => raises_raiseIf (by decide : (0x1D#8 : Byte) ∈ faultCodes) <|
    raises_raiseIf (by decide : (0x1C#8 : Byte) ∈ faultCodes) (raises_ok _)

/-- The loop raises what MPDU.BUILD raises. -/
theorem raises_fragLoop (j : FragJob) (left : Nat) : ∀ (i : Nat) (w : U16) (s : State)
    (out : List MpduRx), RaisesFaults (fragLoop j left i w s out) := by
  induction left with
  | zero => exact fun _ _ _ _ => raises_ok _
  | succ left ih =>
    intro i w s out
    unfold fragLoop
    split
    · rename_i x hx
      exact raises_error (raises_build _ _ _ x hx)
    · split
      · exact ih _ _ _ _
      · exact ih _ _ _ _

theorem raises_fragSend (r : Nat) (frame : EthFrame) (bssid : MacAddr) (size : Nat) (opt : FragOpt)
    (ov : Option U16) (s : State) : RaisesFaults (fragSend r frame bssid size opt ov s) := by
  refine raises_withRole fun role =>
    raises_raiseIf (by decide : (0x1B#8 : Byte) ∈ faultCodes) <|
    raises_raiseIf (by decide : (0x15#8 : Byte) ∈ faultCodes) <|
    raises_raiseIf (by decide : (0x16#8 : Byte) ∈ faultCodes) <|
    raises_raiseIf (by decide : (0x17#8 : Byte) ∈ faultCodes) ?_
  cases ov with
  | none =>
    exact raises_raiseIf (by decide : (0x1D#8 : Byte) ∈ faultCodes) <|
      raises_raiseIf (by decide : (0x1C#8 : Byte) ∈ faultCodes) <|
      raises_map (raises_fragLoop _ _ _ _ _ _)
  | some w0 =>
    exact raises_raiseIf (by decide : (0x1C#8 : Byte) ∈ faultCodes) <|
      raises_map (raises_fragLoop _ _ _ _ _ _)

theorem raises_parseRec (bit : Nat) (rec : Bytes) : RaisesFaults (parseRec bit rec) := by
  unfold parseRec
  split
  · exact raises_ok _
  refine raises_raiseIf (by decide : (0x15#8 : Byte) ∈ faultCodes) ?_
  split <;> exact raises_ok _

theorem raises_mpduThlen (v : U16) (extIv : Bool) (n : Nat) : RaisesFaults (mpduThlen v extIv n) :=
  raises_raiseIf (by decide : (0x15#8 : Byte) ∈ faultCodes) (raises_ok _)

/-- E_MISMATCH is a fault. -/
theorem mismatch_mem : causeCode .mismatch ∈ faultCodes := by decide

/-- E_CMP_DECODE is a fault. -/
theorem cmpDecode_mem : causeCode .cmpDecode ∈ faultCodes := by decide

theorem raises_compareTail (d : LlcDecoded) (exp : Expect) : RaisesFaults (compareTail d exp) :=
  raises_raiseIf mismatch_mem (raises_raiseIf mismatch_mem (raises_ok _))

theorem raises_cmpDown (ms : List MpduRx) (exp : Expect) : RaisesFaults (cmpDown ms exp) := by
  unfold cmpDown
  split
  · exact raises_error (by decide : (0x1E#8 : Byte) ∈ faultCodes)
  split
  · exact raises_error (by decide : (0x20#8 : Byte) ∈ faultCodes)
  split
  · exact raises_error cmpDecode_mem
  · exact raises_raiseIf mismatch_mem (raises_raiseIf mismatch_mem (raises_compareTail _ _))

theorem raises_cmpUp (tag : U32) (t : Decoded MpduTx) (exp : Expect) (ap : MacAddr) :
    RaisesFaults (cmpUp tag t exp ap) := by
  unfold cmpUp
  split
  · exact raises_error cmpDecode_mem
  refine raises_raiseIf (by decide : (0x23#8 : Byte) ∈ faultCodes) <|
    raises_raiseIf (by decide : (0x24#8 : Byte) ∈ faultCodes) <|
    raises_raiseIf mismatch_mem <| raises_raiseIf mismatch_mem <| raises_raiseIf mismatch_mem <|
    raises_raiseIf cmpDecode_mem ?_
  split
  · exact raises_error cmpDecode_mem
  · exact raises_raiseIf mismatch_mem (raises_compareTail _ _)

end Sys2Proof.Laws
end

