-- ==== Sys2Proof/Laws/Commands.lean ====
section
/-!
SUPPORT. Everything a command can do to the state, said once: a refusal, a fault, or a completion
with what the completion leaves alone (R14, R47). A statement about all commands is a case split on
`exec_cases`.
-/

namespace Sys2Proof.Laws

open Sys2Proof.Machine Sys2Proof.Safety

/-- How many bytes a completed command has drawn (R103). -/
def drawnBy : Instr → Nat
  | .payGen n => n
  | .ethEnc _ _ _ length _ _ => length
  | _ => 0

/-- What the completion of a command other than FCB.RESET leaves alone and hands back: from `s` its
pseudocode made `t` and the result `r`. -/
def Completes (i : Instr) (s t : State) (r : Result) : Prop :=
  t.st = s.st ∧ t.pending = s.pending ∧ t.ended = s.ended ∧ t.draws = s.draws + drawnBy i ∧
    (countersClean s.counters → countersClean t.counters) ∧
    (∀ role, (∀ n, namedSource i = some n → roleOf n ≠ some role) →
      t.counters.get role = s.counters.get role) ∧
    (isPure i = true → t = s) ∧
    (∃ ms : List MpduRx, t.txq = s.txq ++ ms.map ser ∧ ((¬ ∃ out, r = .mpdus out) → ms = []) ∧
      (∀ out, r = .mpdus out → ms = out) ∧ ∀ m ∈ ms, m.wf = true) ∧
    (i.wf = true → resultOk r)

/-- Replacing a counter by a clean one keeps every counter clean. -/
theorem clean_set {cs : Counters} {role : Role} {c : Counter} (h : countersClean cs)
    (hc : c.dirty = false) : countersClean (cs.set role c) := by
  cases role
  · exact ⟨hc, h.2⟩
  · exact ⟨h.1, hc⟩

/-- No counter is dirty exactly where none of the sources' is. -/
theorem clean_iff {cs : Counters} : countersClean cs ↔ ∀ role, (cs.get role).dirty = false :=
  ⟨fun h role => by cases role; exacts [h.1, h.2], fun h => ⟨h .accessPoint, h .station⟩⟩

/-- A command that writes no state completes as `Completes` says. -/
theorem completes_pure {i : Instr} {s : State} {r : Result} (hd : drawnBy i = 0)
    (hr : ¬ ∃ out, r = .mpdus out) (hok : i.wf = true → resultOk r) : Completes i s s r :=
  ⟨rfl, rfl, rfl, by rw [hd]; rfl, id, fun _ _ => rfl, fun _ => rfl,
    ⟨[], by simp, fun _ => rfl, fun out h => absurd ⟨out, h⟩ hr, by simp⟩, hok⟩

/-- A command that only replaces its source's counter by one as clean completes as `Completes` says. -/
theorem completes_counter {i : Instr} {s : State} {r : Result} {n : Nat} {role : Role} {c : Counter}
    (hs : namedSource i = some n) (hn : roleOf n = some role) (hp : isPure i = false)
    (hd : drawnBy i = 0) (hc : c.dirty = false) (hr : ¬ ∃ out, r = .mpdus out)
    (hok : resultOk r) : Completes i s (s.setCounter role c) r := by
  refine ⟨rfl, rfl, rfl, by rw [hd]; rfl, fun h => clean_set h hc, fun role' h => ?_, by simp [hp],
    ⟨[], by simp, fun _ => rfl, fun out h => absurd ⟨out, h⟩ hr, by simp⟩, fun _ => hok⟩
  exact get_set_other _ (fun he => h n hs (by rw [he, hn])) c

/-- A command that draws bytes completes as `Completes` says. -/
theorem completes_draw {i : Instr} {s : State} {r : Result} (hp : isPure i = false)
    (hr : ¬ ∃ out, r = .mpdus out) (hok : resultOk r) :
    Completes i s (s.afterDraw (drawnBy i)) r :=
  ⟨rfl, rfl, rfl, rfl, id, fun _ _ => rfl, by simp [hp],
    ⟨[], by simp, fun _ => rfl, fun out h => absurd ⟨out, h⟩ hr, by simp⟩, fun _ => hok⟩

/-- FRAG.SEND and its spellings complete as `Completes` says. -/
theorem completes_frag {i : Instr} {r : Nat} {frame : EthFrame} {bssid : MacAddr} {size : Nat}
    {opt : FragOpt} {ov : Option U16} {s t : State} {res : Result} (hs : namedSource i = some r)
    (hp : isPure i = false) (hd : drawnBy i = 0)
    (h : fragSend r frame bssid size opt ov s = .ok (t, res)) : Completes i s t res := by
  obtain ⟨h1, h2, h3, h4, h5, h6, h7, ms, rfl, h8, h9⟩ := fragSend_frame h
  refine ⟨h1, h3, h4, by rw [hd, h2]; rfl, fun hc => ?_, fun role hr => h6 role (hr r hs),
    by simp [hp], ⟨ms, h8, fun h => absurd ⟨ms, rfl⟩ h, fun out h => by cases h; rfl, h9⟩,
    fun _ => h9⟩
  exact clean_iff.2 fun role => (h5 role).trans (clean_iff.1 hc role)

/-- A pure pseudocode in the form of `issue`. -/
theorem issue_pure_ok {s t : State} {res : Except Exc Result} {r : Result}
    (h : (res.map fun r => (s, r)) = .ok (t, r)) : t = s ∧ res = .ok r := by
  cases res <;> simp [Except.map] at h ⊢
  exact ⟨h.1.symm, h.2⟩

/-- A pseudocode whose result is wrapped by a constructor completes where the pseudocode does. -/
theorem map_ok {α β : Type} {f : α → β} {x : Except Exc α} {b : β} (h : x.map f = .ok b) :
    ∃ a, x = .ok a ∧ b = f a := by
  cases x <;> simp [Except.map] at h ⊢
  exact h.symm

/-- ETH.ENC completes only where its checks pass, with the frame of R111. -/
theorem ethEnc_ok {dst src : MacAddr} {prio length etype : Nat} {tag : Option TagArg}
    {s t : State} {r : Result} (h : ethEnc dst src prio length etype tag s = .ok (t, r)) :
    prio < 8 ∧ (1 < length ∧ length ≤ 1500) ∧ etype < 65536 ∧ etype ≠ 0x8100 ∧
      (∀ g, tag = some g → g.vid < 4096) ∧ t = s.afterDraw length ∧
      r = .ethFrame (ethFrameOf dst src prio etype tag (s.drawn length)) := by
  simp only [ethEnc, raiseIf_eq_ok, decide_eq_false_iff_not, Nat.not_le, Bool.not_eq_false',
    payLenOk_iff, etypeBad, Bool.or_eq_false_iff, beq_eq_false_iff_ne] at h
  obtain ⟨h1, h2, ⟨h3, h4⟩, h5⟩ := h
  refine ⟨h1, h2, h3, h4, ?_⟩
  unfold checkTagVid at h5
  cases tag with
  | none =>
    simp only [Except.ok.injEq, Prod.mk.injEq] at h5
    exact ⟨by simp, h5.1.symm, h5.2.symm⟩
  | some g =>
    simp only [raiseIf_eq_ok, decide_eq_false_iff_not, Nat.not_le, Except.ok.injEq,
      Prod.mk.injEq] at h5
    refine ⟨?_, h5.2.1.symm, h5.2.2.symm⟩
    rintro g' hg
    cases hg
    exact h5.1

/-- The frame ETH.ENC returns is well formed (R27, R111). -/
theorem ethFrameOf_wf {dst src : MacAddr} {prio etype : Nat} {tag : Option TagArg} {p : Bytes}
    (h1 : 1 < p.length ∧ p.length ≤ 1500) (h2 : etype < 65536) (h3 : etype ≠ 0x8100) :
    (ethFrameOf dst src prio etype tag p).wf = true := by
  simp only [EthFrame.wf, ethFrameOf, Bool.and_eq_true, payLenOk_iff, bne_iff_ne, ne_eq]
  refine ⟨h1, fun h => h3 ?_⟩
  have := congrArg BitVec.toNat h
  simp only [BitVec.toNat_ofNat, Config.etypeDot1q] at this
  omega

/-- The two last comparisons complete only with the pass. -/
theorem compareTail_ok {d : LlcDecoded} {exp : Expect} {r : Result}
    (h : compareTail d exp = .ok r) : r = .pass := by
  simp only [compareTail, raiseIf_eq_ok, Except.ok.injEq] at h
  exact h.2.2.symm

/-- CMP.DOWN completes only with the pass (R191). -/
theorem cmpDown_ok {ms : List MpduRx} {exp : Expect} {r : Result} (h : cmpDown ms exp = .ok r) :
    r = .pass := by
  unfold cmpDown at h
  split at h
  · cases h
  · split at h
    · cases h
    · split at h
      · cases h
      · simp only [raiseIf_eq_ok] at h
        exact compareTail_ok h.2.2

/-- CMP.UP completes only with the pass (R194). -/
theorem cmpUp_ok {tag : U32} {t : Decoded MpduTx} {exp : Expect} {ap : MacAddr} {r : Result}
    (h : cmpUp tag t exp ap = .ok r) : r = .pass := by
  unfold cmpUp at h
  split at h
  · cases h
  · simp only [raiseIf_eq_ok, compareBody] at h
    obtain ⟨-, -, -, -, -, -, h⟩ := h
    split at h
    · cases h
    · simp only [raiseIf_eq_ok] at h
      exact compareTail_ok h.2

/-- What a completed pseudocode did, for every command but FCB.RESET; the shared frame of all; and what it
raises is a fault. -/
theorem exec_issue (i : Instr) (h : i ≠ .fcbReset) (s : State) :
    ∃ body, exec i s = s.issue body ∧ RaisesFaults body ∧
      ∀ t r, body = .ok (t, r) → Completes i s t r := by
  cases i with
  | fcbReset => exact absurd rfl h
  | macMk b =>
    refine ⟨_, rfl, raises_map (raises_map (raises_macMk _)), fun t r hb => ?_⟩
    obtain ⟨rfl, hr⟩ := issue_pure_ok hb
    obtain ⟨a, -, rfl⟩ := map_ok hr
    exact completes_pure rfl (by simp) (fun _ => trivial)
  | payGen n =>
    refine ⟨payGen n s, rfl, raises_payGen _ _, fun t r hb => ?_⟩
    simp only [payGen, raiseIf_eq_ok, Except.ok.injEq, Prod.mk.injEq] at hb
    obtain ⟨-, rfl, rfl⟩ := hb
    exact completes_draw rfl (by simp) trivial
  | ethEnc dst src prio length etype tag =>
    refine ⟨ethEnc dst src prio length etype tag s, rfl,
      raises_ethEnc _ _ _ _ _ _ _, fun t r hb => ?_⟩
    obtain ⟨-, h2, h3, h4, -, rfl, rfl⟩ := ethEnc_ok hb
    exact completes_draw rfl (by simp) (ethFrameOf_wf (by simpa using h2) h3 h4)
  | ethDec b =>
    refine ⟨Except.map (fun r => (s, r)) (.ok (.ethDecoded (ethDec b))), rfl,
      raises_map (raises_ok _), fun t r hb => ?_⟩
    obtain ⟨rfl, hr⟩ := issue_pure_ok hb
    cases hr
    exact completes_pure rfl (by simp) (fun _ => trivial)
  | llcEnc payload etype q =>
    refine ⟨_, rfl, raises_map (raises_map (raises_llcEnc _ _ _)), fun t r hb => ?_⟩
    obtain ⟨rfl, hr⟩ := issue_pure_ok hb
    obtain ⟨a, -, rfl⟩ := map_ok hr
    exact completes_pure rfl (by simp) (fun _ => trivial)
  | llcDec b =>
    refine ⟨Except.map (fun r => (s, r)) (.ok (.llcDecoded (llcDec b))), rfl,
      raises_map (raises_ok _), fun t r hb => ?_⟩
    obtain ⟨rfl, hr⟩ := issue_pure_ok hb
    cases hr
    exact completes_pure rfl (by simp) (fun _ => trivial)
  | fcPack ts flags =>
    refine ⟨_, rfl, raises_map (raises_map (raises_fcPack _ _)), fun t r hb => ?_⟩
    obtain ⟨rfl, hr⟩ := issue_pure_ok hb
    obtain ⟨a, -, rfl⟩ := map_ok hr
    exact completes_pure rfl (by simp) (fun _ => trivial)
  | fcUnpack v =>
    refine ⟨_, rfl, raises_map (raises_map (raises_fcUnpack _)), fun t r hb => ?_⟩
    obtain ⟨rfl, hr⟩ := issue_pure_ok hb
    obtain ⟨a, -, rfl⟩ := map_ok hr
    exact completes_pure rfl (by simp) (fun _ => trivial)
  | mpduBuild body bssid cfg =>
    refine ⟨_, rfl, raises_map (raises_map (raises_build _ _ _)), fun t r hb => ?_⟩
    obtain ⟨rfl, hr⟩ := issue_pure_ok hb
    obtain ⟨m, hm, rfl⟩ := map_ok hr
    exact completes_pure rfl (by simp) (fun _ => build_wf hm)
  | mpduRetry m =>
    refine ⟨_, rfl, raises_map (raises_map (raises_addRetry _)), fun t r hb => ?_⟩
    obtain ⟨rfl, hr⟩ := issue_pure_ok hb
    obtain ⟨m', hm, rfl⟩ := map_ok hr
    exact completes_pure rfl (by simp) (fun hw => addRetry_wf hw hm)
  | seqReset r =>
    refine ⟨seqReset r s, rfl, raises_seqReset _ _, fun t r' hb => ?_⟩
    obtain ⟨role, hr, hk⟩ := withRole_eq_ok.1 hb
    cases hk
    exact completes_counter rfl hr rfl rfl rfl (by simp) trivial
  | seqMsdu r =>
    refine ⟨seqMsdu r s, rfl, raises_seqMsdu _ _, fun t r' hb => ?_⟩
    obtain ⟨role, hr, hk⟩ := withRole_eq_ok.1 hb
    simp only [raiseIf_eq_ok] at hk
    obtain ⟨hd, hk⟩ := hk
    cases hk
    exact completes_counter rfl hr rfl rfl hd (by simp) trivial
  | seqFrag r =>
    refine ⟨seqFrag r s, rfl, raises_seqFrag _ _, fun t r' hb => ?_⟩
    obtain ⟨role, hr, hk⟩ := withRole_eq_ok.1 hb
    simp only [raiseIf_eq_ok] at hk
    obtain ⟨hd, -, hk⟩ := hk
    cases hk
    exact completes_counter rfl hr rfl rfl hd (by simp) trivial
  | fragSend r frame bssid size opt ov =>
    exact ⟨_, rfl, raises_fragSend _ _ _ _ _ _ _, fun t res hb => completes_frag rfl rfl rfl hb⟩
  | mpduParse b =>
    refine ⟨_, rfl, raises_map (raises_map (raises_parseRec _ _)), fun t r hb => ?_⟩
    obtain ⟨rfl, hr⟩ := issue_pure_ok hb
    obtain ⟨a, -, rfl⟩ := map_ok hr
    exact completes_pure rfl (by simp) (fun _ => trivial)
  | mpduThlen v extIv n =>
    refine ⟨_, rfl, raises_map (raises_map (raises_mpduThlen _ _ _)), fun t r hb => ?_⟩
    obtain ⟨rfl, hr⟩ := issue_pure_ok hb
    obtain ⟨a, -, rfl⟩ := map_ok hr
    exact completes_pure rfl (by simp) (fun _ => trivial)
  | cmpDown ms exp =>
    refine ⟨_, rfl, raises_map (raises_cmpDown _ _), fun t r hb => ?_⟩
    obtain ⟨rfl, hr⟩ := issue_pure_ok hb
    cases cmpDown_ok hr
    exact completes_pure rfl (by simp) (fun _ => trivial)
  | cmpUp p exp ap =>
    refine ⟨_, rfl, raises_map (raises_cmpUp _ _ _ _), fun t r hb => ?_⟩
    obtain ⟨rfl, hr⟩ := issue_pure_ok hb
    cases cmpUp_ok hr
    exact completes_pure rfl (by simp) (fun _ => trivial)
  | mpduSend r frame bssid opt =>
    exact ⟨_, rfl, raises_fragSend _ _ _ _ _ _ _, fun t res hb => completes_frag rfl rfl rfl hb⟩
  | fragSendsc r frame bssid size opt sc =>
    exact ⟨_, rfl, raises_fragSend _ _ _ _ _ _ _, fun t res hb => completes_frag rfl rfl rfl hb⟩

/-- Everything a command other than FCB.RESET can do (R14): it is refused while FAULTED, it completes
as `Completes` says, or it faults, with the code of a fault of R203. -/
theorem exec_cases (i : Instr) (h : i ≠ .fcbReset) (s : State) :
    (s.st.faulted = true ∧ exec i s = .next (s.refuse .faulted)) ∨
    (s.st.faulted = false ∧ ∃ t r, Completes i s t r ∧ exec i s = .next (t.close (.completed r))) ∨
    (s.st.faulted = false ∧ ∃ x, causeCode x.cause ∈ faultCodes ∧ exec i s = .next (s.raise x)) := by
  obtain ⟨body, he, hf, hc⟩ := exec_issue i h s
  rw [he]
  rcases issue_cases s body with h | ⟨h1, t, r, hb, h2⟩ | ⟨h1, x, hx, h2⟩
  · exact .inl h
  · exact .inr (.inl ⟨h1, t, r, hc t r hb, h2⟩)
  · exact .inr (.inr ⟨h1, x, hf x hx, h2⟩)

/-- A command and the real command it spells run alike (R63). -/
theorem exec_expand (i : Instr) (s : State) : exec i.expand s = exec i s := by
  cases i <;> rfl

/-- A command that reports a fault has entered it and done nothing else, and the cause is a fault of
R203 (R208). -/
theorem exec_faulted {i : Instr} {s t : State} {x : Exc} (h : exec i s = .next t)
    (he : t.ended = s.ended ++ [.faulted x]) :
    s.st.faulted = false ∧ causeCode x.cause ∈ faultCodes ∧ t = s.raise x := by
  by_cases hi : i = .fcbReset
  · subst hi
    cases h
    simp [State.resetBlock, State.close] at he
  rcases exec_cases i hi s with h' | ⟨h', t', r, hc, he'⟩ | ⟨h', y, hy, he'⟩
  · rw [h'.2] at h
    cases h
    simp at he
  · rw [he'] at h
    cases h
    simp [hc.2.2.1] at he
  · rw [he'] at h
    cases h
    simp at he
    subst he
    exact ⟨h', hy, rfl⟩

end Sys2Proof.Laws
end

