-- ==== Sys2Proof/Laws/Comparator.lean ====
section
/-!
SUPPORT. What the comparator's chain test and its decode leave to compare (R191).
-/

namespace Sys2Proof.Laws

open Sys2Proof.Machine

/-- No MPDU of a chain has another address triple than the first (R191). -/
theorem chainBreak_eq_none {m0 : MpduRx} {rest : List MpduRx} :
    chainBreak m0 rest = none ↔ ∀ m ∈ rest, triple m = triple m0 := by
  simp [chainBreak, List.findIdx?_eq_none_iff]

/-- CMP.DOWN on a chain with one triple and a body that decodes: what is left to compare (R191). -/
theorem cmpDown_eq {m0 : MpduRx} {rest : List MpduRx} {exp : Expect} {d : LlcDecoded}
    (h : ∀ m ∈ rest, triple m = triple m0)
    (hd : llcDec ((m0 :: rest).flatMap MpduRx.body) = .ok d) :
    cmpDown (m0 :: rest) exp =
      raiseIf (m0.cfg.dst != exp.dst) (excMismatch .dst (.addr exp.dst) (.addr m0.cfg.dst))
        (raiseIf (m0.cfg.src != exp.src) (excMismatch .src (.addr exp.src) (.addr m0.cfg.src))
          (compareTail d exp)) := by
  simp only [cmpDown, chainBreak_eq_none.2 h, hd]

end Sys2Proof.Laws
end

