-- ==== Sys2Proof/Laws/Parser.lean ====
section
/-!
SUPPORT. What the parser can do: one conditional header field, the whole header, and the length of
what is left (R176, R177).
-/

namespace Sys2Proof.Laws

open Sys2Proof.Machine

variable {α : Type}

/-- A header field read succeeds exactly where the field is absent, or enough bytes are left. -/
theorem takeField_eq_some {c : Bool} {k : Nat} {rd : Bytes → α} {b r : Bytes} {x : Option α} :
    takeField c k rd b = some (x, r) ↔
      (c = false ∧ x = none ∧ r = b) ∨
      (c = true ∧ k ≤ b.length ∧ x = some (rd b) ∧ r = b.drop k) := by
  unfold takeField
  cases c
  · simp [eq_comm]
  · by_cases h : b.length < k
    · simp [h]
    · simp [h, Nat.le_of_not_lt h, eq_comm]

/-- A header field takes its bytes from the front (R176). -/
theorem takeField_length {c : Bool} {k : Nat} {rd : Bytes → α} {b r : Bytes} {x : Option α}
    (h : takeField c k rd b = some (x, r)) : b.length = k * c.toNat + r.length := by
  rcases takeField_eq_some.1 h with ⟨rfl, _, rfl⟩ | ⟨rfl, hk, _, rfl⟩
  · simp
  · simp
    omega

/-- A header field is there exactly where its condition holds (R82). -/
theorem takeField_isSome {c : Bool} {k : Nat} {rd : Bytes → α} {b r : Bytes} {x : Option α}
    (h : takeField c k rd b = some (x, r)) : x.isSome = c := by
  rcases takeField_eq_some.1 h with ⟨rfl, rfl, _⟩ | ⟨rfl, _, rfl, _⟩ <;> rfl

/-- MPDU.PARSE returns an object exactly where the record is long enough, its type+subtype byte is
defined and its header fits (R176). -/
theorem parseRec_eq_ok {ivBit : Nat} {rec : Bytes} {t : MpduTx} :
    parseRec ivBit rec = .ok (.ok t) ↔
      42 ≤ rec.length ∧ tsDefined (fcTs (rdLE16 rec 32)) = true ∧
        ∃ h body, parseHeader ivBit (rdLE16 rec 32) (rec.drop 42) = some (h, body) ∧
          t = mpduTxOf rec h body := by
  unfold parseRec
  by_cases hl : rec.length < 42
  · simp [hl]
  · cases hp : parseHeader ivBit (rdLE16 rec 32) (rec.drop 42) with
    | none => simp [hl]
    | some p =>
      obtain ⟨h, body⟩ := p
      simp only [hl, if_false, raiseIf_eq_ok, Bool.not_eq_false', Except.ok.injEq,
        Decoded.ok.injEq, Nat.le_of_not_lt hl, true_and, Option.some.injEq, Prod.mk.injEq]
      constructor
      · rintro ⟨hts, rfl⟩
        exact ⟨hts, h, body, ⟨rfl, rfl⟩, rfl⟩
      · rintro ⟨hts, h', body', ⟨rfl, rfl⟩, rfl⟩
        exact ⟨hts, rfl⟩

/-- A header field read where its bytes are left (R176). -/
theorem takeField_ok {c : Bool} {k : Nat} {rd : Bytes → α} {b : Bytes}
    (h : k * c.toNat ≤ b.length) :
    takeField c k rd b = some (if c then some (rd b) else none, b.drop (k * c.toNat)) := by
  unfold takeField
  cases c <;> simp at *
  omega

/-- The bytes of the conditional header fields before the extended IV (R82, R178). -/
def headerLen (fcw : U16) : Nat :=
  let ts := fcTs fcw
  let f := fcFlags fcw
  6 * (hasA2 ts).toNat + 6 * (hasA3 ts).toNat + 2 * (hasSc ts).toNat + 6 * (hasA4 f).toNat
    + 2 * (isQosData ts).toNat + 2 * (isCtrlWrapper ts).toNat + 4 * (hasHtc ts f).toNat + 4 * f.prot.toNat

/-- The theoretical length is the fixed ten bytes, those fields, the extended IV and the body (R178). -/
theorem thlen_eq (fcw : U16) (e : Bool) (n : Nat) :
    thlen fcw e n = 10 + headerLen fcw + 4 * ((fcFlags fcw).prot && e).toNat + n := by
  unfold thlen headerLen; simp only; omega

/-- Nothing is lost between the conditional fields and the body (R177). -/
theorem parseHeader_length {ivBit : Nat} {fcw : U16} {b0 : Bytes} {h : TxHeader} {body : Bytes}
    (hp : parseHeader ivBit fcw b0 = some (h, body)) :
    b0.length = headerLen fcw + 4 * ((fcFlags fcw).prot && h.extIv).toNat + body.length := by
  unfold parseHeader at hp
  simp only [Option.bind_eq_some_iff, Prod.exists] at hp
  obtain ⟨a2, b1, h1, a3, b2, h2, sc, b3, h3, a4, b4, h4, q, b5, h5, c, b6, h6, ht, b7, h7, iv, b8,
    h8, e, b9, h9, hh⟩ := hp
  cases hh
  have := takeField_length h1
  have := takeField_length h2
  have := takeField_length h3
  have := takeField_length h4
  have := takeField_length h5
  have := takeField_length h6
  have := takeField_length h7
  have := takeField_length h8
  have := takeField_length h9
  simp only [headerLen]
  omega

/-- The header parse where the fields before the extended IV fit: the extended-IV flag comes from the
word four bytes before their end, and the parse succeeds exactly where its four bytes fit too (R176,
R83). -/
theorem parseHeader_of_le {ivBit : Nat} {fcw : U16} {b0 : Bytes}
    (hl : headerLen fcw ≤ b0.length) :
    let ext := (fcFlags fcw).prot && (rdLE32 b0 (headerLen fcw - 4)).getLsbD ivBit
    (headerLen fcw + 4 * ext.toNat ≤ b0.length → ∃ h,
      parseHeader ivBit fcw b0 = some (h, b0.drop (headerLen fcw + 4 * ext.toNat)) ∧
        h.extIv = ext) ∧
    (b0.length < headerLen fcw + 4 * ext.toNat → parseHeader ivBit fcw b0 = none) := by
  intro ext
  have hl' := hl
  simp only [headerLen] at hl
  unfold parseHeader
  simp only
  rw [takeField_ok (by omega), Option.bind_some, takeField_ok (by simp; omega), Option.bind_some,
    takeField_ok (by simp; omega), Option.bind_some, takeField_ok (by simp; omega), Option.bind_some,
    takeField_ok (by simp; omega), Option.bind_some, takeField_ok (by simp; omega), Option.bind_some,
    takeField_ok (by simp; omega), Option.bind_some, takeField_ok (by simp; omega),
    Option.bind_some]
  simp only [List.drop_drop, rdLE32_drop]
  have hx : extIvFlag ivBit (if (fcFlags fcw).prot = true then
      some (rdLE32 b0 (headerLen fcw - 4 * (fcFlags fcw).prot.toNat)) else none) = ext := by
    cases hp : (fcFlags fcw).prot <;> simp [ext, hp, extIvFlag]
  have ho : headerLen fcw - 4 * (fcFlags fcw).prot.toNat =
      6 * (hasA2 (fcTs fcw)).toNat + 6 * (hasA3 (fcTs fcw)).toNat + 2 * (hasSc (fcTs fcw)).toNat +
        6 * (hasA4 (fcFlags fcw)).toNat + 2 * (isQosData (fcTs fcw)).toNat +
        2 * (isCtrlWrapper (fcTs fcw)).toNat + 4 * (hasHtc (fcTs fcw) (fcFlags fcw)).toNat + 0 := by
    simp only [headerLen]
    omega
  rw [ho] at hx
  have he : ((fcFlags fcw).prot && ext) = ext := by simp [ext]
  rw [hx, he]
  refine ⟨fun h => ?_, fun h => ?_⟩
  · rw [takeField_ok (by simp only [headerLen] at h; simp; omega), Option.bind_some]
    exact ⟨_, by simp only [List.drop_drop]; rfl, rfl⟩
  · have : takeField ext 4 (fun x => rdLE32 x 0) (List.drop (headerLen fcw) b0) = none := by
      cases hx : ext <;> simp [hx] at h ⊢
      · omega
      · simp [takeField]; omega
    simp only [headerLen] at this
    rw [this]; rfl

/-- The low byte of the frame-control word is the byte at its offset (R70, R43). -/
theorem fcTs_rdLE16 (rec : Bytes) : fcTs (rdLE16 rec 32) = byteAt rec 32 := by
  apply BitVec.eq_of_toNat_eq
  rw [fcTs, field_toNat, rdLE16_toNat]
  have := (byteAt rec 32).isLt
  omega

/-- The bytes of a header field are those its value is written as (R179). -/
theorem takeField_bytes {c : Bool} {k : Nat} {rd : Bytes → α} {b r : Bytes} {x : Option α}
    (enc : α → Bytes) (h : takeField c k rd b = some (x, r))
    (he : k ≤ b.length → enc (rd b) = b.take k) : b = Safety.optBytes enc x ++ r := by
  rcases takeField_eq_some.1 h with ⟨_, rfl, rfl⟩ | ⟨_, h1, rfl, rfl⟩
  · simp [Safety.optBytes]
  · simp [Safety.optBytes, he h1]

/-- Six bytes read as an address are those six bytes (R65). -/
theorem addrBytes_addrAt_zero (b : Bytes) (h : 6 ≤ b.length) :
    addrBytes (addrAt b 0) = b.take 6 := by
  rw [take_eq_bytes b 6 h]; rfl

/-- Two bytes read as a word are those two bytes (R11). -/
theorem le16_rdLE16_zero (b : Bytes) (h : 2 ≤ b.length) : le16 (rdLE16 b 0) = b.take 2 := by
  rw [take_eq_bytes b 2 h, le16_rdLE16]; rfl

/-- Four bytes read as a word are those four bytes (R11). -/
theorem le32_rdLE32_zero (b : Bytes) (h : 4 ≤ b.length) : le32 (rdLE32 b 0) = b.take 4 := by
  rw [take_eq_bytes b 4 h, le32_rdLE32]; rfl

end Sys2Proof.Laws
end

