-- ==== Sys2Proof/Laws/PerInstr.lean ====
section
/-!
SUPPORT. Per-instruction statements about the syntax: the opcode a command is issued with names it and
no other (R61), and a pseudo-command is issued as the real command it spells (R63).
-/

namespace Sys2Proof.Laws.EncodeOpcode

/-- The opcode byte of the issued command is read back as the command's opcode; the command it stands
for has the same opcode, the same well-formedness and the same issued form, and stands for itself
(R60, R61, R63). -/
def Statement (i : Instr) : Prop :=
  opcodeOf (encode i).op = some i.opcode ∧ i.expand.opcode = i.opcode ∧ i.expand.wf = i.wf ∧
    encode i.expand = encode i ∧ i.expand.expand = i.expand

theorem fcbReset :
    Statement (.fcbReset) := ⟨rfl, rfl, rfl, rfl, rfl⟩

theorem macMk (b : Bytes) :
    Statement (.macMk b) := ⟨rfl, rfl, rfl, rfl, rfl⟩

theorem payGen (n : Nat) :
    Statement (.payGen n) := ⟨rfl, rfl, rfl, rfl, rfl⟩

theorem ethEnc (dst src : MacAddr) (prio length etype : Nat) (tag : Option TagArg) :
    Statement (.ethEnc dst src prio length etype tag) := ⟨rfl, rfl, rfl, rfl, rfl⟩

theorem ethDec (b : Bytes) :
    Statement (.ethDec b) := ⟨rfl, rfl, rfl, rfl, rfl⟩

theorem llcEnc (payload : Bytes) (etype : Nat) (q : Option Dot1qArg) :
    Statement (.llcEnc payload etype q) := ⟨rfl, rfl, rfl, rfl, rfl⟩

theorem llcDec (b : Bytes) :
    Statement (.llcDec b) := ⟨rfl, rfl, rfl, rfl, rfl⟩

theorem fcPack (ts : Nat) (flags : FcFlags) :
    Statement (.fcPack ts flags) := ⟨rfl, rfl, rfl, rfl, rfl⟩

theorem fcUnpack (v : U16) :
    Statement (.fcUnpack v) := ⟨rfl, rfl, rfl, rfl, rfl⟩

theorem mpduBuild (body : Bytes) (bssid : MacAddr) (cfg : BuildCfg) :
    Statement (.mpduBuild body bssid cfg) := ⟨rfl, rfl, rfl, rfl, rfl⟩

theorem mpduRetry (m : MpduRx) :
    Statement (.mpduRetry m) := ⟨rfl, rfl, rfl, rfl, rfl⟩

theorem seqReset (r : Nat) :
    Statement (.seqReset r) := ⟨rfl, rfl, rfl, rfl, rfl⟩

theorem seqMsdu (r : Nat) :
    Statement (.seqMsdu r) := ⟨rfl, rfl, rfl, rfl, rfl⟩

theorem seqFrag (r : Nat) :
    Statement (.seqFrag r) := ⟨rfl, rfl, rfl, rfl, rfl⟩

theorem fragSend (r : Nat) (frame : EthFrame) (bssid : MacAddr) (size : Nat) (opt : FragOpt)
    (ov : Option U16) :
    Statement (.fragSend r frame bssid size opt ov) := ⟨rfl, rfl, rfl, rfl, rfl⟩

theorem mpduParse (rec : Bytes) :
    Statement (.mpduParse rec) := ⟨rfl, rfl, rfl, rfl, rfl⟩

theorem mpduThlen (v : U16) (extIv : Bool) (n : Nat) :
    Statement (.mpduThlen v extIv n) := ⟨rfl, rfl, rfl, rfl, rfl⟩

theorem cmpDown (ms : List MpduRx) (exp : Expect) :
    Statement (.cmpDown ms exp) := ⟨rfl, rfl, rfl, rfl, rfl⟩

theorem cmpUp (t : Decoded MpduTx) (exp : Expect) (ap : MacAddr) :
    Statement (.cmpUp t exp ap) := ⟨rfl, rfl, rfl, rfl, rfl⟩

theorem mpduSend (r : Nat) (frame : EthFrame) (bssid : MacAddr) (opt : FragOpt) :
    Statement (.mpduSend r frame bssid opt) := ⟨rfl, rfl, rfl, rfl, rfl⟩

theorem fragSendsc (r : Nat) (frame : EthFrame) (bssid : MacAddr) (size : Nat) (opt : FragOpt)
    (sc : U16) :
    Statement (.fragSendsc r frame bssid size opt sc) := ⟨rfl, rfl, rfl, rfl, rfl⟩

end Sys2Proof.Laws.EncodeOpcode
end

