-- ==== Sys2Proof/Tests/Slice0.lean ====
section
/-!
SUPPORT. Tests: the decoding of every opcode byte, ill-formed operands, and the derived vectors of
95_test_vectors.md (V1 to V73), whose expected results are the spec's own.
-/

namespace Sys2Proof.Tests

open Sys2Proof.Machine

/-! Operands used throughout 95_test_vectors.md. -/

/-- `D = 00:11:22:33:44:55`. -/
def addrD : MacAddr := ⟨0x00#8, 0x11#8, 0x22#8, 0x33#8, 0x44#8, 0x55#8⟩

/-- `S = AA:BB:CC:DD:EE:FF`. -/
def addrS : MacAddr := ⟨0xAA#8, 0xBB#8, 0xCC#8, 0xDD#8, 0xEE#8, 0xFF#8⟩

/-- `B = 02:00:00:00:00:01`. -/
def addrB : MacAddr := ⟨0x02#8, 0x00#8, 0x00#8, 0x00#8, 0x00#8, 0x01#8⟩

/-- `X4 = DE AD BE EF`. -/
def x4 : Bytes := [0xDE#8, 0xAD#8, 0xBE#8, 0xEF#8]

/-- `f4`: the untagged frame with payload `X4`. -/
def f4 : EthFrame := ⟨addrD, addrS, 0#3, none, 0x0800#16, x4⟩

/-- `exp4`. -/
def exp4 : Expect := ⟨addrD, addrS, false, 0x0800#16, x4⟩

/-- The configuration of V31: every option at its default. -/
def cfgDS : BuildCfg := { dst := addrD, src := addrS }

/-- The MPDU of V31. -/
def m31 : MpduRx := mpduOf .dataFromDs [1#8, 2#8, 3#8, 4#8, 5#8] addrB cfgDS

/-- The state after reset, but for `SC[0]`. -/
def stateSc (v : U16) : State := State.reset.setSc .accessPoint v

/-- The state a step answers, where it answers one. -/
def stateOf (o : Host.Outcome State Fault Refusal) : Option State :=
  match o with
  | .next t => some t
  | .fault _ => none
  | .refused _ => none

/-- How the last command ended. -/
def lastOf (o : Host.Outcome State Fault Refusal) : Option Completion :=
  (stateOf o).bind fun t => t.ended.getLast?

/-- The cause code, the FAULTED bit and the recorded actual value after a step. -/
def stOf (o : Host.Outcome State Fault Refusal) : Option (Bool × Byte × Option InfoVal) :=
  (stateOf o).map fun t => (t.st.faulted, t.st.cause, t.st.info.actual)

/-! Decoding: the opcode bytes of R61, written out bit by bit, family in bits 7:4. -/

theorem test_decode_fcb_reset : decode ⟨0b00000000#8, .unit⟩ = .ok .fcbReset := by decide
theorem test_decode_mac_mk : decode ⟨0b00000001#8, .bytes [5#8]⟩ = .ok (.macMk [5#8]) := by decide
theorem test_decode_pay_gen : decode ⟨0b00000010#8, .nat 4⟩ = .ok (.payGen 4) := by decide
theorem test_decode_eth_enc :
    decode ⟨0b00010000#8, .ethEnc addrD addrS 1 64 (some 0x0806) none⟩
      = .ok (.ethEnc addrD addrS 1 64 0x0806 none) := by decide
theorem test_decode_eth_dec : decode ⟨0b00010001#8, .bytes x4⟩ = .ok (.ethDec x4) := by decide
theorem test_decode_llc_enc :
    decode ⟨0b00100000#8, .llcEnc x4 (some 0x86DD) none⟩ = .ok (.llcEnc x4 0x86DD none) := by decide
theorem test_decode_llc_dec : decode ⟨0b00100001#8, .bytes x4⟩ = .ok (.llcDec x4) := by decide
theorem test_decode_fc_pack :
    decode ⟨0b00110000#8, .fcPack 8 { fromDs := some true }⟩ = .ok (.fcPack 8 { fromDs := true }) := by
  decide
theorem test_decode_fc_unpack :
    decode ⟨0b00110001#8, .word 0x0188#16⟩ = .ok (.fcUnpack 0x0188#16) := by decide
theorem test_decode_mpdu_build :
    decode ⟨0b01000000#8, .mpduBuild x4 addrB { dst := addrD, src := addrS, sc := some 0x0150#16 }⟩
      = .ok (.mpduBuild x4 addrB { cfgDS with sc := 0x0150#16 }) := by decide
theorem test_decode_mpdu_retry : decode ⟨0b01000001#8, .mpdu m31⟩ = .ok (.mpduRetry m31) := by decide
theorem test_decode_seq_reset : decode ⟨0b01010000#8, .nat 1⟩ = .ok (.seqReset 1) := by decide
theorem test_decode_seq_msdu : decode ⟨0b01010001#8, .nat 1⟩ = .ok (.seqMsdu 1) := by decide
theorem test_decode_seq_frag : decode ⟨0b01010010#8, .nat 1⟩ = .ok (.seqFrag 1) := by decide
theorem test_decode_frag_send :
    decode ⟨0b01010011#8, .fragSend 0 f4 addrB 5 {} none⟩ = .ok (.fragSend 0 f4 addrB 5 {} none) := by
  decide
theorem test_decode_mpdu_parse : decode ⟨0b01100000#8, .bytes x4⟩ = .ok (.mpduParse x4) := by decide
theorem test_decode_mpdu_thlen :
    decode ⟨0b01100001#8, .mpduThlen 0x0188#16 false 100⟩ = .ok (.mpduThlen 0x0188#16 false 100) := by
  decide
theorem test_decode_cmp_down :
    decode ⟨0b01110000#8, .cmpDown [m31] exp4⟩ = .ok (.cmpDown [m31] exp4) := by decide
theorem test_decode_cmp_up :
    decode ⟨0b01110001#8, .cmpUp .notOk exp4 addrB⟩ = .ok (.cmpUp .notOk exp4 addrB) := by decide

/-- The command line of S6 (95_test_vectors.md; R111), its ethertype omitted, is the
one with the ethertype 0x0800. -/
theorem test_omitted_etype :
    decode ⟨0x10#8, .ethEnc addrD addrS 1 64 none none⟩
      = .ok (.ethEnc addrD addrS 1 64 0x0800 none) ∧
    decode ⟨0x20#8, .llcEnc x4 none none⟩ = .ok (.llcEnc x4 0x0800 none) := by decide
/-- Giving one flag leaves from-DS at its default, 1 (R27). -/
theorem test_omitted_flags :
    decode ⟨0x40#8, .mpduBuild x4 addrB { dst := addrD, src := addrS, retry := some true }⟩
      = .ok (.mpduBuild x4 addrB
          ⟨addrD, addrS, 0x08#8, false, true, false, true, false, false, false, false, 0x0000#16, none,
            none⟩) ∧
    decode ⟨0x53#8, .fragSend 0 f4 addrB 5 { fromDs := some false } none⟩
      = .ok (.fragSend 0 f4 addrB 5
          ⟨0x08#8, false, false, false, false, false, false, false, none, none⟩ none) := by decide

/-- The pseudo-commands are issued as FRAG.SEND, opcode 0x53 (R63). -/
theorem test_encode_mpdu_send :
    encode (.mpduSend 0 f4 addrB {})
      = ⟨0b01010011#8, .fragSend 0 f4 addrB 12 (FragOpt.given {}) none⟩ := by decide
theorem test_encode_frag_sendsc :
    encode (.fragSendsc 0 f4 addrB 5 {} 0x1234#16)
      = ⟨0b01010011#8, .fragSend 0 f4 addrB 5 (FragOpt.given {}) (some 0x1234#16)⟩ := by decide

/-- An undefined opcode, and an operand record of another type, are rejected by name (R60, R64). -/
theorem test_decode_rejects :
    decode ⟨0x03#8, .unit⟩ = .error .illegalOpcode ∧
    decode ⟨0x01#8, .nat 6⟩ = .error .operandType := by decide

/-- 19 of the 256 opcode values are defined (R64). -/
theorem test_opcodes_defined :
    ((List.range 256).filter fun w => (opcodeOf (BitVec.ofNat 8 w)).isSome).length = 19 := by
  decide +kernel

/-- 38 of the 256 type+subtype bytes are defined (R72). -/
theorem test_ts_defined :
    ((List.range 256).filter fun w => tsDefined (BitVec.ofNat 8 w)).length = 38 := by
  decide +kernel

/-! Ill-formed operands, one for each check of WellFormed.lean. -/

/-- A frame with a one-byte payload (R27). -/
theorem test_wf_short_payload :
    Instr.wf (.fragSend 0 { f4 with payload := [1#8] } addrB 5 {} none) = false := by decide
/-- A frame whose ethertype is 0x8100 (R111). -/
theorem test_wf_etype_dot1q : Instr.wf (.mpduSend 0 { f4 with etype := 0x8100#16 } addrB {}) = false := by
  decide
theorem test_wf_sendsc :
    Instr.wf (.fragSendsc 0 { f4 with payload := [] } addrB 5 {} 0#16) = false := by decide
/-- A built MPDU whose frame-control word was changed by hand (R233). -/
theorem test_wf_fc_by_hand : Instr.wf (.mpduRetry { m31 with fc := 0#16 }) = false := by decide
/-- A built MPDU with a control type, which the builder does not make (R141). -/
theorem test_wf_control_mpdu :
    Instr.wf (.cmpDown [{ m31 with cfg := { cfgDS with ts := 0xB4#8 } }] exp4) = false := by decide
theorem test_wf_accepts :
    Instr.wf (.fragSend 0 f4 addrB 5 {} none) = true ∧ Instr.wf (.mpduRetry m31) = true := by decide

/-! Primitives (V1 to V6). -/

theorem test_mac_mk_v1 :
    lastOf (exec (.macMk [0x00#8, 0x11#8, 0x22#8, 0x33#8, 0x44#8, 0x55#8]) State.reset)
      = some (.completed (.addr addrD)) := by decide
theorem test_mac_mk_v2 :
    stOf (exec (.macMk [0x00#8, 0x11#8, 0x22#8, 0x33#8, 0x44#8]) State.reset)
      = some (true, 0x10#8, some (.num 5)) := by decide
theorem test_pay_gen_v5 :
    stOf (exec (.payGen 1501) State.reset) = some (true, 0x11#8, some (.num 1501)) := by decide
/-- V3: PAY.GEN 2 completes with two bytes, any values. -/
theorem test_pay_gen_v3 :
    lastOf (exec (.payGen 2) State.reset)
      = some (.completed (.bytes [Config.drawByte 0, Config.drawByte 1])) := by rfl

/-! Ethernet (V7 to V19). -/

/-- V8: the wire of a tagged frame. -/
theorem test_eth_enc_v8 :
    ethWire (ethFrameOf broadcast addrS 5 0x86DD (some ⟨true, 4095⟩) [1#8, 2#8, 3#8])
      = [0xFF#8, 0xFF#8, 0xFF#8, 0xFF#8, 0xFF#8, 0xFF#8, 0xAA#8, 0xBB#8, 0xCC#8, 0xDD#8, 0xEE#8,
         0xFF#8, 0x81#8, 0x00#8, 0xBF#8, 0xFF#8, 0x86#8, 0xDD#8, 1#8, 2#8, 3#8] := by decide
/-- V19: the first failing check is reported. -/
theorem test_eth_enc_v19 :
    stOf (exec (.ethEnc addrD addrS 9 0 0x0800 none) State.reset)
      = some (true, 0x12#8, some (.num 9)) := by decide
/-- V18: a second tag is not unwrapped. -/
theorem test_eth_dec_v18 :
    ethDec (addrBytes addrD ++ addrBytes addrS ++
        [0x81#8, 0x00#8, 0x20#8, 0x05#8, 0x81#8, 0x00#8, 0x00#8, 0x07#8, 0x08#8, 0x00#8, 0x99#8])
      = .ok ⟨addrD, addrS, true, 1#3, false, 5#12, 0x8100#16,
          [0x00#8, 0x07#8, 0x08#8, 0x00#8, 0x99#8]⟩ := by decide
/-- V16: 17 bytes with 0x8100 at offset 12. -/
theorem test_eth_dec_v16 :
    lastOf (exec (.ethDec (addrBytes addrD ++ addrBytes addrS ++
        [0x81#8, 0x00#8, 0x20#8, 0x05#8, 0x08#8])) State.reset)
      = some (.completed (.ethDecoded .notOk)) := by decide

/-! LLC/SNAP (V20 to V28). -/

theorem test_llc_enc_v21 :
    lastOf (exec (.llcEnc [0x55#8] 0x0806 (some ⟨7, true, 0⟩)) State.reset)
      = some (.completed (.bytes
          [0xAA#8, 0xAA#8, 0x03#8, 0x00#8, 0x00#8, 0x00#8, 0x81#8, 0x00#8, 0xF0#8, 0x00#8, 0xAA#8,
           0xAA#8, 0x03#8, 0x00#8, 0x00#8, 0x00#8, 0x08#8, 0x06#8, 0x55#8])) := by decide
theorem test_llc_enc_v23 :
    stOf (exec (.llcEnc [0x55#8] 0x0800 (some ⟨0, false, 4096⟩)) State.reset)
      = some (true, 0x13#8, some (.num 4096)) := by decide
theorem test_llc_dec_v25 :
    llcDec [0xAA#8, 0xAA#8, 0x03#8, 0x00#8, 0x00#8, 0x01#8, 0x08#8, 0x00#8, 0x45#8, 0x00#8]
      = .notOk := by decide
theorem test_llc_dec_v28 :
    llcDec [0xAA#8, 0xAA#8, 0x03#8, 0x00#8, 0x00#8, 0x00#8, 0x81#8, 0x00#8, 0x61#8, 0x00#8, 0xAA#8,
        0xAA#8, 0x03#8, 0x00#8, 0x00#8, 0x00#8, 0x08#8, 0x00#8]
      = .ok ⟨true, 3#3, false, 0x100#12, 0x0800#16, []⟩ := by decide

/-! Frame control (V29, V30). -/

theorem test_fc_pack_v29i :
    lastOf (exec (.fcPack 0x88 { toDs := true, fromDs := true, prot := true, order := true })
      State.reset) = some (.completed (.word 0xC388#16)) := by decide
theorem test_fc_pack_v29j :
    stOf (exec (.fcPack 256 {}) State.reset) = some (true, 0x15#8, some (.num 256)) := by decide
theorem test_fc_unpack_v30c :
    fcUnpack 0x04B4#16 = .ok ⟨1#2, 11#4, 0xB4#8, { moreFrag := true }⟩ := by decide
theorem test_fc_unpack_v30d :
    stOf (exec (.fcUnpack 0xFFFC#16) State.reset) = some (true, 0x15#8, some (.num 0xFC)) := by decide

/-! MPDU builder (V31 to V41). -/

/-- V31: the whole record. -/
theorem test_mpdu_build_v31 :
    ser m31
      = zeros 8 ++ [0x08#8, 0x02#8, 0x00#8, 0x00#8] ++ addrBytes addrD ++ addrBytes addrB ++
        addrBytes addrS ++ zeros 22 ++
        [1#8, 2#8, 3#8, 4#8, 5#8, 0#8, 0#8, 0#8] ++ zeros 16 ++ [5#8, 0#8, 0#8, 0#8] ++
        zeros 36 := by decide
/-- V34: both DS flags; bytes 8 to 37 of the record. -/
theorem test_mpdu_build_v34 :
    (build [0xAB#8] addrB { cfgDS with
        ts := 0x88#8, toDs := true, sc := 0x0150#16,
        ra := some ⟨2#8, 0#8, 0#8, 0#8, 0#8, 0x0A#8⟩,
        ta := some ⟨2#8, 0#8, 0#8, 0#8, 0#8, 0x0B#8⟩ }).map (fun m => slice (ser m) 8 30)
      = .ok ([0x88#8, 0x03#8, 0#8, 0#8, 2#8, 0#8, 0#8, 0#8, 0#8, 0x0A#8, 2#8, 0#8, 0#8, 0#8, 0#8,
          0x0B#8] ++ addrBytes addrD ++ addrBytes addrS ++ [0x50#8, 0x01#8]) := by decide
theorem test_mpdu_retry_v40 :
    (addRetry m31).map (fun m => (m.fc, slice (ser m) 8 2)) = .ok (0x0A08#16, [0x08#8, 0x0A#8]) := by
  decide
theorem test_mpdu_retry_v41 :
    stOf (exec (.mpduRetry { m31 with
        cfg := { cfgDS with retry := true }, fc := 0x0A08#16 })
      State.reset) = some (true, 0x19#8, none) := by decide

/-! Counters and fragmentation (V42 to V53c). -/

theorem test_seq_msdu_v43 :
    lastOf (exec (.seqMsdu 0) (stateSc 0xFFF3#16)) = some (.completed (.word 0x0000#16)) := by decide
theorem test_seq_msdu_v44b :
    stOf (exec (.seqMsdu 2) State.reset) = some (true, 0x1A#8, some (.num 2)) := by decide
theorem test_seq_frag_v44 :
    stOf (exec (.seqFrag 0) (stateSc 0x001F#16)) = some (true, 0x1C#8, some (.num 17)) := by decide
theorem test_seq_frag_v42 :
    lastOf (exec (.seqFrag 0) (stateSc 0x0010#16)) = some (.completed (.word 0x0011#16)) := by decide
/-- V53c: SEQ.RESET is accepted on a dirty counter and makes it usable again. -/
theorem test_seq_reset_v53c :
    (stateOf (exec (.seqReset 0) (State.reset.setCounter .accessPoint ⟨0x0123#16, true⟩))).map
      State.counters = some Counters.clear := by decide

/-- What FRAG.SEND made: body length, frame control, sequence control and record length of each. -/
def shapesOf (o : Host.Outcome State Fault Refusal) : Option (List (Nat × U16 × U16 × Nat)) :=
  match lastOf o with
  | some (.completed (.mpdus ms)) =>
      some (ms.map fun m => (m.body.length, m.fc, m.cfg.sc, (ser m).length))
  | _ => none

/-- V45b: three fragments of `f4`, and the records emitted. -/
theorem test_frag_send_v45b :
    shapesOf (exec (.fragSend 0 f4 addrB 5 {} none) (stateSc 0x0010#16))
      = some [(5, 0x0608#16, 0x0020#16, 116), (5, 0x0608#16, 0x0021#16, 116),
          (2, 0x0208#16, 0x0022#16, 112)] ∧
    (stateOf (exec (.fragSend 0 f4 addrB 5 {} none) (stateSc 0x0010#16))).map
        (fun t => (t.counters, t.txq.length))
      = some (⟨⟨0x0022#16, false⟩, Counter.clear⟩, 3) := by decide +kernel
/-- V49: an override whose fragment number would pass 15. -/
theorem test_frag_send_v49 :
    stOf (exec (.fragSend 0 f4 addrB 5 {} (some 0x123E#16)) State.reset)
      = some (true, 0x1C#8, some (.num 17)) := by decide +kernel
/-- V48: an override leaves the counter as it is. -/
theorem test_frag_sendsc_v48 :
    shapesOf (exec (.fragSendsc 0 f4 addrB 5 {} 0x1234#16) (stateSc 0x0030#16))
      = some [(5, 0x0608#16, 0x1234#16, 116), (5, 0x0608#16, 0x1235#16, 116),
          (2, 0x0208#16, 0x1236#16, 112)] ∧
    (stateOf (exec (.fragSendsc 0 f4 addrB 5 {} 0x1234#16) (stateSc 0x0030#16))).map State.counters
      = some (stateSc 0x0030#16).counters := by decide +kernel
theorem test_frag_sendsc_v50 :
    stOf (exec (.fragSendsc 0 f4 addrB 0 {} 0#16) State.reset) = some (true, 0x1B#8, none) := by decide
/-- MPDU.SEND makes one MPDU of the whole body (R63, V45c). -/
theorem test_mpdu_send_v45c :
    shapesOf (exec (.mpduSend 0 f4 addrB {}) (stateSc 0x0022#16))
      = some [(12, 0x0208#16, 0x0030#16, 120)] := by decide +kernel
theorem test_mpdu_send_v52 :
    stOf (exec (.mpduSend 2 f4 addrB {}) State.reset) = some (true, 0x1A#8, some (.num 2)) := by
  decide

/-! MPDU parser (V54 to V61). -/

/-- The record of V55, with its frame-length byte. -/
def rec55 (len : Byte) : Bytes :=
  [0x03#8, 0x06#8, len, 0x00#8, 0x0D#8, 0xF0#8, 0xFE#8, 0xCA#8] ++
  [1#8, 0#8, 0#8, 0#8, 2#8, 0#8, 0#8, 0#8, 3#8, 0#8, 0#8, 0#8, 4#8, 0#8, 0#8, 0#8] ++
  [5#8, 0#8, 0#8, 0#8, 6#8, 0#8, 0#8, 0#8, 0x88#8, 0x01#8, 0x2C#8, 0x00#8] ++
  addrBytes addrB ++ addrBytes addrS ++ addrBytes addrD ++ [0x10#8, 0x00#8, 0x05#8, 0x00#8] ++
  snap ++ [0x08#8, 0x00#8] ++ x4 ++ zeros 4

/-- The parse result V55 gives, for a reported frame length. -/
def t55 (len : U16) (ok : Bool) : MpduTx where
  queueId := 3#8
  channel := 6#8
  frameLen := len
  policy := ⟨0xCAFEF00D#32, 1#32, 2#32, 3#32, 4#32, 5#32, 6#32⟩
  fcw := 0x0188#16
  fc := ⟨2#2, 8#4, 0x88#8, { toDs := true }⟩
  dur := 0x002C#16
  addr1 := addrB
  addr2 := some addrS
  addr3 := some addrD
  sc := some 0x0010#16
  addr4 := none
  qos := some 0x0005#16
  cfc := none
  htc := none
  iv := none
  extIv := false
  eiv := none
  body := snap ++ [0x08#8, 0x00#8] ++ x4 ++ zeros 4
  thLen := 42
  lenOk := ok

theorem test_mpdu_parse_v55 : parseRec 5 (rec55 0x2A#8) = .ok (.ok (t55 42#16 true)) := by
  decide +kernel
/-- V60: a length mismatch is reported, not a failure of the parse. -/
theorem test_mpdu_parse_v60 :
    lastOf (exec (.mpduParse (rec55 0x31#8)) State.reset)
      = some (.completed (.parsed (.ok (t55 49#16 false)))) := by decide +kernel

/-- The record of V56, with the first IV byte. -/
def rec56 (iv0 : Byte) : Bytes :=
  [0x00#8, 0x0B#8, 0x2D#8, 0x00#8, 0x0D#8, 0xF0#8, 0xFE#8, 0xCA#8] ++ zeros 24 ++
  [0x08#8, 0xC3#8, 0x00#8, 0x00#8] ++ addrBytes addrB ++ addrBytes addrS ++ addrBytes addrD ++
  [0x30#8, 0x02#8, 0x02#8, 0x00#8, 0x00#8, 0x00#8, 0x00#8, 0x0C#8, 0x44#8, 0x33#8, 0x22#8, 0x11#8] ++
  [iv0, 0x00#8, 0x00#8, 0x60#8, 0xD4#8, 0xC3#8, 0xB2#8, 0xA1#8, 0x09#8, 0x08#8, 0x07#8]

/-- The fields of a parse that V56 lists. -/
def view56 (p : Except Exc (Decoded MpduTx)) :
    Option (Bool × Option U32 × Bytes × Nat) :=
  match p with
  | .ok (.ok t) => some (t.extIv, t.eiv, t.body, t.thLen)
  | _ => none

theorem test_mpdu_parse_v56 :
    view56 (parseRec 5 (rec56 0x20#8))
      = some (true, some 0xA1B2C3D4#32, [9#8, 8#8, 7#8], 45) := by
  decide +kernel
/-- V56b: the extended-IV bit under both values of `IV_EXT_BIT`. -/
theorem test_mpdu_parse_v56b :
    view56 (parseRec 5 (rec56 0x00#8))
      = some (false, none, [0xD4#8, 0xC3#8, 0xB2#8, 0xA1#8, 9#8, 8#8, 7#8], 45) ∧
    view56 (parseRec 29 (rec56 0x00#8))
      = some (true, some 0xA1B2C3D4#32, [9#8, 8#8, 7#8], 45) := by
  decide +kernel

/-- V54: the theoretical length, the source's example first. -/
theorem test_mpdu_thlen_v54 :
    lastOf (exec (.mpduThlen 0x0188#16 false 100) State.reset) = some (.completed (.nat 126)) ∧
    thlen 0x00B4#16 false 0 = 16 ∧ thlen 0x0080#16 false 50 = 72 ∧ thlen 0xC388#16 true 0 = 44 ∧
    thlen 0x8074#16 false 4 = 20 ∧ thlen 0x03D4#16 false 0 = 16 ∧ thlen 0x0098#16 false 0 = 24 := by
  decide
theorem test_mpdu_thlen_v54t :
    stOf (exec (.mpduThlen 0x010C#16 false 0) State.reset) = some (true, 0x15#8, some (.num 0x0C)) := by
  decide

/-! Comparator (V62 to V69b). -/

/-- The three MPDUs of V45b. -/
def out45b : List MpduRx :=
  [mpduOf .dataFromDs [0xAA#8, 0xAA#8, 0x03#8, 0x00#8, 0x00#8] addrB
     { cfgDS with moreFrag := true, sc := 0x0020#16 },
   mpduOf .dataFromDs [0x00#8, 0x08#8, 0x00#8, 0xDE#8, 0xAD#8] addrB
     { cfgDS with moreFrag := true, sc := 0x0021#16 },
   mpduOf .dataFromDs [0xBE#8, 0xEF#8] addrB { cfgDS with sc := 0x0022#16 }]

theorem test_cmp_down_v62 :
    lastOf (exec (.cmpDown out45b exp4) State.reset) = some (.completed .pass) := by decide
/-- V63: a payload mismatch names the field and both values. -/
theorem test_cmp_down_v63 :
    cmpDown out45b { exp4 with payload := [0xDE#8, 0xAD#8, 0xBE#8, 0xEE#8] }
      = .error (excMismatch .payload (.bytes [0xDE#8, 0xAD#8, 0xBE#8, 0xEE#8]) (.bytes x4)) := by
  decide
/-- V65 and V66: the check under two values of `PATTERN_TAG`. -/
theorem test_cmp_up_v65 :
    cmpUp 0xCAFEF00D#32 (.ok (t55 42#16 true)) exp4 addrB = .ok .pass ∧
    cmpUp 0#32 (.ok (t55 42#16 true)) exp4 addrB = .error (excPair .pattern 0 0xCAFEF00D) := by decide
/-- V67: a theoretical-length mismatch. -/
theorem test_cmp_up_v67 :
    cmpUp 0xCAFEF00D#32 (.ok (t55 49#16 false)) exp4 addrB = .error (excPair .thLen 49 42) := by decide

/-! Faults, refusal, reset (V70 to V73). -/

/-- The state V70's first command leaves. -/
def faulted12 : State := State.reset.raise (excActual .prio 8)

theorem test_fault_entry_v70 :
    exec (.ethEnc addrD addrS 8 64 0x0800 none) State.reset = .next faulted12 := by rfl
theorem test_refused_v70 :
    exec (.fcPack 8 {}) faulted12 = .next (faulted12.refuse .faulted) ∧
    (faulted12.refuse .faulted).st = faulted12.st := by
  constructor <;> rfl
/-- V71: an undefined opcode is refused and the next command accepted. -/
theorem test_illegal_opcode_v71 :
    step (State.reset.setPending [⟨0x03#8, .unit⟩]) = .next (State.reset.refuse .illegalCmd) := by rfl
theorem test_fcb_reset_v72 :
    (stateOf (exec .fcbReset (stateSc 0x0010#16))).map (fun t => (t.st, t.counters))
      = some (Status.clear, Counters.clear) := by decide
theorem test_fcb_reset_faulted : lastOf (exec .fcbReset faulted12) = some (.completed .unit) := by decide
/-- An operand of another type, and one no command can have built, have no move (R233). -/
theorem test_no_move :
    step (State.reset.setPending [⟨0x01#8, .nat 6⟩]) = .refused .operandType ∧
    step (State.reset.setPending [⟨0x41#8, .mpdu { m31 with fc := 0#16 }⟩])
      = .refused .illFormedOperand := by
  constructor <;> rfl
/-- With nothing issued the block waits (R230). -/
theorem test_waits : step State.reset = .next State.reset := by rfl

/-- Every table word is decoded and run by the first step after reset. -/
theorem test_table_words :
    ∀ o ∈ opcodeTable,
      (decodeTableWord 8 (opcodeByte o).toNat).map Instr.opcode = some o ∧
      ((stateOf (step (State.reset.withFetchWord 8 (opcodeByte o).toNat))).map
        fun t => (t.pending, t.ended.length)) = some ([], 1) := by decide +kernel

/-! Witnesses: for each statement with hypotheses, a concrete state and operands that meet them together,
and for each of its clauses values at the boundary of the clause. -/

open Sys2Proof.Safety

/-- A command waiting to be taken. -/
def waiting (c : Command) : State := State.reset.setPending [c]

theorem witness_StepRunsDecodedCommand :
    (waiting ⟨0x52#8, .nat 0⟩).pending = ⟨0x52#8, .nat 0⟩ :: [] ∧
    decode ⟨0x52#8, .nat 0⟩ = .ok (.seqFrag 0) ∧ Instr.wf (.seqFrag 0) = true := by decide

theorem witness_UndefinedOpcodeRefused :
    ∀ op ∈ [0x03#8, 0x0F#8, 0x12#8, 0x54#8, 0x72#8, 0xFF#8],
      (waiting ⟨op, .unit⟩).pending = ⟨op, .unit⟩ :: [] ∧
      op ∉ [0x00#8, 0x01#8, 0x02#8, 0x10#8, 0x11#8, 0x20#8, 0x21#8, 0x30#8, 0x31#8, 0x40#8, 0x41#8,
            0x50#8, 0x51#8, 0x52#8, 0x53#8, 0x60#8, 0x61#8, 0x70#8, 0x71#8] := by decide

theorem witness_FaultedRefusesAllButReset :
    faulted12.st.faulted = true ∧ (Instr.seqReset 0) ≠ .fcbReset := by decide

/-- For FaultsComeBeforeEffects and FaultEntryLatchesStatus: a command that faults. -/
theorem witness_fault :
    exec (.ethEnc addrD addrS 8 64 0x0800 none) State.reset = .next faulted12 ∧
    faulted12.ended = State.reset.ended ++ [.faulted (excActual .prio 8)] := ⟨rfl, rfl⟩

theorem witness_StepKeepsInvariant :
    Inv (waiting ⟨0x52#8, .nat 0⟩) ∧
    ∃ t, step (waiting ⟨0x52#8, .nat 0⟩) = .next t ∧ t.counters.ap.sc = 0x0001#16 := by
  refine ⟨⟨⟨fun _ => ⟨rfl, rfl⟩, fun h => ?_⟩, ⟨rfl, rfl⟩, ?_, ?_⟩, _, rfl, by decide⟩
  · cases h
  · intro r h
    cases h
  · intro r h
    cases h

/-- The other case of the invariant: a FAULTED state, with E_PRIO's code, whose step is a refusal. -/
theorem witness_StepKeepsInvariant_faulted :
    Inv (faulted12.setPending [⟨0x52#8, .nat 0⟩]) ∧
    ∃ t, step (faulted12.setPending [⟨0x52#8, .nat 0⟩]) = .next t ∧ t.st.cause = 0x12#8 := by
  refine ⟨⟨⟨fun h => ?_, fun _ => by decide⟩, ⟨rfl, rfl⟩, ?_, ?_⟩, _, rfl, by decide⟩
  · cases h
  · intro r h
    cases h
  · intro e h
    cases List.mem_singleton.1 h
    trivial

theorem witness_PureCommandsFrame :
    isPure (.fcUnpack 0x0188#16) = true ∧ ∃ t, exec (.fcUnpack 0x0188#16) State.reset = .next t :=
  ⟨rfl, _, rfl⟩

/-- Both premises of the last two clauses: PAY.GEN 2 completes, PAY.GEN 1 does not. -/
theorem witness_DrawingCommandsFrame :
    (∃ t, exec (.payGen 2) State.reset = .next t ∧ ∃ r, t.ended = State.reset.ended ++ [.completed r]) ∧
    (∃ t, exec (.payGen 1) State.reset = .next t ∧
      ¬ ∃ r, t.ended = State.reset.ended ++ [.completed r]) ∧
    ∃ t, exec (.ethEnc addrD addrS 7 1500 0x0800 none) State.reset = .next t ∧
      ∃ r, t.ended = State.reset.ended ++ [.completed r] := by
  refine ⟨⟨_, rfl, _, rfl⟩, ⟨_, rfl, ?_⟩, ⟨_, rfl, _, rfl⟩⟩
  rintro ⟨r, h⟩
  cases h

theorem witness_CounterCommandsFrame :
    (∃ t, exec (.seqMsdu 0) State.reset = .next t ∧
      t.ended = State.reset.ended ++ [.completed (.word 0x0010#16)]) ∧
    roleOf 0 ≠ some .station ∧
    (∃ t, exec (.seqFrag 1) State.reset = .next t) ∧ ∃ t, exec (.seqReset 2) State.reset = .next t :=
  ⟨⟨_, rfl, rfl⟩, by decide, ⟨_, rfl⟩, ⟨_, rfl⟩⟩

/-- FRAG.SEND completes, with and without an override, and its two spellings expand to it. -/
theorem witness_FragmentCommandsFrame :
    (∃ t out, exec (.fragSend 0 f4 addrB 5 {} none) State.reset = .next t ∧
      t.ended = State.reset.ended ++ [.completed (.mpdus out)]) ∧
    (∃ t out, exec (.fragSendsc 0 f4 addrB 5 {} 0x1234#16) State.reset = .next t ∧
      t.ended = State.reset.ended ++ [.completed (.mpdus out)]) ∧
    (∃ t, exec (.fragSend 0 f4 addrB 0 {} none) State.reset = .next t ∧
      ¬ ∃ out, t.ended = State.reset.ended ++ [.completed (.mpdus out)]) ∧
    Instr.expand (.fragSendsc 0 f4 addrB 5 {} 0x1234#16) =
      .fragSend 0 f4 addrB 5 {} (some 0x1234#16) ∧
    Instr.expand (.mpduSend 0 f4 addrB {}) = .fragSend 0 f4 addrB 12 {} none ∧
    (some 0x1234#16 : Option U16) ≠ none ∧ roleOf 0 ≠ some .station := by
  refine ⟨⟨_, _, rfl, rfl⟩, ⟨_, _, rfl, rfl⟩, ⟨_, rfl, ?_⟩, rfl, rfl, by decide, by decide⟩
  rintro ⟨r, h⟩
  cases h

theorem witness_SourcesAreIndependent :
    (∃ t, exec (.seqMsdu 0) State.reset = .next t) ∧ (Instr.seqMsdu 0) ≠ .fcbReset ∧
    ∀ r, namedSource (.seqMsdu 0) = some r → roleOf r ≠ some .station := by
  refine ⟨⟨_, rfl⟩, by decide, ?_⟩
  rintro r ⟨⟩
  decide

theorem witness_MacMkResult :
    ready State.reset ∧ x4 ++ [0#8, 1#8] = addrBytes ⟨0xDE#8, 0xAD#8, 0xBE#8, 0xEF#8, 0#8, 1#8⟩ ∧
    (x4 ++ [0#8, 1#8]).length = 6 ∧ (x4 ++ [0#8]).length ≠ 6 ∧ (x4 ++ zeros 3).length ≠ 6 :=
  ⟨rfl, rfl, rfl, by decide, by decide⟩

theorem witness_PayGenResult :
    ready State.reset ∧ ((1 < 2 ∧ 2 ≤ 1500) ∧ (1 < 1500 ∧ 1500 ≤ 1500)) ∧
    ((1 ≤ 1 ∨ 1500 < 1) ∧ (1501 ≤ 1 ∨ 1500 < 1501)) := ⟨rfl, by decide, by decide⟩

theorem witness_EthEncCompletes :
    ready State.reset ∧ 7 < 8 ∧ 1 < 1500 ∧ 1500 ≤ 1500 ∧ 65535 < 65536 ∧ 65535 ≠ 0x8100 ∧
    ∀ t, some (⟨true, 4095⟩ : TagArg) = some t → t.vid < 4096 := by
  refine ⟨rfl, by decide, by decide, by decide, by decide, by decide, ?_⟩
  rintro t ⟨⟩
  decide

theorem witness_EthEncFaults :
    ready State.reset ∧ 8 ≤ 8 ∧ (7 < 8 ∧ ((1 ≤ 1 ∨ 1500 < 1) ∧ (1501 ≤ 1 ∨ 1500 < 1501))) ∧
    (1 < 2 ∧ 2 ≤ 1500 ∧ ((65536 ≤ 65536 ∨ 65536 = 0x8100) ∧ (65536 ≤ 0x8100 ∨ 0x8100 = 0x8100))) ∧
    (65535 < 65536 ∧ 65535 ≠ 0x8100 ∧
      some (⟨true, 4096⟩ : TagArg) = some ⟨true, 4096⟩ ∧ 4096 ≤ 4096) :=
  ⟨rfl, by decide, by decide, by decide, by decide, by decide, rfl, by decide⟩

/-- `f4` with a tag. -/
def f4t : EthFrame := { f4 with prio := 7#3, tag := some ⟨true, 0xFFF#12⟩ }

theorem witness_EthernetFrameLayout :
    f4.tag = none ∧ f4t.tag = some ⟨true, 0xFFF#12⟩ ∧
    ethDec (ethWire f4) = .ok ⟨addrD, addrS, false, 0#3, false, 0#12, 0x0800#16, x4⟩ ∧
    ethDec (ethWire f4t) = .ok ⟨addrD, addrS, true, 7#3, true, 0xFFF#12, 0x0800#16, x4⟩ := by decide

theorem witness_TaggedFrameCarriesPriority : f4t.tag = some ⟨true, 0xFFF#12⟩ := rfl

theorem witness_EthDecResult :
    ready State.reset ∧ (zeros 13).length < 14 ∧
    (14 ≤ (zeros 12 ++ [0x81#8, 0#8]).length ∧ rdBE16 (zeros 12 ++ [0x81#8, 0#8]) 12 = 0x8100#16 ∧
      (zeros 12 ++ [0x81#8, 0#8]).length < 18) ∧
    (18 ≤ (zeros 12 ++ [0x81#8, 0#8] ++ zeros 4).length ∧
      rdBE16 (zeros 12 ++ [0x81#8, 0#8] ++ zeros 4) 12 = 0x8100#16) ∧
    (14 ≤ (zeros 14).length ∧ rdBE16 (zeros 14) 12 ≠ 0x8100#16) :=
  ⟨rfl, by decide, by decide, by decide, by decide⟩

theorem witness_EthernetRoundTrip :
    ∃ t f, exec (.ethEnc addrD addrS 7 2 0x0800 (some ⟨true, 4095⟩)) State.reset = .next t ∧
      t.ended = State.reset.ended ++ [.completed (.ethFrame f)] ∧ ready State.reset :=
  ⟨_, _, rfl, rfl, rfl⟩

theorem witness_TciPacking : f4t.tag = some ⟨true, 0xFFF#12⟩ := rfl

theorem witness_LlcEncCompletes :
    ready State.reset ∧ 65535 < 65536 ∧ 65535 ≠ 0x8100 ∧ (⟨7, true, 4095⟩ : Dot1qArg).prio < 8 ∧
    (⟨7, true, 4095⟩ : Dot1qArg).vid < 4096 := ⟨rfl, by decide, by decide, by decide, by decide⟩

theorem witness_LlcEncFaults :
    ready State.reset ∧ ((65536 ≤ 65536 ∨ 65536 = 0x8100) ∧ (65536 ≤ 0x8100 ∨ 0x8100 = 0x8100)) ∧
    (0 < 65536 ∧ 0 ≠ 0x8100 ∧ some (⟨8, false, 4096⟩ : Dot1qArg) = some ⟨8, false, 4096⟩ ∧ 8 ≤ 8) ∧
    (some (⟨7, false, 4096⟩ : Dot1qArg) = some ⟨7, false, 4096⟩ ∧ 7 < 8 ∧ 4096 ≤ 4096) :=
  ⟨rfl, by decide, by decide, by decide⟩

/-- The fixed header and six bytes more. -/
def llcTagged : Bytes := snap ++ [0x81#8, 0#8, 0#8, 0#8]

theorem witness_LlcDecResult :
    ready State.reset ∧ (snap ++ [8#8]).length < 8 ∧
    slice (0xAB#8 :: zeros 7) 0 6 ≠ [0xAA#8, 0xAA#8, 0x03#8, 0x00#8, 0x00#8, 0x00#8] ∧
    (8 ≤ llcTagged.length ∧ rdBE16 llcTagged 6 = 0x8100#16 ∧ llcTagged.length < 18) ∧
    (rdBE16 (llcTagged ++ zeros 8) 6 = 0x8100#16 ∧
      slice (llcTagged ++ zeros 8) 10 6 ≠ [0xAA#8, 0xAA#8, 0x03#8, 0x00#8, 0x00#8, 0x00#8]) ∧
    (18 ≤ (llcTagged ++ snap ++ [8#8, 0#8]).length ∧
      slice (llcTagged ++ snap ++ [8#8, 0#8]) 0 6 =
        [0xAA#8, 0xAA#8, 0x03#8, 0x00#8, 0x00#8, 0x00#8] ∧
      rdBE16 (llcTagged ++ snap ++ [8#8, 0#8]) 6 = 0x8100#16 ∧
      slice (llcTagged ++ snap ++ [8#8, 0#8]) 10 6 =
        [0xAA#8, 0xAA#8, 0x03#8, 0x00#8, 0x00#8, 0x00#8]) ∧
    (8 ≤ (snap ++ [8#8, 0#8]).length ∧
      slice (snap ++ [8#8, 0#8]) 0 6 = [0xAA#8, 0xAA#8, 0x03#8, 0x00#8, 0x00#8, 0x00#8] ∧
      rdBE16 (snap ++ [8#8, 0#8]) 6 ≠ 0x8100#16) :=
  ⟨rfl, by decide, by decide, by decide, by decide, by decide, by decide⟩

theorem witness_LlcRoundTrip :
    ∃ t w, exec (.llcEnc [0x55#8] 0x0806 (some ⟨7, true, 4095⟩)) State.reset = .next t ∧
      t.ended = State.reset.ended ++ [.completed (.bytes w)] ∧ ready State.reset :=
  ⟨_, _, rfl, rfl, rfl⟩

theorem witness_FcPackResult :
    ready State.reset ∧ (0xF8 < 256 ∧ tsDefined (BitVec.ofNat 8 0xF8) = true) ∧
    (256 ≤ 256 ∨ tsDefined (BitVec.ofNat 8 256) = false) ∧
    (256 ≤ 0xFF ∨ tsDefined (BitVec.ofNat 8 0xFF) = false) :=
  ⟨rfl, by decide, by decide, by decide⟩

theorem witness_FcUnpackResult :
    ready State.reset ∧ tsDefined ((0xFFF8#16).extractLsb' 0 8) = true ∧
    tsDefined ((0x0001#16).extractLsb' 0 8) = false ∧ (0x0001#16).extractLsb' 0 2 ≠ 0#2 :=
  ⟨rfl, by decide, by decide, by decide⟩

theorem witness_FrameControlRoundTrip :
    tsDefined 0xE8#8 = true ∧
    fcUnpack 0x0208#16 = .ok ⟨2#2, 0#4, 0x08#8, { fromDs := true }⟩ := by decide

/-- A configuration with both DS flags and both addresses. -/
def cfgBoth : BuildCfg :=
  { cfgDS with toDs := true, ra := some addrB, ta := some addrS }

theorem witness_AddressSelection :
    ready State.reset ∧ ([] : Bytes).length ≤ 4294967295 ∧
    (tsDefined 0x08#8 = true ∧ isData 0x08#8 = true) ∧
    (cfgBoth.toDs = true ∧ cfgBoth.fromDs = true ∧ cfgBoth.ra = some addrB ∧
      cfgBoth.ta = some addrS) ∧
    (cfgDS.toDs = false ∧ cfgDS.fromDs = true) ∧
    (tsDefined 0xE0#8 = true ∧ isMgmt 0xE0#8 = true) ∧
    (tsDefined 0xB4#8 = true ∧ isData 0xB4#8 = false ∧ isMgmt 0xB4#8 = false) :=
  ⟨rfl, by decide, by decide, by decide, by decide, by decide, by decide⟩

theorem witness_MpduBuildCompletes :
    ready State.reset ∧ tsDefined cfgBoth.ts = true ∧ isData cfgBoth.ts = true ∧
    (cfgBoth.ra.isSome = true ∧ cfgBoth.ta.isSome = true) ∧ ([] : Bytes).length ≤ 4294967295 :=
  ⟨rfl, by decide, by decide, by decide, by decide⟩

theorem witness_MpduBuildFaults :
    ready State.reset ∧ tsDefined 0x0C#8 = false ∧
    (tsDefined 0xB4#8 = true ∧ isData 0xB4#8 = false ∧ isMgmt 0xB4#8 = false) ∧
    (isData cfgBoth.ts = true ∧ cfgBoth.toDs = true ∧ cfgBoth.fromDs = true ∧
      ({ cfgBoth with ta := none }.ra = none ∨ { cfgBoth with ta := none }.ta = none)) ∧
    4294967295 < (zeros 4294967296).length :=
  ⟨rfl, by decide, by decide, by decide, by
    rw [zeros, List.length_replicate]
    decide⟩

theorem witness_RxRecordLayout :
    m31.addrs.addr4 = none ∧ (mpduOf (.dataBothDs addrB addrS) [] addrB cfgBoth).addrs.addr4 =
      some addrS := by decide

theorem witness_MpduRetryResult :
    ready State.reset ∧ (m31.wf = true ∧ m31.cfg.retry = false) ∧
    { m31 with cfg := { cfgDS with retry := true } }.cfg.retry = true :=
  ⟨rfl, by decide, by decide⟩

/-- The reset state but for a dirty counter of source 0. -/
def dirty0 : State := State.reset.setDirty .accessPoint true

theorem witness_SeqResetResult :
    ready dirty0 ∧ roleOf 0 = some .accessPoint ∧ roleOf 1 = some .station ∧ 2 ≤ 2 :=
  ⟨rfl, by decide, by decide, by decide⟩

theorem witness_SeqMsduResult :
    ready (stateSc 0xFFF3#16) ∧ roleOf 0 = some .accessPoint ∧
    (stateSc 0xFFF3#16).dirty .accessPoint = false ∧
    (ready dirty0 ∧ dirty0.dirty .accessPoint = true) := ⟨rfl, rfl, rfl, rfl, rfl⟩

theorem witness_SeqFragResult :
    (ready (stateSc 0x001E#16) ∧ (stateSc 0x001E#16).dirty .accessPoint = false ∧
      ((stateSc 0x001E#16).sc .accessPoint).toNat % 16 < 15) ∧
    (ready (stateSc 0x001F#16) ∧ (stateSc 0x001F#16).dirty .accessPoint = false ∧
      ((stateSc 0x001F#16).sc .accessPoint).toNat % 16 = 15) ∧
    (ready dirty0 ∧ dirty0.dirty .accessPoint = true) :=
  ⟨⟨rfl, rfl, by decide⟩, ⟨rfl, rfl, rfl⟩, rfl, rfl⟩

/-- A frame whose LLC/SNAP body is 16 bytes. -/
def f8 : EthFrame := { f4 with payload := zeros 8 }

/-- A frame whose LLC/SNAP body is 17 bytes. -/
def f9 : EthFrame := { f4 with payload := zeros 9 }

theorem optOk_default : optOk {} := ⟨by decide, by decide, by decide⟩

/-- The three commands the statement is about. -/
theorem witness_FragSendFaults_forms :
    Instr.expand (.fragSend 2 f4 addrB 0 {} none) = .fragSend 2 f4 addrB 0 {} none ∧
    Instr.expand (.mpduSend 0 f4 addrB {}) = .fragSend 0 f4 addrB 12 {} none ∧
    Instr.expand (.fragSendsc 0 f4 addrB 0 {} 0x1234#16) =
      .fragSend 0 f4 addrB 0 {} (some 0x1234#16) := ⟨rfl, rfl, rfl⟩

theorem witness_FragSendFaults :
    ready State.reset ∧ roleOf 0 = some .accessPoint ∧ 2 ≤ 2 ∧ tsDefined 0x0C#8 = false ∧
    (tsDefined 0x80#8 = true ∧ isData 0x80#8 = false) ∧
    (tsDefined ({ toDs := true } : FragOpt).ts = true ∧ isData ({ toDs := true } : FragOpt).ts = true ∧
      ({ toDs := true } : FragOpt).fromDs = true ∧ ({ toDs := true } : FragOpt).ra = none) ∧
    (0 < 1 ∧ optOk {} ∧ dirty0.dirty .accessPoint = true) ∧
    (State.reset.dirty .accessPoint = false ∧ 16 < fragCount f9 1) ∧
    16 < (scFrag 0x0001#16).toNat + fragCount f8 1 :=
  ⟨rfl, rfl, by decide, by decide, by decide, by decide, ⟨by decide, optOk_default, rfl⟩, by decide,
    by decide⟩

theorem witness_FragSendCompletes :
    ready State.reset ∧ roleOf 1 = some .station ∧ f8.wf = true ∧ 0 < 1 ∧ optOk {} ∧
    State.reset.dirty .station = false ∧ fragCount f8 1 ≤ 16 :=
  ⟨rfl, rfl, by decide, by decide, optOk_default, rfl, by decide⟩

theorem witness_FragSendOverrideCompletes :
    ready dirty0 ∧ roleOf 0 = some .accessPoint ∧ f8.wf = true ∧ 0 < 2 ∧ optOk {} ∧
    (scFrag 0x1238#16).toNat + fragCount f8 2 ≤ 16 :=
  ⟨rfl, rfl, by decide, by decide, optOk_default, by decide⟩

theorem witness_MpduSendCompletes :
    ready State.reset ∧ roleOf 1 = some .station ∧ f8.wf = true ∧ optOk {} ∧
    State.reset.dirty .station = false := ⟨rfl, rfl, by decide, optOk_default, rfl⟩

theorem witness_FragmentLoopChunks :
    f4.wf = true ∧ roleOf 0 = some .accessPoint ∧
    (∃ t out, exec (.fragSend 0 f4 addrB 5 {} none) State.reset = .next t ∧
      t.ended = State.reset.ended ++ [.completed (.mpdus out)]) ∧
    ∃ t out, exec (.fragSend 0 f4 addrB 5 {} (some 0x123D#16)) State.reset = .next t ∧
      t.ended = State.reset.ended ++ [.completed (.mpdus out)] :=
  ⟨by decide, rfl, ⟨_, _, rfl, rfl⟩, _, _, rfl, rfl⟩

/-- Two FRAG.SENDs on source 0, the second from the state the first left. -/
theorem witness_SequenceAdvancesOncePerMsdu :
    f4.wf = true ∧ roleOf 0 = some .accessPoint ∧
    ∃ t out1, exec (.fragSend 0 f4 addrB 12 {} none) State.reset = .next t ∧
      t.ended = State.reset.ended ++ [.completed (.mpdus out1)] ∧
      t.sc .accessPoint = t.sc .accessPoint ∧
      ∃ t' out2, exec (.fragSend 0 f4 addrB 12 {} none) t = .next t' ∧
        t'.ended = t.ended ++ [.completed (.mpdus out2)] :=
  ⟨by decide, rfl, _, _, rfl, rfl, rfl, _, _, rfl, rfl⟩

theorem witness_TheoreticalLength :
    ready State.reset ∧ tsDefined ((0xC388#16).extractLsb' 0 8) = true ∧
    tsDefined ((0x010C#16).extractLsb' 0 8) = false ∧ (0xBF88#16).getLsbD 14 = false :=
  ⟨rfl, by decide, by decide, by decide⟩

/-- A 42-byte record of a CTS frame: prefix and fixed header, no body. -/
def recCts : Bytes := zeros 32 ++ [0xC4#8, 0x00#8] ++ zeros 8

theorem witness_ParseShortOrUndefined :
    ready State.reset ∧ (zeros 41).length < 42 ∧
    (42 ≤ (zeros 32 ++ [0x0C#8] ++ zeros 9).length ∧
      tsDefined (byteAt (zeros 32 ++ [0x0C#8] ++ zeros 9) 32) = false) :=
  ⟨rfl, by decide, by decide⟩

/-- The three clauses: a header that just fits, one whose fixed part does not, and one whose extended IV
does not (the record of V56 without its last eight bytes). -/
theorem witness_ParseCompletes :
    ready State.reset ∧
    (42 ≤ recCts.length ∧ tsDefined (byteAt recCts 32) = true ∧
      32 + thlen (rdLE16 recCts 32) false 0 ≤ recCts.length) ∧
    (42 ≤ (zeros 32 ++ [0xB4#8] ++ zeros 9).length ∧
      tsDefined (byteAt (zeros 32 ++ [0xB4#8] ++ zeros 9) 32) = true ∧
      (zeros 32 ++ [0xB4#8] ++ zeros 9).length < 32 + thlen 0x00B4#16 false 0) ∧
    (tsDefined (byteAt ((rec56 0x20#8).take 73) 32) = true ∧
      32 + thlen 0xC308#16 false 0 ≤ ((rec56 0x20#8).take 73).length ∧
      ((rec56 0x20#8).take 73).length < 32 + thlen 0xC308#16 true 0) :=
  ⟨rfl, by decide, by decide, by decide⟩

/-- For ParsedFieldsPresence, ParseLosesNothing and ParseLengthSelfCheck: records that parse, one without
and one with an IV. -/
theorem witness_parse :
    (∃ t, parseRec Config.ivExtBit recCts = .ok (.ok t) ∧ t.iv = none) ∧
    (∃ t, parseRec Config.ivExtBit (rec56 0x20#8) = .ok (.ok t) ∧ t.iv = some 0x60000020#32) ∧
    ∃ s t, exec (.mpduParse recCts) State.reset = .next s ∧
      s.ended = State.reset.ended ++ [.completed (.parsed (.ok t))] :=
  ⟨⟨_, rfl, rfl⟩, ⟨_, rfl, rfl⟩, _, _, rfl, rfl⟩

theorem witness_CmpDownPasses :
    ready State.reset ∧ out45b ≠ [] ∧
    (∀ m ∈ out45b, m.cfg.dst = exp4.dst ∧ m.cfg.src = exp4.src ∧ m.bssid = addrB) ∧
    out45b.flatMap MpduRx.body = llcFrame exp4.payload exp4.etype none ∧
    ((none : Option (BitVec 3 × Tag)) = none → exp4.etype ≠ 0x8100#16) :=
  ⟨rfl, by decide, by decide, by decide, by decide⟩

/-- Each check of CMP.DOWN: the first MPDU of another triple, a body that does not decode, and each of
the four comparisons. -/
theorem witness_CmpDownFaults :
    ready State.reset ∧
    ([m31, { m31 with bssid := addrD }][1]? = some { m31 with bssid := addrD } ∧
      (m31.cfg.dst, m31.cfg.src, addrD) ≠ (m31.cfg.dst, m31.cfg.src, m31.bssid) ∧
      ∀ k m', k < 1 → [m31, { m31 with bssid := addrD }][k]? = some m' →
        (m'.cfg.dst, m'.cfg.src, m'.bssid) = (m31.cfg.dst, m31.cfg.src, m31.bssid)) ∧
    llcDec ([m31].flatMap MpduRx.body) = .notOk ∧
    llcDec (out45b.flatMap MpduRx.body) = .ok ⟨false, 0#3, false, 0#12, 0x0800#16, x4⟩ ∧
    (∀ m ∈ out45b, (m.cfg.dst, m.cfg.src, m.bssid) = (addrD, addrS, addrB)) ∧
    addrD ≠ addrB ∧ addrS ≠ addrB ∧ 0x0800#16 ≠ 0x0801#16 ∧ x4 ≠ [] := by
  refine ⟨rfl, ⟨rfl, by decide, ?_⟩, by decide, by decide, by decide, by decide, by decide, by decide,
    by decide⟩
  intro k m' hk hm
  obtain rfl : k = 0 := by omega
  cases hm
  rfl

theorem witness_DownlinkScenario :
    ∃ f t0 t1 out, exec (.ethEnc addrD addrS 3 4 0x0800 none) State.reset = .next t0 ∧
      t0.ended = State.reset.ended ++ [.completed (.ethFrame f)] ∧
      exec (.fragSend 0 f addrB 5 {} none) State.reset = .next t1 ∧
      t1.ended = State.reset.ended ++ [.completed (.mpdus out)] ∧ ready State.reset ∧
      [] ≠ f.payload :=
  ⟨_, _, _, _, rfl, rfl, rfl, rfl, rfl, by simp [ethFrameOf, State.drawn, List.range_succ]⟩

/-- `t55` with the pattern tag the parameter asks for, whatever it is. -/
def tPass : MpduTx := { t55 42#16 true with policy := ⟨Config.patternTag, 1#32, 2#32, 3#32, 4#32, 5#32, 6#32⟩ }

theorem witness_CmpUpPasses :
    ready State.reset ∧ tPass.policy.w0 = Config.patternTag ∧ tPass.lenOk = true ∧
    tPass.addr1 = addrB ∧ tPass.addr2 = some exp4.src ∧ tPass.addr3 = some exp4.dst ∧
    (zeros 4).length = 4 ∧ tPass.body = llcFrame exp4.payload exp4.etype none ++ zeros 4 ∧
    exp4.dot1q = (none : Option (BitVec 3 × Tag)).isSome ∧
    ((none : Option (BitVec 3 × Tag)) = none → exp4.etype ≠ 0x8100#16) :=
  ⟨rfl, rfl, rfl, rfl, rfl, rfl, rfl, by decide, rfl, by decide⟩

/-- Each check of CMP.UP: what makes it fail where those before it pass. -/
theorem witness_CmpUpFaults :
    ready State.reset ∧ Config.patternTag + 1#32 ≠ Config.patternTag ∧
    { tPass with lenOk := false }.lenOk = false ∧ tPass.addr1 ≠ addrD ∧
    { tPass with addr2 := none }.addr2 ≠ some exp4.src ∧
    { tPass with addr3 := none }.addr3 ≠ some exp4.dst ∧ (zeros 3).length < 4 ∧
    (4 ≤ (zeros 4).length ∧ llcDec ((zeros 4).take ((zeros 4).length - 4)) = .notOk) ∧
    llcDec (tPass.body.take (tPass.body.length - 4)) =
      .ok ⟨false, 0#3, false, 0#12, 0x0800#16, x4⟩ ∧
    false ≠ true ∧ 0x0800#16 ≠ 0x0801#16 ∧ x4 ≠ [] := by
  refine ⟨rfl, ?_, rfl, by decide, by decide, by decide, by decide, by decide, by decide, by decide,
    by decide, by decide⟩
  intro h
  have h1 := congrArg BitVec.toNat h
  have h2 := Config.patternTag.isLt
  simp only [BitVec.toNat_add, BitVec.toNat_ofNat] at h1
  omega

theorem witness_ComparatorFailureLatches :
    ready State.reset ∧
    ((∃ ms exp, Instr.cmpDown out45b exp4 = .cmpDown ms exp) ∨
      ∃ p exp ap, Instr.cmpDown out45b exp4 = .cmpUp p exp ap) ∧
    ((∃ ms exp, Instr.cmpUp .notOk exp4 addrB = .cmpDown ms exp) ∨
      ∃ p exp ap, Instr.cmpUp .notOk exp4 addrB = .cmpUp p exp ap) ∧
    Instr.seqReset 0 ≠ .fcbReset :=
  ⟨rfl, .inl ⟨_, _, rfl⟩, .inr ⟨_, _, _, rfl⟩, by decide⟩

end Sys2Proof.Tests
end

section
/-!
PROOF. Every command ends in one step, in exactly one of three ways (R14, R209, R236).
-/

namespace Sys2Proof.Proofs

open Sys2Proof.Machine Sys2Proof.Laws

/-- FCB.RESET is never refused: it completes in every state, FAULTED or not (R209, R231). -/
theorem exec_fcbReset (s : State) :
    exec .fcbReset s = .next (s.resetBlock.close (.completed .unit)) := rfl

/-- The pseudocode of a completed command reports nothing itself. -/
theorem ended_of_completes {i : Instr} {s t : State} {r : Result} (h : Completes i s t r) :
    t.ended = s.ended := by
  obtain ⟨-, -, hended, -⟩ := h
  exact hended

/-- Settles O5: FCB.RESET always completes, and each of the three cases of `exec_cases` for the other
commands reports one completion, a refusal only in the case where the block is FAULTED. -/
theorem everyCommandEndsOnce : Obligations.EveryCommandEndsOnce := by
  intro i s
  by_cases hi : i = .fcbReset
  · subst hi
    exact ⟨_, .completed .unit, exec_fcbReset s, by simp, by simp⟩
  · rcases exec_cases i hi s with ⟨hf, he⟩ | ⟨hf, t, r, hc, he⟩ | ⟨hf, x, -, he⟩
    · exact ⟨_, .refused .faulted, he, by simp, by simp [hf, hi]⟩
    · exact ⟨_, .completed r, he, by simp [ended_of_completes hc], by simp [hf]⟩
    · exact ⟨_, .faulted x, he, by simp, by simp [hf]⟩

end Sys2Proof.Proofs
end

section
/-!
PROOF. What one step does with the oldest command (R21, R50, R60), and the values reset leaves (R30).
-/

namespace Sys2Proof.Proofs

open Sys2Proof.Machine

/-- With no command issued the block waits (R230). -/
theorem step_of_pending_nil {s : State} (h : s.pending = []) : step s = .next s := by
  simp [step, h]

/-- A step takes the oldest command, in the state from which that command has been removed (R50). -/
theorem step_of_pending_cons {s : State} {c : Command} {rest : List Command}
    (h : s.pending = c :: rest) : step s = issueCommand c (s.setPending rest) := by
  simp [step, h]

/-- A command that decodes to a well-formed instruction is executed as that instruction (R60). -/
theorem issueCommand_of_decode {c : Command} {i : Instr} (hd : decode c = .ok i) (hw : i.wf = true)
    (s : State) : issueCommand c s = exec i s := by
  simp [issueCommand, hd, hw]

/-- A command that answers a next state had an undefined opcode and was refused (R64), or was executed
as the well-formed instruction it decodes to. -/
theorem issueCommand_next {c : Command} {s t : State} (h : issueCommand c s = .next t) :
    t = s.refuse .illegalCmd ∨ ∃ i, decode c = .ok i ∧ i.wf = true ∧ exec i s = .next t := by
  unfold issueCommand at h
  split at h
  · cases h
    exact .inl rfl
  · cases h
  · next i hd =>
    split at h
    · next hw => exact .inr ⟨i, hd, hw, h⟩
    · cases h

/-- Settles O1: the step hands the oldest command over, and the command runs as it decodes. -/
theorem stepRunsDecodedCommand : Obligations.StepRunsDecodedCommand := by
  intro s c rest i hp hd hw
  calc step s = issueCommand c (s.setPending rest) := step_of_pending_cons hp
    _ = exec i (s.setPending rest) := issueCommand_of_decode hd hw _

/-- Settles O10: the fields of `State.reset` are these values by definition. -/
theorem resetValues : Obligations.ResetValues := ⟨rfl, rfl, rfl⟩

end Sys2Proof.Proofs
end

section
/-!
PROOF. The invariant of the reachable states (R23, R26, R28, R77): one rule for each way the state
changes, then every command and every step keeps it.
-/

namespace Sys2Proof.Proofs

open Sys2Proof.Machine Sys2Proof.Laws Sys2Proof.Safety

/-! What `ST`, the counters and a record must satisfy. -/

theorem statusOk_clear : statusOk Status.clear := ⟨fun _ => ⟨rfl, rfl⟩, nofun⟩

/-- A latched status is consistent where its cause is the code of a fault (R203, R208). -/
theorem statusOk_latched {cause : Byte} (h : cause ∈ faultCodes) (info : Info) :
    statusOk ⟨true, cause, info⟩ := ⟨nofun, fun _ => h⟩

theorem countersClean_clear : countersClean Counters.clear := ⟨rfl, rfl⟩

/-- What the serializer makes of any MPDU has the length of an RX record (R77). -/
theorem recordOk_ser (m : MpduRx) : recordOk (ser m) := by
  rw [recordOk, ser_length, pad4]
  omega

/-! One rule for each operation on the state. -/

/-- Settles O11: the status and the counters are clear, and nothing has been emitted or reported. -/
theorem resetMeetsInvariant : Obligations.ResetMeetsInvariant :=
  ⟨statusOk_clear, countersClean_clear, fun _ hmem => absurd hmem List.not_mem_nil,
    fun _ hmem => absurd hmem List.not_mem_nil⟩

/-- The invariant says nothing of the commands still issued. -/
theorem inv_setPending {s : State} (h : Inv s) (cs : List Command) : Inv (s.setPending cs) := h

/-- Reporting a consistent completion keeps the invariant. -/
theorem inv_close {s : State} {e : Completion} (h : Inv s) (he : completionOk e) :
    Inv (s.close e) := by
  obtain ⟨hst, hclean, htxq, hended⟩ := h
  refine ⟨hst, hclean, htxq, fun e' hmem => ?_⟩
  rcases List.mem_append.1 hmem with hold | hnew
  · exact hended e' hold
  · rw [List.mem_singleton.1 hnew]
    exact he

/-- A refusal has no effect but its report (R209). -/
theorem inv_refuse {s : State} (h : Inv s) (c : Cause) : Inv (s.refuse c) := inv_close h trivial

/-- Fault entry latches the code of a fault (R208). -/
theorem inv_raise {s : State} {x : Exc} (h : Inv s) (hx : causeCode x.cause ∈ faultCodes) :
    Inv (s.raise x) := by
  obtain ⟨-, hclean, htxq, hended⟩ := h
  exact inv_close ⟨statusOk_latched hx x.info, hclean, htxq, hended⟩ trivial

/-- The reset of the block clears the status and the counters and keeps `TXQ` (R231). -/
theorem inv_resetBlock {s : State} (h : Inv s) : Inv s.resetBlock := by
  obtain ⟨-, -, htxq, hended⟩ := h
  exact ⟨statusOk_clear, countersClean_clear, htxq, hended⟩

/-- The pseudocode of a completed command keeps the invariant: what it emits are RX records (R46). -/
theorem inv_of_completes {i : Instr} {s t : State} {r : Result} (h : Inv s)
    (hc : Completes i s t r) : Inv t := by
  obtain ⟨hst, hclean, htxq, hended⟩ := h
  obtain ⟨est, -, eended, -, kclean, -, -, ⟨ms, etxq, -, -, -⟩, -⟩ := hc
  refine ⟨est ▸ hst, kclean hclean, fun rec hmem => ?_, eended ▸ hended⟩
  rw [etxq] at hmem
  rcases List.mem_append.1 hmem with hold | hnew
  · exact htxq rec hold
  · obtain ⟨m, -, rfl⟩ := List.mem_map.1 hnew
    exact recordOk_ser m

/-- A completed command with well-formed operands hands back a consistent result (R28). -/
theorem resultOk_of_completes {i : Instr} {s t : State} {r : Result} (hw : i.wf = true)
    (hc : Completes i s t r) : resultOk r := by
  obtain ⟨-, -, -, -, -, -, -, -, hok⟩ := hc
  exact hok hw

/-! Commands and steps. -/

/-- Every command with well-formed operands keeps the invariant. -/
theorem exec_keeps_inv {i : Instr} {s t : State} (hw : i.wf = true) (h : Inv s)
    (he : exec i s = .next t) : Inv t := by
  by_cases hi : i = .fcbReset
  · subst hi
    rw [exec_fcbReset] at he
    cases he
    exact inv_close (inv_resetBlock h) trivial
  · rcases exec_cases i hi s with ⟨-, hr⟩ | ⟨-, t', r, hc, hr⟩ | ⟨-, x, hx, hr⟩ <;>
      rw [hr] at he <;> cases he
    · exact inv_refuse h _
    · exact inv_close (inv_of_completes h hc) (resultOk_of_completes hw hc)
    · exact inv_raise h hx

/-- Settles O12: a waiting block does not change, an undefined opcode is refused, and every other
command that has a move keeps the invariant by `exec_keeps_inv`. -/
theorem stepKeepsInvariant : Obligations.StepKeepsInvariant := by
  intro s t h hstep
  cases hp : s.pending with
  | nil =>
    rw [step_of_pending_nil hp] at hstep
    cases hstep
    exact h
  | cons c rest =>
    rw [step_of_pending_cons hp] at hstep
    have hpop : Inv (s.setPending rest) := inv_setPending h rest
    rcases issueCommand_next hstep with rfl | ⟨i, -, hw, he⟩
    · exact inv_refuse hpop _
    · exact exec_keeps_inv hw hpop he

end Sys2Proof.Proofs
end

section
/-!
PROOF. The sources' counters are independent (R24).
-/

namespace Sys2Proof.Proofs

open Sys2Proof.Machine Sys2Proof.Laws Sys2Proof.Safety

/-- A completed command leaves the counter of a source it does not name as it was. -/
theorem counter_of_completes {i : Instr} {s t : State} {r : Result} {role : Role}
    (hc : Completes i s t r) (hn : ∀ n, namedSource i = some n → roleOf n ≠ some role) :
    t.counters.get role = s.counters.get role := by
  obtain ⟨-, -, -, -, -, hother, -⟩ := hc
  exact hother role hn

/-- Settles O17: a refusal and a fault write no counter, and a completion none but the named source's. -/
theorem sourcesAreIndependent : Obligations.SourcesAreIndependent := by
  intro i s t role he hi hn
  rcases exec_cases i hi s with ⟨-, hr⟩ | ⟨-, t', r, hc, hr⟩ | ⟨-, x, -, hr⟩ <;>
    rw [hr] at he <;> cases he
  · rw [refuse_counters]
  · rw [close_counters, counter_of_completes hc hn]
  · rw [raise_counters]

end Sys2Proof.Proofs
end

section
/-!
PROOF. What the commands that name no source leave as it was (R47): the twelve that write no state, and
the two that draw bytes.
-/

namespace Sys2Proof.Proofs

open Sys2Proof.Machine Sys2Proof.Laws Sys2Proof.Safety

/-! One completion is reported, and `ST` is kept except by a fault. -/

theorem oneCompletion_refuse (s : State) (c : Cause) : oneCompletion s (s.refuse c) :=
  ⟨.refused c, rfl, fun _ => rfl⟩

theorem oneCompletion_raise (s : State) (x : Exc) : oneCompletion s (s.raise x) :=
  ⟨.faulted x, rfl, fun h => absurd rfl (h x)⟩

/-- A pseudocode that keeps `ST` and reports nothing itself is closed by one completion (R14). -/
theorem oneCompletion_close {s t : State} (hst : t.st = s.st) (hended : t.ended = s.ended)
    (e : Completion) : oneCompletion s (t.close e) :=
  ⟨e, congrArg (· ++ [e]) hended, fun _ => hst⟩

/-- Every command but FCB.RESET reports one completion and keeps `ST` unless it faults (R14, R208). -/
theorem oneCompletion_of_exec {i : Instr} {s t : State} (hi : i ≠ .fcbReset)
    (he : exec i s = .next t) : oneCompletion s t := by
  rcases exec_cases i hi s with ⟨-, hr⟩ | ⟨-, t', r, hc, hr⟩ | ⟨-, x, -, hr⟩ <;>
    rw [hr] at he <;> cases he
  · exact oneCompletion_refuse s _
  · obtain ⟨hst, -, hended, -⟩ := hc
    exact oneCompletion_close hst hended _
  · exact oneCompletion_raise s x

/-! The commands that write no state. -/

/-- The pseudocode of a command that writes no state completes in the state it began in (R47). -/
theorem eq_of_completes_pure {i : Instr} {s t : State} {r : Result} (hp : isPure i = true)
    (hc : Completes i s t r) : t = s := by
  obtain ⟨-, -, -, -, -, -, hpure, -⟩ := hc
  exact hpure hp

/-- Settles O13: a refusal and a fault write nothing but the report and `ST`, and a completion of one of
the twelve leaves the whole state. -/
theorem pureCommandsFrame : Obligations.PureCommandsFrame := by
  intro i s t hp he
  have hi : i ≠ .fcbReset := by
    rintro rfl
    cases hp
  have hone := oneCompletion_of_exec hi he
  rcases exec_cases i hi s with ⟨-, hr⟩ | ⟨-, t', r, hc, hr⟩ | ⟨-, x, -, hr⟩ <;>
    rw [hr] at he <;> cases he
  · exact ⟨rfl, rfl, rfl, rfl, hone⟩
  · cases eq_of_completes_pure hp hc
    exact ⟨rfl, rfl, rfl, rfl, hone⟩
  · exact ⟨rfl, rfl, rfl, rfl, hone⟩

/-! The commands that draw bytes. -/

/-- PAY.GEN completes in the state in which its `n` bytes are drawn and nothing else is changed (R103). -/
theorem payGen_ok_state {n : Nat} {s t : State} {r : Result} (h : payGen n s = .ok (t, r)) :
    t = s.afterDraw n := by
  simp only [payGen, raiseIf_eq_ok, Except.ok.injEq, Prod.mk.injEq] at h
  obtain ⟨-, ht, -⟩ := h
  exact ht.symm

/-- ETH.ENC completes in the state in which its payload is drawn and nothing else is changed (R111). -/
theorem ethEnc_ok_state {dst src : MacAddr} {prio length etype : Nat} {tag : Option TagArg}
    {s t : State} {r : Result} (h : ethEnc dst src prio length etype tag s = .ok (t, r)) :
    t = s.afterDraw length := by
  obtain ⟨-, -, -, -, -, ht, -⟩ := ethEnc_ok h
  exact ht

/-- What a pseudocode that can only draw `n` bytes makes of the state: it is refused, it completes with
the bytes drawn, or it faults (R14, R47). -/
theorem issue_draw_cases {n : Nat} {s t : State} {body : Except Exc (State × Result)}
    (hbody : ∀ t r, body = .ok (t, r) → t = s.afterDraw n) (h : s.issue body = .next t) :
    t = s.refuse .faulted ∨ (∃ r, t = (s.afterDraw n).close (.completed r)) ∨
      ∃ x, t = s.raise x := by
  rcases issue_cases s body with ⟨-, hr⟩ | ⟨-, t', r, hb, hr⟩ | ⟨-, x, -, hr⟩ <;>
    rw [hr] at h <;> cases h
  · exact .inl rfl
  · cases hbody t' r hb
    exact .inr (.inl ⟨r, rfl⟩)
  · exact .inr (.inr ⟨x, rfl⟩)

/-- Settles O14: of the three cases of `issue_draw_cases`, the completion draws the bytes, and the refusal
and the fault, which report no completed command, draw none. -/
theorem drawingCommandsFrame : Obligations.DrawingCommandsFrame := by
  intro i n s t hi he
  have hcases : t = s.refuse .faulted ∨ (∃ r, t = (s.afterDraw n).close (.completed r)) ∨
      ∃ x, t = s.raise x := by
    rcases hi with rfl | ⟨dst, src, prio, etype, tag, rfl⟩
    · exact issue_draw_cases (fun _ _ => payGen_ok_state) he
    · exact issue_draw_cases (fun _ _ => ethEnc_ok_state) he
  rcases hcases with rfl | ⟨r, rfl⟩ | ⟨x, rfl⟩
  · exact ⟨rfl, rfl, rfl, oneCompletion_refuse s _, by simp, fun _ => rfl⟩
  · exact ⟨rfl, rfl, rfl, oneCompletion_close rfl rfl _, fun _ => rfl,
      fun hnot => absurd ⟨r, rfl⟩ hnot⟩
  · exact ⟨rfl, rfl, rfl, oneCompletion_raise s x, by simp, fun _ => rfl⟩

end Sys2Proof.Proofs
end

section
/-!
PROOF. The opcode map and the operand records: what an opcode byte names, that an undefined one is
refused, and that a command is decoded from its issued form and from one with operands omitted
(R60 to R64, R86).
-/

namespace Sys2Proof.Proofs

open Sys2Proof.Machine Sys2Proof.Laws

/-! What an opcode byte names. -/

/-- A byte is undefined exactly where it is none of the map's nineteen (R61, R64). -/
theorem opcodeOf_eq_none {op : Byte} : opcodeOf op = none ↔ op ∉ opcodeTable.map opcodeByte := by
  simp [opcodeOf]

/-- The opcode map gives each command a byte of its own (R61). -/
@[simp] theorem opcodeOf_opcodeByte (o : Opcode) : opcodeOf (opcodeByte o) = some o := by
  cases o <;> rfl

theorem decode_of_undefined {c : Command} (h : c.op ∉ opcodeTable.map opcodeByte) :
    decode c = .error .illegalOpcode := by
  simp [decode, opcodeOf_eq_none.2 h]

/-- Under a defined opcode the operand record decides (R60). -/
theorem decode_opcodeByte (o : Opcode) (a : Operands) : decode ⟨opcodeByte o, a⟩ = decodeArgs o a := by
  simp [decode]

/-- A command with an undefined opcode is refused, whatever its operand record (R64). -/
theorem issueCommand_of_undefined {c : Command} (h : c.op ∉ opcodeTable.map opcodeByte) (s : State) :
    issueCommand c s = .next (s.refuse .illegalCmd) := by
  simp [issueCommand, decode_of_undefined h]

/-- Settles O2: the bytes listed are those of the opcode map, and any other one is refused. -/
theorem undefinedOpcodeRefused : Obligations.UndefinedOpcodeRefused := by
  intro s c rest hp hop
  calc step s = issueCommand c (s.setPending rest) := step_of_pending_cons hp
    _ = .next ((s.setPending rest).refuse .illegalCmd) := issueCommand_of_undefined hop _

/-! Operands given and omitted. -/

@[simp] theorem assemble_given_fcFlags (f : FcFlags) : f.given.assemble = f := rfl
@[simp] theorem assemble_given_buildCfg (c : BuildCfg) : c.given.assemble = c := rfl
@[simp] theorem assemble_given_fragOpt (o : FragOpt) : o.given.assemble = o := rfl

/-- The operand record a command is issued with is of the type its opcode fixes and gives every operand
back; a pseudo-command's is that of the FRAG.SEND it spells (R60, R63). -/
theorem decodeArgs_operands (i : Instr) : decodeArgs i.opcode i.operands = .ok i.expand := by
  cases i <;> simp [Instr.opcode, Instr.operands, Instr.expand, decodeArgs]

/-- Settles O3: the opcode byte names the command's opcode, under which its operands are read back. -/
theorem decodeEncodeAgree : Obligations.DecodeEncodeAgree := fun i =>
  calc decode (encode i) = decodeArgs i.opcode i.operands := decode_opcodeByte _ _
    _ = .ok i.expand := decodeArgs_operands i

/-- Settles O4: each byte is that of the named opcode in the map, and the defaults are those
`decodeArgs` puts in place of what is omitted. -/
theorem writtenOpcodesDecode : Obligations.WrittenOpcodesDecode :=
  ⟨decode_opcodeByte .fcbReset _, fun _ => decode_opcodeByte .ethDec _,
    fun _ => decode_opcodeByte .fcUnpack _, fun _ => decode_opcodeByte .seqMsdu _,
    fun _ _ _ => decode_opcodeByte .cmpUp _, fun _ _ _ _ _ _ => decode_opcodeByte .ethEnc _,
    fun _ _ _ => decode_opcodeByte .llcEnc _, fun _ _ => decode_opcodeByte .fcPack _,
    fun _ _ _ => decode_opcodeByte .mpduBuild _,
    fun _ _ _ _ _ _ => decode_opcodeByte .fragSend _⟩

end Sys2Proof.Proofs
end

section
/-!
PROOF. The Ethernet frame on the wire and the tag control word (R66, R67, R69).
-/

namespace Sys2Proof.Proofs

open Sys2Proof.Machine Sys2Proof.Laws

/-! The two forms of the frame. -/

/-- The bytes of an untagged frame (R67). -/
theorem ethWire_untagged {f : EthFrame} (h : f.tag = none) :
    ethWire f = addrBytes f.dst ++ addrBytes f.src ++ be16 f.etype ++ f.payload := by
  simp [ethWire, h]

/-- The bytes of a tagged frame (R67). -/
theorem ethWire_tagged {f : EthFrame} {t : Tag} (h : f.tag = some t) :
    ethWire f = addrBytes f.dst ++ addrBytes f.src ++ be16 Config.etypeDot1q ++
      be16 (tci f.prio t.cfi t.vid) ++ be16 f.etype ++ f.payload := by
  simp [ethWire, h]

/-- The tag control word stands at offset 14 of a tagged frame (R66, R67). -/
theorem slice_ethWire_tci {f : EthFrame} {t : Tag} (h : f.tag = some t) :
    slice (ethWire f) 14 2 = be16 (tci f.prio t.cfi t.vid) := by
  rw [ethWire_tagged h]
  rfl

/-- The tag control word stands at offset 8 of a tagged LLC/SNAP frame (R66, R69). -/
theorem slice_llcFrame_tci (payload : Bytes) (etype : U16) (p : BitVec 3) (t : Tag) :
    slice (llcFrame payload etype (some (p, t))) 8 2 = be16 (tci p t.cfi t.vid) := rfl

/-- The fields ETH.DEC reads where 0x8100 stands at offset 12 (R114). -/
def taggedFieldsOf (b : Bytes) : EthDecoded where
  dst := addrAt b 0
  src := addrAt b 6
  dot1q := true
  prio := tciPrio (rdBE16 b 14)
  cfi := tciCfi (rdBE16 b 14)
  vid := tciVid (rdBE16 b 14)
  etype := rdBE16 b 16
  payload := b.drop 18

/-- The fields ETH.DEC reads where another ethertype stands at offset 12 (R114). -/
def untaggedFieldsOf (b : Bytes) : EthDecoded where
  dst := addrAt b 0
  src := addrAt b 6
  dot1q := false
  prio := 0#3
  cfi := false
  vid := 0#12
  etype := rdBE16 b 12
  payload := b.drop 14

/-- ETH.DEC returns fields where the header fits, those of the form the 16 bits at offset 12 name (R113,
R114). -/
theorem ethDec_eq_ok {b : Bytes} {d : EthDecoded} :
    ethDec b = .ok d ↔
      (18 ≤ b.length ∧ rdBE16 b 12 = 0x8100#16 ∧ d = taggedFieldsOf b) ∨
      (14 ≤ b.length ∧ rdBE16 b 12 ≠ 0x8100#16 ∧ d = untaggedFieldsOf b) := by
  unfold ethDec
  change (if _ then _ else if rdBE16 b 12 = 0x8100#16 then _ else _) = _ ↔ _
  split_ifs with h14 htag h18
  · simp; omega
  · simp [htag]; omega
  · simp [htag, eq_comm, taggedFieldsOf]; omega
  · simp [htag, eq_comm, untaggedFieldsOf]; omega

/-- Settles O22: the two forms of `ethWire`, read at each offset, and the two forms ETH.DEC tells apart. -/
theorem ethernetFrameLayout : Obligations.EthernetFrameLayout := by
  refine ⟨fun f => ⟨rfl, rfl⟩, fun f h => ?_, fun f t h => ?_, fun b d h => ?_⟩
  · rw [ethWire_untagged h]
    exact ⟨by simp; omega, rfl, rfl⟩
  · refine ⟨?_, ?_, slice_ethWire_tci h, ?_, ?_⟩ <;> rw [ethWire_tagged h]
    · simp; omega
    all_goals rfl
  · rcases ethDec_eq_ok.1 h with ⟨-, htag, rfl⟩ | ⟨-, htag, rfl⟩
    · simp [htag, taggedFieldsOf]
    · simp [htag, untaggedFieldsOf]

/-! The tag control word. -/

theorem tciPrio_toNat (t : U16) : (tciPrio t).toNat = t.toNat / 2 ^ 13 := by
  have := t.isLt
  rw [tciPrio, field_toNat]
  omega

theorem tciCfi_toNat (t : U16) : (tciCfi t).toNat = t.toNat / 2 ^ 12 % 2 := bit_toNat t 12

theorem tciVid_toNat (t : U16) : (tciVid t).toNat = t.toNat % 2 ^ 12 := by
  rw [tciVid, field_toNat]
  omega

/-- Every 16-bit word is the tag control word of its three fields (R66). -/
theorem tci_fields (t : U16) : tci (tciPrio t) (tciCfi t) (tciVid t) = t := by
  apply BitVec.eq_of_toNat_eq
  rw [tci_toNat, tciPrio_toNat, tciCfi_toNat, tciVid_toNat]
  omega

/-- Settles O26: packing and unpacking invert each other, and both codecs write the packed word. -/
theorem tciPacking : Obligations.TciPacking :=
  ⟨fun p c v => ⟨tci_toNat p c v, tciPrio_tci p c v, tciCfi_tci p c v, tciVid_tci p c v⟩,
    fun t => ⟨tciPrio_toNat t, tciCfi_toNat t, tciVid_toNat t, tci_fields t⟩,
    fun _ _ => slice_ethWire_tci, slice_llcFrame_tci, by decide⟩

end Sys2Proof.Proofs
end

section
/-!
PROOF. The sequence-control word and its place in the RX record (R74, R76).
-/

namespace Sys2Proof.Proofs

open Sys2Proof.Machine Sys2Proof.Laws

theorem scSeq_toNat (v : U16) : (scSeq v).toNat = v.toNat / 16 := by
  have := v.isLt
  rw [scSeq, field_toNat]
  omega

theorem scFrag_toNat (v : U16) : (scFrag v).toNat = v.toNat % 16 := by
  rw [scFrag, field_toNat]
  omega

/-- The sequence control stands at offset 36 of the RX record: the fourth address has six bytes there
whether it is present or not (R76). -/
theorem slice_ser_sc (m : MpduRx) : slice (ser m) 36 2 = le16 m.cfg.sc := by
  unfold ser rxLayout
  cases m.addrs.addr4 <;> rfl

/-- Settles O39: the word and its two fields invert each other, and the RX record carries it. -/
theorem sequenceControlWord : Obligations.SequenceControlWord :=
  ⟨fun q f => ⟨scw_toNat q f, scSeq_scw q f, scFrag_scw q f⟩,
    fun v => ⟨scSeq_toNat v, scFrag_toNat v, scw_fields v⟩, slice_ser_sc, by decide, by decide⟩

end Sys2Proof.Proofs
end

section
/-!
PROOF. MPDU.SEND, the FRAG.SEND whose one fragment is the whole body (R63, R165).
-/

namespace Sys2Proof.Proofs

open Sys2Proof.Machine Sys2Proof.Laws Sys2Proof.Safety

/-- FRAG.SEND with the internal counter completes with a chain under the next sequence number, emits its
records and leaves the counter at the last fragment's sequence control (R160, R166). -/
theorem fragSend_counted_chain {r : Nat} {role : Role} {frame : EthFrame} {size : Nat} {opt : FragOpt}
    {s : State} (bssid : MacAddr) (hr : roleOf r = some role) (hf : frame.wf = true) (hs : 0 < size)
    (ho : optOk opt) (hd : s.dirty role = false) (hn : fragCount frame size ≤ 16) :
    ∃ out : List MpduRx,
      fragSend r frame bssid size opt none s =
        .ok ({ s with
          counters := s.counters.set role
            ⟨scw (scSeq (s.sc role) + 1#12) (BitVec.ofNat 4 (fragCount frame size - 1)), false⟩
          txq := s.txq ++ out.map ser }, .mpdus out) ∧
      isFragChain frame bssid size opt (scSeq (s.sc role) + 1#12) 0 out := by
  obtain ⟨rule, hrule, hsend⟩ := fragSend_counted (bssid := bssid) hr hf hs ho hd hn
  exact ⟨_, hsend, fragMpdus_chain (f0 := 0#4) ho hrule hf hs (by simpa using hn)⟩

/-- The body of a frame is never empty: it has its LLC/SNAP header (R161). -/
theorem llcBody_length_pos {frame : EthFrame} (hf : frame.wf = true) : 0 < (llcBody frame).length := by
  obtain ⟨hmin, -⟩ := llcBody_bounds hf
  omega

/-- A body cut at its own length is one fragment (R165). -/
theorem fragCount_whole {frame : EthFrame} (hf : frame.wf = true) :
    fragCount frame (llcBody frame).length = 1 := ceilDiv_self (llcBody_length_pos hf)

/-- The one MPDU of a chain of length 1: it carries the whole body, its more-fragments flag is clear, and
its fragment number is the first (R166). -/
theorem isFragChain_singleton {frame : EthFrame} {bssid : MacAddr} {size : Nat} {opt : FragOpt}
    {q : BitVec 12} {f0 : Nat} {m : MpduRx} (h : isFragChain frame bssid size opt q f0 [m]) :
    m.body = llcBody frame ∧ m.cfg.moreFrag = false ∧ m.wf = true ∧
      m.cfg.sc = scw q (BitVec.ofNat 4 f0) := by
  obtain ⟨-, hbody, -, hat⟩ := h
  obtain ⟨hwf, -, -, hcfg⟩ := hat 0 m rfl
  exact ⟨by simpa using hbody, by simp [hcfg], hwf, by simp [hcfg]⟩

/-- Settles O46: the chain FRAG.SEND makes of a body cut at its own length has one MPDU. -/
theorem mpduSendCompletes : Obligations.MpduSendCompletes := by
  intro r role frame bssid opt s hready hr hf ho hd
  have hcount := fragCount_whole hf
  obtain ⟨out, hsend, hchain⟩ :=
    fragSend_counted_chain bssid hr hf (llcBody_length_pos hf) ho hd (by omega)
  have ⟨hlen, _⟩ := hchain
  rw [hcount] at hsend hlen
  obtain ⟨m, rfl⟩ := List.length_eq_one_iff.1 hlen
  obtain ⟨hbody, hmore, hwf, hsc⟩ := isFragChain_singleton hchain
  refine ⟨m, ?_, hbody, hmore, hwf, hsc, hchain⟩
  calc exec (.mpduSend r frame bssid opt) s
      = s.issue (fragSend r frame bssid (llcBody frame).length opt none s) := rfl
    _ = _ := by
      rw [hsend]
      exact issue_ok s hready

end Sys2Proof.Proofs
end

section
/-!
PROOF. Which optional fields a parsed MPDU has (R82, R83, R176).
-/

namespace Sys2Proof.Proofs

open Sys2Proof.Machine Sys2Proof.Laws

/-- Each conditional field of a parsed header is there exactly under its own condition, and the
extended-IV flag is the given bit of the IV word (R82, R83). -/
theorem parseHeader_presence {ivBit : Nat} {fcw : U16} {b body : Bytes} {h : TxHeader}
    (hp : parseHeader ivBit fcw b = some (h, body)) :
    let ts := fcTs fcw
    let f := fcFlags fcw
    h.addr2.isSome = hasA2 ts ∧ h.addr3.isSome = hasA3 ts ∧ h.sc.isSome = hasSc ts ∧
      h.addr4.isSome = hasA4 f ∧ h.qos.isSome = isQosData ts ∧ h.cfc.isSome = isCtrlWrapper ts ∧
      h.htc.isSome = hasHtc ts f ∧ h.iv.isSome = f.prot ∧ h.eiv.isSome = (f.prot && h.extIv) ∧
      h.extIv = extIvFlag ivBit h.iv := by
  simp only [parseHeader, Option.bind_eq_some_iff, Prod.exists] at hp
  obtain ⟨addr2, b1, haddr2, addr3, b2, haddr3, sc, b3, hsc, addr4, b4, haddr4, qos, b5, hqos, cfc, b6,
    hcfc, htc, b7, hhtc, iv, b8, hiv, eiv, b9, heiv, hheader⟩ := hp
  cases hheader
  exact ⟨takeField_isSome haddr2, takeField_isSome haddr3, takeField_isSome hsc,
    takeField_isSome haddr4, takeField_isSome hqos, takeField_isSome hcfc, takeField_isSome hhtc,
    takeField_isSome hiv, takeField_isSome heiv, rfl⟩

/-- Settles O52: the optional fields of a parsed MPDU are those of its header, whose type+subtype byte is
the one at offset 32. -/
theorem parsedFieldsPresence : Obligations.ParsedFieldsPresence := by
  intro rec t ht
  obtain ⟨-, -, h, body, hp, rfl⟩ := parseRec_eq_ok.1 ht
  have hpres := parseHeader_presence hp
  rw [fcTs_rdLE16] at hpres
  obtain ⟨haddr2, haddr3, hsc, haddr4, hqos, hcfc, hhtc, hiv, heiv, hext⟩ := hpres
  refine ⟨haddr2, haddr3, hsc, haddr4, hqos, hcfc, hhtc, hiv, heiv, fun v hv => ?_, fun hnone => ?_⟩
  · exact hext.trans (congrArg (extIvFlag _) hv)
  · exact hext.trans (congrArg (extIvFlag _) hnone)

end Sys2Proof.Proofs
end

section
/-!
PROOF. What MAC.MK and PAY.GEN answer (R101, R104).
-/

namespace Sys2Proof.Proofs

open Sys2Proof.Machine Sys2Proof.Laws

/-! MAC.MK. -/

/-- The bytes of an address are made into that address (R65, R101). -/
theorem macMk_addrBytes (a : MacAddr) : macMk (addrBytes a) = .ok a := rfl

/-- A sequence of any other length is no address (R101). -/
theorem macMk_of_length_ne {b : Bytes} (h : b.length ≠ 6) :
    macMk b = .error (excActual .addrLen b.length) := raiseIf_bne h _ _

/-- Every six bytes are the bytes of an address (R65). -/
theorem exists_eq_addrBytes {b : Bytes} (h : b.length = 6) : ∃ a, b = addrBytes a :=
  ⟨addrAt b 0, by rw [addrBytes_addrAt_zero b h.ge, ← h, List.take_length]⟩

/-- Settles O18: of the two things `macMk` does, the first is for the bytes of an address, which all
sequences of length six are. -/
theorem macMkResult : Obligations.MacMkResult := by
  refine fun b s hready => ⟨fun a ha => ?_, exists_eq_addrBytes, fun hlen => ?_⟩
  · calc exec (.macMk b) s = s.issuePure ((macMk (addrBytes a)).map .addr) := by rw [ha]; rfl
      _ = .next (s.close (.completed (.addr a))) := by
        rw [macMk_addrBytes]
        exact issuePure_ok s hready
  · calc exec (.macMk b) s = s.issuePure ((macMk b).map .addr) := rfl
      _ = .next (s.raise (excActual .addrLen b.length)) := by
        rw [macMk_of_length_ne hlen]
        exact issuePure_error s hready

/-! PAY.GEN. -/

/-- A length within bounds completes with the bytes drawn (R104). -/
theorem payGen_ok {n : Nat} (hmin : 1 < n) (hmax : n ≤ 1500) (s : State) :
    payGen n s = .ok (s.afterDraw n, .bytes (s.drawn n)) := by
  rw [payGen, payLenOk_true hmin hmax]
  rfl

/-- A length out of bounds raises before any byte is drawn (R104). -/
theorem payGen_error {n : Nat} (h : n ≤ 1 ∨ 1500 < n) (s : State) :
    payGen n s = .error (excActual .payLen n) := by
  rw [payGen, payLenOk_false h]
  rfl

/-- Settles O19: the bytes are those the generator draws, of which there are as many as asked for. -/
theorem payGenResult : Obligations.PayGenResult := by
  refine fun n s hready => ⟨fun hmin hmax => ⟨s.drawn n, drawn_length s n, ?_⟩, fun h => ?_⟩
  · calc exec (.payGen n) s = s.issue (payGen n s) := rfl
      _ = .next ((s.afterDraw n).close (.completed (.bytes (s.drawn n)))) := by
        rw [payGen_ok hmin hmax]
        exact issue_ok s hready
  · calc exec (.payGen n) s = s.issue (payGen n s) := rfl
      _ = .next (s.raise (excActual .payLen n)) := by
        rw [payGen_error h]
        exact issue_error s hready

end Sys2Proof.Proofs
end

section
/-!
PROOF. What ETH.ENC and ETH.DEC answer, and that ETH.DEC reads back what ETH.ENC writes (R111 to R116).
-/

namespace Sys2Proof.Proofs

open Sys2Proof.Machine Sys2Proof.Laws Sys2Proof.Safety

/-! Reading the two forms of the frame. -/

/-- Two bytes that are a packed 16-bit word read back as that word (R11). -/
theorem rdBE16_of_slice {b : Bytes} {o : Nat} {v : U16} (h : slice b o 2 = be16 v) :
    rdBE16 b o = v := by
  calc rdBE16 b o = rdBE16 (b.drop o) 0 := (rdBE16_drop b o 0).symm
    _ = rdBE16 (slice b o 2 ++ (b.drop o).drop 2) 0 := by rw [slice, List.take_append_drop]
    _ = v := by rw [h, rdBE16_be16]

/-- A tagged frame's tag control word is read at offset 14 (R67, R112). -/
theorem rdBE16_ethWire_tci {f : EthFrame} {t : Tag} (h : f.tag = some t) :
    rdBE16 (ethWire f) 14 = tci f.prio t.cfi t.vid := rdBE16_of_slice (slice_ethWire_tci h)

/-- Settles O23: the word read at offset 14 is the packed one, whose fields read back. -/
theorem taggedFrameCarriesPriority : Obligations.TaggedFrameCarriesPriority := by
  intro f t h
  rw [rdBE16_ethWire_tci h]
  exact ⟨rfl, tciPrio_tci _ _ _, tciCfi_tci _ _ _, tciVid_tci _ _ _⟩

theorem addrAt_ethWire_dst (f : EthFrame) : addrAt (ethWire f) 0 = f.dst := rfl

theorem addrAt_ethWire_src (f : EthFrame) : addrAt (ethWire f) 6 = f.src := rfl

/-- ETH.DEC reads a tagged frame back (R116). -/
theorem ethDec_ethWire_tagged {f : EthFrame} {t : Tag} (h : f.tag = some t) :
    ethDec (ethWire f) =
      .ok ⟨f.dst, f.src, true, f.prio, t.cfi, t.vid, f.etype, f.payload⟩ := by
  obtain ⟨-, -, htagged, -⟩ := ethernetFrameLayout
  obtain ⟨hlen, hmark, htci, hetype, hpayload⟩ := htagged f t h
  refine ethDec_eq_ok.2 (.inl ⟨by omega, rdBE16_of_slice hmark, ?_⟩)
  rw [taggedFieldsOf, addrAt_ethWire_dst, addrAt_ethWire_src, rdBE16_of_slice htci,
    rdBE16_of_slice hetype, hpayload, tciPrio_tci, tciCfi_tci, tciVid_tci]

/-- ETH.DEC reads an untagged frame back, unless its ethertype is the one that marks a tag (R116). -/
theorem ethDec_ethWire_untagged {f : EthFrame} (h : f.tag = none) (he : f.etype ≠ 0x8100#16) :
    ethDec (ethWire f) =
      .ok ⟨f.dst, f.src, false, 0#3, false, 0#12, f.etype, f.payload⟩ := by
  obtain ⟨-, huntagged, -⟩ := ethernetFrameLayout
  obtain ⟨hlen, hslice, hpayload⟩ := huntagged f h
  have hetype := rdBE16_of_slice hslice
  refine ethDec_eq_ok.2 (.inr ⟨by omega, by rwa [hetype], ?_⟩)
  rw [untaggedFieldsOf, addrAt_ethWire_dst, addrAt_ethWire_src, hetype, hpayload]

/-! ETH.DEC. -/

/-- ETH.DEC completes with what its pseudocode decodes, whatever the bytes (R114, R115). -/
theorem exec_ethDec {s : State} (hready : ready s) (b : Bytes) :
    exec (.ethDec b) s = .next (s.close (.completed (.ethDecoded (ethDec b)))) :=
  issuePure_ok s hready

/-- ETH.DEC is not ok exactly where the header of the form at hand does not fit (R113, R114). -/
theorem ethDec_eq_notOk {b : Bytes} :
    ethDec b = .notOk ↔ b.length < 14 ∨ (b.length < 18 ∧ rdBE16 b 12 = 0x8100#16) := by
  unfold ethDec
  change (if _ then _ else if rdBE16 b 12 = 0x8100#16 then _ else _) = _ ↔ _
  split_ifs with h14 htag h18 <;> simp [*]

/-- Settles O24: `ethDec` is not ok where a header does not fit, and else has the fields of its form. -/
theorem ethDecResult : Obligations.EthDecResult := by
  refine fun b s hready => ⟨ethDec b, exec_ethDec hready b, fun hshort => ?_,
    fun _ htag hshort => ?_, fun hlen htag => ?_, fun hlen htag => ?_⟩
  · exact ethDec_eq_notOk.2 (.inl hshort)
  · exact ethDec_eq_notOk.2 (.inr ⟨hshort, htag⟩)
  · exact ethDec_eq_ok.2 (.inl ⟨hlen, htag, rfl⟩)
  · exact ethDec_eq_ok.2 (.inr ⟨hlen, htag, rfl⟩)

/-! The round trip. -/

/-- What a command with well-formed operands reports as its result is consistent (R28). -/
theorem resultOk_of_exec {i : Instr} {s t : State} {r : Result} (he : exec i s = .next t)
    (hended : t.ended = s.ended ++ [.completed r]) (hi : i ≠ .fcbReset) (hw : i.wf = true) :
    resultOk r := by
  rcases exec_cases i hi s with ⟨-, hr⟩ | ⟨-, t', r', hc, hr⟩ | ⟨-, x, -, hr⟩ <;>
    rw [hr] at he <;> cases he
  · simp at hended
  · obtain rfl : r' = r := by simpa [ended_of_completes hc] using hended
    exact resultOk_of_completes hw hc
  · simp at hended

/-- A well-formed frame's ethertype does not mark a tag (R27, R111). -/
theorem etype_ne_of_wf {f : EthFrame} (h : f.wf = true) : f.etype ≠ 0x8100#16 := by
  rw [EthFrame.wf, Bool.and_eq_true, bne_iff_ne] at h
  exact h.2

/-- Settles O25: the frame ETH.ENC returned is well formed, and each of its two forms is read back. -/
theorem ethernetRoundTrip : Obligations.EthernetRoundTrip := by
  intro dst src prio length etype tag s t s' f he hended hready
  have hwf : f.wf = true := resultOk_of_exec he hended nofun rfl
  cases htag : f.tag with
  | none =>
    have hdec := ethDec_ethWire_untagged htag (etype_ne_of_wf hwf)
    exact ⟨_, hdec ▸ exec_ethDec hready _, rfl, rfl, rfl, rfl, rfl, nofun⟩
  | some g =>
    have hdec := ethDec_ethWire_tagged htag
    refine ⟨_, hdec ▸ exec_ethDec hready _, rfl, rfl, rfl, rfl, rfl, ?_⟩
    rintro _ ⟨⟩
    exact ⟨rfl, rfl, rfl⟩

/-! ETH.ENC. -/

/-- A tag whose VLAN id is in bounds, or no tag, passes the check (R111). -/
theorem checkTagVid_of_lt {α : Type} {tag : Option TagArg} (h : ∀ t, tag = some t → t.vid < 4096)
    (k : Except Exc α) : checkTagVid tag k = k := by
  cases tag with
  | none => rfl
  | some t => rw [checkTagVid, vlanLimit_false (h t rfl), raiseIf_false]

/-- A tag whose VLAN id is out of bounds raises (R111). -/
theorem checkTagVid_of_le {α : Type} {t : TagArg} (h : 4096 ≤ t.vid) (k : Except Exc α) :
    checkTagVid (some t) k = .error (excActual .vlanId t.vid) := by
  rw [checkTagVid, vlanLimit_true h, raiseIf_true]

/-- A priority, a length and an ethertype within bounds leave the check of the tag (R111). -/
theorem ethEnc_of_bounds {prio length etype : Nat} (hprio : prio < 8) (hmin : 1 < length)
    (hmax : length ≤ 1500) (hfits : etype < 65536) (hmark : etype ≠ 0x8100) (dst src : MacAddr)
    (tag : Option TagArg) (s : State) :
    ethEnc dst src prio length etype tag s = checkTagVid tag
      (.ok (s.afterDraw length, .ethFrame (ethFrameOf dst src prio etype tag (s.drawn length)))) := by
  rw [ethEnc, prioLimit_false hprio, payLenOk_true hmin hmax, etypeBad_false hfits hmark]
  rfl

/-- Settles O20: the frame is that of the operands, each of which fits the field it is put in. -/
theorem ethEncCompletes : Obligations.EthEncCompletes := by
  intro dst src prio length etype tag s hready hprio hmin hmax hfits hmark hvid
  refine ⟨ethFrameOf dst src prio etype tag (s.drawn length), ?_, rfl, rfl,
    Nat.mod_eq_of_lt hprio, Nat.mod_eq_of_lt hfits, drawn_length s length, ?_, ?_⟩
  · calc exec (.ethEnc dst src prio length etype tag) s
        = s.issue (ethEnc dst src prio length etype tag s) := rfl
      _ = .next ((s.afterDraw length).close (.completed
            (.ethFrame (ethFrameOf dst src prio etype tag (s.drawn length))))) := by
        rw [ethEnc_of_bounds hprio hmin hmax hfits hmark, checkTagVid_of_lt hvid]
        exact issue_ok s hready
  · rintro rfl
    rfl
  · rintro t rfl
    exact ⟨_, rfl, rfl, Nat.mod_eq_of_lt (hvid t rfl)⟩

/-- An ETH.ENC whose pseudocode raises faults with what it raises (R208). -/
theorem exec_ethEnc_error {dst src : MacAddr} {prio length etype : Nat} {tag : Option TagArg}
    {s : State} {x : Exc} (hready : ready s)
    (h : ethEnc dst src prio length etype tag s = .error x) :
    exec (.ethEnc dst src prio length etype tag) s = .next (s.raise x) :=
  (congrArg s.issue h).trans (issue_error s hready)

/-- Settles O21: the checks before the failing one are passed, and the failing one raises. -/
theorem ethEncFaults : Obligations.EthEncFaults := by
  intro dst src prio length etype tag s hready
  refine ⟨fun hprio => ?_, fun hprio hlen => ?_, fun hprio hmin hmax hetype => ?_,
    fun hprio hmin hmax hfits hmark t htag hvid => ?_⟩ <;> apply exec_ethEnc_error hready
  · rw [ethEnc, prioLimit_true hprio, raiseIf_true]
  · rw [ethEnc, prioLimit_false hprio, payLenOk_false hlen]
    rfl
  · rw [ethEnc, prioLimit_false hprio, payLenOk_true hmin hmax, etypeBad_true hetype]
    rfl
  · rw [ethEnc_of_bounds hprio hmin hmax hfits hmark, htag, checkTagVid_of_le hvid]

end Sys2Proof.Proofs
end

section
/-!
PROOF. What LLC.ENC and LLC.DEC answer, and that LLC.DEC reads back what LLC.ENC writes (R121 to R126).
-/

namespace Sys2Proof.Proofs

open Sys2Proof.Machine Sys2Proof.Laws Sys2Proof.Safety

/-! The checks of LLC.ENC. -/

/-- The check of the 802.1Q option is passed where there is no option, or both its numbers fit their
fields (R121). -/
theorem checkDot1q_eq_ok {α : Type} {q : Option Dot1qArg} {k : Except Exc α} {a : α} :
    checkDot1q q k = .ok a ↔ (∀ g, q = some g → g.prio < 8 ∧ g.vid < 4096) ∧ k = .ok a := by
  cases q with
  | none => simp [checkDot1q]
  | some g =>
    simp only [checkDot1q, raiseIf_eq_ok, decide_eq_false_iff_not, Nat.not_le]
    simp [Config.prioLimit, Config.vlanLimit, and_assoc]

/-- A priority out of bounds raises (R121). -/
theorem checkDot1q_of_prio_le {α : Type} {g : Dot1qArg} (h : 8 ≤ g.prio) (k : Except Exc α) :
    checkDot1q (some g) k = .error (excActual .prio g.prio) := by
  rw [checkDot1q, prioLimit_true h, raiseIf_true]

/-- A VLAN id out of bounds raises once the priority has passed (R121, R207). -/
theorem checkDot1q_of_vid_le {α : Type} {g : Dot1qArg} (hprio : g.prio < 8) (h : 4096 ≤ g.vid)
    (k : Except Exc α) : checkDot1q (some g) k = .error (excActual .vlanId g.vid) := by
  rw [checkDot1q, prioLimit_false hprio, raiseIf_false, vlanLimit_true h, raiseIf_true]

/-- An ethertype that fits 16 bits and does not mark a tag passes the test of R111 and R121. -/
theorem etypeBad_eq_false {e : Nat} : etypeBad e = false ↔ e < 65536 ∧ e ≠ 0x8100 := by
  refine ⟨fun h => ?_, fun ⟨hfits, hmark⟩ => etypeBad_false hfits hmark⟩
  by_contra hbad
  rw [etypeBad_true (by omega)] at h
  cases h

/-- An ethertype within bounds leaves the check of the 802.1Q option (R121). -/
theorem llcEnc_of_etype {etype : Nat} (hfits : etype < 65536) (hmark : etype ≠ 0x8100)
    (payload : Bytes) (q : Option Dot1qArg) :
    llcEnc payload etype q =
      checkDot1q q (.ok (llcFrame payload (BitVec.ofNat 16 etype) (q.map dot1qOf))) := by
  rw [llcEnc, etypeBad_false hfits hmark, raiseIf_false]

/-- LLC.ENC completes exactly where its checks pass, with the frame of R69 (R121). -/
theorem llcEnc_eq_ok {payload w : Bytes} {etype : Nat} {q : Option Dot1qArg} :
    llcEnc payload etype q = .ok w ↔
      (etype < 65536 ∧ etype ≠ 0x8100) ∧ (∀ g, q = some g → g.prio < 8 ∧ g.vid < 4096) ∧
      llcFrame payload (BitVec.ofNat 16 etype) (q.map dot1qOf) = w := by
  rw [llcEnc, raiseIf_eq_ok, etypeBad_eq_false, checkDot1q_eq_ok, Except.ok.injEq]

/-! How LLC.ENC and LLC.DEC end. -/

/-- LLC.ENC ends as its pseudocode does, its bytes reported as a result (R121). -/
theorem exec_llcEnc {payload : Bytes} {etype : Nat} {q : Option Dot1qArg} {r : Except Exc Bytes}
    (h : llcEnc payload etype q = r) (s : State) :
    exec (.llcEnc payload etype q) s = s.issuePure (r.map .bytes) := by
  rw [← h]
  rfl

/-- An LLC.ENC whose pseudocode returns bytes completes with them and changes nothing else (R121). -/
theorem exec_llcEnc_ok {payload w : Bytes} {etype : Nat} {q : Option Dot1qArg} {s : State}
    (hready : ready s) (h : llcEnc payload etype q = .ok w) :
    exec (.llcEnc payload etype q) s = .next (s.close (.completed (.bytes w))) :=
  (exec_llcEnc h s).trans (issuePure_ok s hready)

/-- An LLC.ENC whose pseudocode raises faults with what it raises (R208). -/
theorem exec_llcEnc_error {payload : Bytes} {etype : Nat} {q : Option Dot1qArg} {s : State} {x : Exc}
    (hready : ready s) (h : llcEnc payload etype q = .error x) :
    exec (.llcEnc payload etype q) s = .next (s.raise x) :=
  (exec_llcEnc h s).trans (issuePure_error s hready)

/-- The bytes an LLC.ENC reported are those its pseudocode returned. -/
theorem llcEnc_of_exec {payload w : Bytes} {etype : Nat} {q : Option Dot1qArg} {s t : State}
    (he : exec (.llcEnc payload etype q) s = .next t)
    (hended : t.ended = s.ended ++ [.completed (.bytes w)]) : llcEnc payload etype q = .ok w := by
  rw [exec_llcEnc rfl] at he
  rcases issuePure_cases s ((llcEnc payload etype q).map .bytes) with
    ⟨-, hr⟩ | ⟨-, r, hok, hr⟩ | ⟨-, x, -, hr⟩ <;> rw [hr] at he <;> cases he
  · simp at hended
  · obtain ⟨w', henc, rfl⟩ := map_ok hok
    obtain rfl : w' = w := by simpa using hended
    exact henc
  · simp at hended

/-- LLC.DEC completes with what its pseudocode decodes, whatever the bytes (R124, R125). -/
theorem exec_llcDec {s : State} (hready : ready s) (b : Bytes) :
    exec (.llcDec b) s = .next (s.close (.completed (.llcDecoded (llcDec b)))) :=
  issuePure_ok s hready

/-! LLC.ENC. -/

/-- The tag control word of an option, where the VLAN id leaves the other fields their bits (R66). -/
theorem tci_dot1qOf {g : Dot1qArg} (hvid : g.vid < 4096) :
    tci (dot1qOf g).1 (dot1qOf g).2.cfi (dot1qOf g).2.vid =
      BitVec.ofNat 16 (g.prio * 2 ^ 13 + g.cfi.toNat * 2 ^ 12 + g.vid) := by
  apply BitVec.eq_of_toNat_eq
  have hcfi := g.cfi.toNat_lt
  simp only [tci_toNat, dot1qOf, BitVec.toNat_ofNat]
  omega

/-- Settles O27: the checks pass, and the two forms of `llcFrame` are the bytes stated. -/
theorem llcEncCompletes : Obligations.LlcEncCompletes := by
  intro payload etype s hready hfits hmark
  refine ⟨?_, fun g hprio hvid => ?_⟩
  · exact exec_llcEnc_ok hready (llcEnc_eq_ok.2 ⟨⟨hfits, hmark⟩, nofun, rfl⟩)
  · rw [← tci_dot1qOf hvid]
    refine exec_llcEnc_ok hready (llcEnc_eq_ok.2 ⟨⟨hfits, hmark⟩, ?_, rfl⟩)
    rintro _ ⟨⟩
    exact ⟨hprio, hvid⟩

/-- Settles O28: the checks before the failing one are passed, and the failing one raises. -/
theorem llcEncFaults : Obligations.LlcEncFaults := by
  intro payload etype q s hready
  refine ⟨fun hetype => ?_, fun hfits hmark g hg hprio => ?_,
    fun hfits hmark g hg hprio hvid => ?_⟩ <;> apply exec_llcEnc_error hready
  · rw [llcEnc, etypeBad_true hetype, raiseIf_true]
  · rw [llcEnc_of_etype hfits hmark, hg, checkDot1q_of_prio_le hprio]
  · rw [llcEnc_of_etype hfits hmark, hg, checkDot1q_of_vid_le hprio hvid]

/-! LLC.DEC. -/

/-- The fields LLC.DEC reads where 0x8100 stands at offset 6 (R124). -/
def llcTaggedFieldsOf (b : Bytes) : LlcDecoded where
  dot1q := true
  prio := tciPrio (rdBE16 b 8)
  cfi := tciCfi (rdBE16 b 8)
  vid := tciVid (rdBE16 b 8)
  etype := rdBE16 b 16
  payload := b.drop 18

/-- The fields LLC.DEC reads where another ethertype stands at offset 6 (R124). -/
def llcUntaggedFieldsOf (b : Bytes) : LlcDecoded where
  dot1q := false
  prio := 0#3
  cfi := false
  vid := 0#12
  etype := rdBE16 b 6
  payload := b.drop 8

/-- LLC.DEC is not ok exactly where a header of the form at hand does not fit or differs from the fixed
one (R123, R124). -/
theorem llcDec_eq_notOk {b : Bytes} :
    llcDec b = .notOk ↔ b.length < 8 ∨ slice b 0 6 ≠ snap ∨
      (rdBE16 b 6 = 0x8100#16 ∧ (b.length < 18 ∨ slice b 10 6 ≠ snap)) := by
  unfold llcDec
  change (if _ then _ else if _ then _ else if rdBE16 b 6 = 0x8100#16 then _ else _) = _ ↔ _
  split_ifs with hshort hsnap hmark hshort' hsnap' <;> simp [*]

/-- LLC.DEC of two fixed headers around the mark 0x8100 reads the tagged form (R124). -/
theorem llcDec_tagged {b : Bytes} (hlen : 18 ≤ b.length) (hsnap : slice b 0 6 = snap)
    (hmark : rdBE16 b 6 = 0x8100#16) (hsnap' : slice b 10 6 = snap) :
    llcDec b = .ok (llcTaggedFieldsOf b) := by
  rw [llcDec, if_neg (by omega), if_neg (not_not.2 hsnap),
    if_pos (show _ = Config.etypeDot1q from hmark), if_neg (by omega), if_neg (not_not.2 hsnap')]
  rfl

/-- LLC.DEC of a fixed header that the mark 0x8100 does not follow reads the untagged form (R124). -/
theorem llcDec_untagged {b : Bytes} (hlen : 8 ≤ b.length) (hsnap : slice b 0 6 = snap)
    (hmark : rdBE16 b 6 ≠ 0x8100#16) : llcDec b = .ok (llcUntaggedFieldsOf b) := by
  rw [llcDec, if_neg (by omega), if_neg (not_not.2 hsnap),
    if_neg (show ¬ _ = Config.etypeDot1q from hmark)]
  rfl

/-- Settles O29: `llcDec` is not ok where a header fails, and else has the fields of its form. -/
theorem llcDecResult : Obligations.LlcDecResult := by
  refine fun b s hready => ⟨llcDec b, exec_llcDec hready b, fun hshort => ?_, fun hsnap => ?_,
    fun _ hmark hheader => ?_, fun hlen hsnap hmark hsnap' => ?_, fun hlen hsnap hmark => ?_⟩
  · exact llcDec_eq_notOk.2 (.inl hshort)
  · exact llcDec_eq_notOk.2 (.inr (.inl hsnap))
  · exact llcDec_eq_notOk.2 (.inr (.inr ⟨hmark, hheader⟩))
  · exact llcDec_tagged hlen hsnap hmark hsnap'
  · exact llcDec_untagged hlen hsnap hmark

/-! The round trip. -/

/-- An ethertype LLC.ENC accepts is not the mark of a tag as a 16-bit word either (R121). -/
theorem ofNat_etype_ne {e : Nat} (hfits : e < 65536) (hmark : e ≠ 0x8100) :
    BitVec.ofNat 16 e ≠ 0x8100#16 := by
  bv_omega

/-- Settles O30: the bytes LLC.ENC reported are an LLC/SNAP frame, which LLC.DEC reads back, and whose
fields are as wide as the checks ask the operands to be. -/
theorem llcRoundTrip : Obligations.LlcRoundTrip := by
  intro payload etype q s t s' w he hended hready
  obtain ⟨⟨hfits, hmark⟩, hdot1q, rfl⟩ := llcEnc_eq_ok.1 (llcEnc_of_exec he hended)
  have hdec : llcDec (llcFrame payload (BitVec.ofNat 16 etype) (q.map dot1qOf)) = .ok _ :=
    llcDec_llcFrame fun _ => ofNat_etype_ne hfits hmark
  refine ⟨_, hdec ▸ exec_llcDec hready _, llcFieldsOf_payload _ _ _, ?_, ?_, ?_⟩
  · rw [llcFieldsOf_etype]
    exact Nat.mod_eq_of_lt hfits
  · rw [llcFieldsOf_dot1q, Option.isSome_map]
  · rintro g rfl
    obtain ⟨hprio, hvid⟩ := hdot1q g rfl
    exact ⟨Nat.mod_eq_of_lt hprio, rfl, Nat.mod_eq_of_lt hvid⟩

end Sys2Proof.Proofs
end

section
/-!
PROOF. What FC.PACK and FC.UNPACK answer, and that they invert each other (R131 to R135).
-/

namespace Sys2Proof.Proofs

open Sys2Proof.Machine Sys2Proof.Laws Sys2Proof.Safety

/-! When the two pseudocodes return and when they raise. -/

/-- FC.PACK returns exactly for a byte that is defined, with the word of R131. -/
theorem fcPack_eq_ok {ts : Nat} {f : FcFlags} {v : U16} :
    fcPack ts f = .ok v ↔
      ts < 256 ∧ tsDefined (BitVec.ofNat 8 ts) = true ∧ fcPackWord (BitVec.ofNat 8 ts) f = v := by
  rw [fcPack, raiseIf_eq_ok, Bool.or_eq_false_iff, decide_eq_false_iff_not, Nat.not_le,
    Bool.not_eq_false', Except.ok.injEq, and_assoc]

/-- FC.PACK of a defined byte returns the packed word (R131). -/
theorem fcPack_of_defined {ts : Byte} (h : tsDefined ts = true) (f : FcFlags) :
    fcPack ts.toNat f = .ok (fcPackWord ts f) := by
  rw [fcPack_eq_ok, BitVec.ofNat_toNat, BitVec.setWidth_eq]
  exact ⟨ts.isLt, h, rfl⟩

/-- FC.PACK raises for what is no byte and for a byte that is not defined (R131). -/
theorem fcPack_of_undefined {ts : Nat} (h : 256 ≤ ts ∨ tsDefined (BitVec.ofNat 8 ts) = false)
    (f : FcFlags) : fcPack ts f = .error (excActual .typeSubtype ts) := by
  refine raiseIf_eq_error.2 (.inl ⟨?_, rfl⟩)
  rwa [Bool.or_eq_true, decide_eq_true_iff, Bool.not_eq_true']

/-- FC.UNPACK returns exactly where the low byte is defined, with the fields of R134. -/
theorem fcUnpack_eq_ok {v : U16} {u : FcFields} :
    fcUnpack v = .ok u ↔ tsDefined (fcTs v) = true ∧ fcUnpackWord v = u := by
  rw [fcUnpack, raiseIf_eq_ok, Bool.not_eq_false', Except.ok.injEq]

/-- FC.UNPACK raises where the low byte is not defined (R133). -/
theorem fcUnpack_of_undefined {v : U16} (h : tsDefined (fcTs v) = false) :
    fcUnpack v = .error (excActual .typeSubtype (fcTs v).toNat) := by
  rw [fcUnpack, h]
  rfl

/-! The fields of the low byte stand at the same bits of the word (R70). -/

theorem tsVersion_fcTs (v : U16) : tsVersion (fcTs v) = v.extractLsb' 0 2 :=
  BitVec.extractLsb'_extractLsb'_of_le (by decide)

theorem tsType_fcTs (v : U16) : tsType (fcTs v) = v.extractLsb' 2 2 :=
  BitVec.extractLsb'_extractLsb'_of_le (by decide)

theorem tsSubtype_fcTs (v : U16) : tsSubtype (fcTs v) = v.extractLsb' 4 4 :=
  BitVec.extractLsb'_extractLsb'_of_le (by decide)

/-! The round trip. -/

/-- The type and the subtype unpacked are those of the byte unpacked (R71, R134). -/
theorem fcUnpackWord_eq (v : U16) :
    fcUnpackWord v = ⟨tsType (fcTs v), tsSubtype (fcTs v), fcTs v, fcFlags v⟩ := by
  rw [tsType_fcTs, tsSubtype_fcTs, fcUnpackWord]

/-- Unpacking a packed word gives the byte and the flags it was packed from (R135). -/
theorem fcUnpackWord_fcPackWord (ts : Byte) (f : FcFlags) :
    fcUnpackWord (fcPackWord ts f) = ⟨tsType ts, tsSubtype ts, ts, f⟩ := by
  rw [fcUnpackWord_eq, fcTs_fcPackWord, fcFlags_fcPackWord]

/-- Settles O33: the word packed has the defined byte as its low byte, and every word is packed from its
low byte and its flags. -/
theorem frameControlRoundTrip : Obligations.FrameControlRoundTrip := by
  refine ⟨fun ts f hts => ⟨fcPackWord ts f, fcPack_of_defined hts f, ?_⟩, fun v u hu => ?_⟩
  · exact fcUnpack_eq_ok.2 ⟨by rwa [fcTs_fcPackWord], fcUnpackWord_fcPackWord ts f⟩
  · obtain ⟨hts, rfl⟩ := fcUnpack_eq_ok.1 hu
    calc fcPack (fcTs v).toNat (fcFlags v)
        = .ok (fcPackWord (fcTs v) (fcFlags v)) := fcPack_of_defined hts _
      _ = .ok v := by rw [fcPackWord_fields]

/-! FC.PACK. -/

/-- An operand below 256 stands in the word as it is, and each flag times its power of two (R131). -/
theorem fcPackWord_ofNat {ts : Nat} (h : ts < 256) (f : FcFlags) :
    fcPackWord (BitVec.ofNat 8 ts) f = BitVec.ofNat 16
      (ts + f.toDs.toNat * 2 ^ 8 + f.fromDs.toNat * 2 ^ 9 + f.moreFrag.toNat * 2 ^ 10 +
        f.retry.toNat * 2 ^ 11 + f.pwrMgmt.toNat * 2 ^ 12 + f.moreData.toNat * 2 ^ 13 +
        f.prot.toNat * 2 ^ 14 + f.order.toNat * 2 ^ 15) := by
  rw [fcPackWord, BitVec.toNat_ofNat, Nat.mod_eq_of_lt h]
  rfl

/-- Settles O31: the two ways `fcPack` can end, the word being the sum of R131. -/
theorem fcPackResult : Obligations.FcPackResult := by
  refine fun ts f s hready => ⟨fun hlt hts => ?_, fun hbad => ?_⟩
  · rw [← fcPackWord_ofNat hlt]
    calc exec (.fcPack ts f) s = s.issuePure ((fcPack ts f).map .word) := rfl
      _ = .next (s.close (.completed (.word (fcPackWord (BitVec.ofNat 8 ts) f)))) := by
        rw [fcPack_eq_ok.2 ⟨hlt, hts, rfl⟩]
        exact issuePure_ok s hready
  · calc exec (.fcPack ts f) s = s.issuePure ((fcPack ts f).map .word) := rfl
      _ = .next (s.raise (excActual .typeSubtype ts)) := by
        rw [fcPack_of_undefined hbad]
        exact issuePure_error s hready

/-! FC.UNPACK. -/

/-- FC.UNPACK of a word whose low byte is defined completes with its fields (R133, R134). -/
theorem exec_fcUnpack_ok {v : U16} {s : State} (hready : ready s) (h : tsDefined (fcTs v) = true) :
    exec (.fcUnpack v) s = .next (s.close (.completed (.fcFields (fcUnpackWord v)))) :=
  calc exec (.fcUnpack v) s = s.issuePure ((fcUnpack v).map .fcFields) := rfl
    _ = _ := by
      rw [fcUnpack_eq_ok.2 ⟨h, rfl⟩]
      exact issuePure_ok s hready

/-- FC.UNPACK of any other word faults with its low byte (R133). -/
theorem exec_fcUnpack_error {v : U16} {s : State} (hready : ready s)
    (h : tsDefined (fcTs v) = false) :
    exec (.fcUnpack v) s = .next (s.raise (excActual .typeSubtype (fcTs v).toNat)) :=
  calc exec (.fcUnpack v) s = s.issuePure ((fcUnpack v).map .fcFields) := rfl
    _ = _ := by
      rw [fcUnpack_of_undefined h]
      exact issuePure_error s hready

/-- Every byte of `TS_TABLE` has protocol version 0 (R70, R72). -/
theorem tsVersion_of_defined {ts : Byte} (h : tsDefined ts = true) : tsVersion ts = 0#2 := by
  have htable : ∀ row ∈ tsTable, tsVersion row.ts = 0#2 := by decide
  obtain ⟨row, hrow, hts⟩ := List.any_eq_true.1 h
  rw [← eq_of_beq hts]
  exact htable row hrow

/-- A word whose version bits are not 0 has no defined low byte (R70, R133). -/
theorem fcTs_undefined_of_version {v : U16} (h : v.extractLsb' 0 2 ≠ 0#2) :
    tsDefined (fcTs v) = false := by
  rw [← tsVersion_fcTs] at h
  exact Bool.eq_false_iff.2 (mt tsVersion_of_defined h)

/-- Settles O32: the two ways FC.UNPACK ends; the rule's example is one of the first kind. -/
theorem fcUnpackResult : Obligations.FcUnpackResult :=
  ⟨fun _ _ hready => ⟨exec_fcUnpack_ok hready, exec_fcUnpack_error hready⟩, fun _ => rfl,
    fun _ => fcTs_undefined_of_version, fun _ hready => exec_fcUnpack_ok hready (by decide)⟩

end Sys2Proof.Proofs
end

section
/-!
PROOF. What MPDU.BUILD answers: the row of the address table a configuration selects, and its four checks
in order (R141, R143, R207).
-/

namespace Sys2Proof.Proofs

open Sys2Proof.Machine Sys2Proof.Laws Sys2Proof.Safety

/-! The rows of the address table (R143). -/

/-- No type+subtype byte is of both supported frame types (R73). -/
theorem isMgmt_of_isData {ts : Byte} (h : isData ts = true) : isMgmt ts = false := by
  rw [isData, Bool.and_eq_true, beq_iff_eq] at h
  rw [isMgmt, h.1]
  rfl

theorem addrRule_mgmt {cfg : BuildCfg} (h : isMgmt cfg.ts = true) :
    addrRule cfg = .ok .management := if_pos h

/-- A frame that is neither data nor management has no row (R143). -/
theorem addrRule_unsupported {cfg : BuildCfg} (hdata : isData cfg.ts = false)
    (hmgmt : isMgmt cfg.ts = false) :
    addrRule cfg = .error (excActual .frameType cfg.ts.toNat) := by
  simp [addrRule, hdata, hmgmt]

theorem addrRule_data00 {cfg : BuildCfg} (h : isData cfg.ts = true) (ht : cfg.toDs = false)
    (hf : cfg.fromDs = false) : addrRule cfg = .ok .data00 := by
  simp [addrRule, isMgmt_of_isData h, h, ht, hf]

theorem addrRule_dataFromDs {cfg : BuildCfg} (h : isData cfg.ts = true) (ht : cfg.toDs = false)
    (hf : cfg.fromDs = true) : addrRule cfg = .ok .dataFromDs := by
  simp [addrRule, isMgmt_of_isData h, h, ht, hf]

theorem addrRule_dataToDs {cfg : BuildCfg} (h : isData cfg.ts = true) (ht : cfg.toDs = true)
    (hf : cfg.fromDs = false) : addrRule cfg = .ok .dataToDs := by
  simp [addrRule, isMgmt_of_isData h, h, ht, hf]

theorem addrRule_dataBothDs {cfg : BuildCfg} {ra ta : MacAddr} (h : isData cfg.ts = true)
    (ht : cfg.toDs = true) (hf : cfg.fromDs = true) (hra : cfg.ra = some ra) (hta : cfg.ta = some ta) :
    addrRule cfg = .ok (.dataBothDs ra ta) := by
  simp [addrRule, isMgmt_of_isData h, h, ht, hf, hra, hta]

/-- A data frame with both DS flags has no row unless it has both further addresses (R141, D13). -/
theorem addrRule_rata {cfg : BuildCfg} (h : isData cfg.ts = true) (ht : cfg.toDs = true)
    (hf : cfg.fromDs = true) (hmissing : cfg.ra = none ∨ cfg.ta = none) :
    addrRule cfg = .error (excPlain .rata) := by
  rcases hmissing with hra | hta
  · simp [addrRule, isMgmt_of_isData h, h, ht, hf, hra]
  · cases hra : cfg.ra <;> simp [addrRule, isMgmt_of_isData h, h, ht, hf, hra, hta]

/-- A configuration of a supported type, with both further addresses where they are needed, has a row
(R143). -/
theorem exists_addrRule {cfg : BuildCfg} (htype : isData cfg.ts = true ∨ isMgmt cfg.ts = true)
    (hrata : isData cfg.ts = true → cfg.toDs = true → cfg.fromDs = true →
      cfg.ra.isSome = true ∧ cfg.ta.isSome = true) :
    ∃ rule, addrRule cfg = .ok rule := by
  rcases htype with hdata | hmgmt
  · cases ht : cfg.toDs <;> cases hf : cfg.fromDs
    · exact ⟨_, addrRule_data00 hdata ht hf⟩
    · exact ⟨_, addrRule_dataFromDs hdata ht hf⟩
    · exact ⟨_, addrRule_dataToDs hdata ht hf⟩
    · obtain ⟨hra, hta⟩ := hrata hdata ht hf
      obtain ⟨ra, hra⟩ := Option.isSome_iff_exists.1 hra
      obtain ⟨ta, hta⟩ := Option.isSome_iff_exists.1 hta
      exact ⟨_, addrRule_dataBothDs hdata ht hf hra hta⟩
  · exact ⟨_, addrRule_mgmt hmgmt⟩

/-! Where the pseudocode raises (R141). -/

theorem build_of_undefined {cfg : BuildCfg} (h : tsDefined cfg.ts = false) (body : Bytes)
    (bssid : MacAddr) : build body bssid cfg = .error (excActual .typeSubtype cfg.ts.toNat) := by
  rw [build, h]
  rfl

/-- A defined byte leaves the fault that says the configuration has no row (R141, R207). -/
theorem build_of_addrRule_error {cfg : BuildCfg} {x : Exc} (hts : tsDefined cfg.ts = true)
    (hrule : addrRule cfg = .error x) (body : Bytes) (bssid : MacAddr) :
    build body bssid cfg = .error x := by
  rw [build, hts, hrule]
  rfl

/-- A configuration that has a row leaves the check of the body's length (R141, D31). -/
theorem build_of_bodyMax_lt {cfg : BuildCfg} {rule : AddrRule} {body : Bytes}
    (hts : tsDefined cfg.ts = true) (hrule : addrRule cfg = .ok rule)
    (hlen : Config.bodyMax < body.length) (bssid : MacAddr) :
    build body bssid cfg = .error (excActual .bodyLen body.length) := by
  rw [build, hts, hrule, decide_eq_true hlen]
  rfl

/-! How MPDU.BUILD ends. -/

/-- MPDU.BUILD ends as its pseudocode does, the object reported as a result (R141). -/
theorem exec_mpduBuild {body : Bytes} {bssid : MacAddr} {cfg : BuildCfg} {r : Except Exc MpduRx}
    (h : build body bssid cfg = r) (s : State) :
    exec (.mpduBuild body bssid cfg) s = s.issuePure (r.map .mpdu) := by
  rw [← h]
  rfl

/-- An MPDU.BUILD whose pseudocode returns an object completes with it and changes nothing else. -/
theorem exec_mpduBuild_ok {body : Bytes} {bssid : MacAddr} {cfg : BuildCfg} {m : MpduRx} {s : State}
    (hready : ready s) (h : build body bssid cfg = .ok m) :
    exec (.mpduBuild body bssid cfg) s = .next (s.close (.completed (.mpdu m))) :=
  (exec_mpduBuild h s).trans (issuePure_ok s hready)

/-- An MPDU.BUILD whose pseudocode raises faults with what it raises (R208). -/
theorem exec_mpduBuild_error {body : Bytes} {bssid : MacAddr} {cfg : BuildCfg} {x : Exc} {s : State}
    (hready : ready s) (h : build body bssid cfg = .error x) :
    exec (.mpduBuild body bssid cfg) s = .next (s.raise x) :=
  (exec_mpduBuild h s).trans (issuePure_error s hready)

/-- Settles O34: the builder completes with the addresses of whichever row the configuration selects, and
a type without a row raises. -/
theorem addressSelection : Obligations.AddressSelection := by
  intro body bssid cfg s hready hts hlen built
  have hbuilt {rule : AddrRule} (h : addrRule cfg = .ok rule) : built (selectAddr rule cfg bssid) :=
    ⟨mpduOf rule body bssid cfg, rfl,
      exec_mpduBuild_ok hready (build_eq_ok.2 ⟨hts, rule, h, hlen, rfl⟩)⟩
  exact ⟨fun hdata ht hf => hbuilt (addrRule_data00 hdata ht hf),
    fun hdata ht hf => hbuilt (addrRule_dataFromDs hdata ht hf),
    fun hdata ht hf => hbuilt (addrRule_dataToDs hdata ht hf),
    fun _ _ hdata ht hf hra hta => hbuilt (addrRule_dataBothDs hdata ht hf hra hta),
    fun hmgmt => hbuilt (addrRule_mgmt hmgmt),
    fun hdata hmgmt => exec_mpduBuild_error hready
      (build_of_addrRule_error hts (addrRule_unsupported hdata hmgmt) body bssid)⟩

/-- Settles O35: the four checks pass, and the object is `mpduOf` of the row selected. -/
theorem mpduBuildCompletes : Obligations.MpduBuildCompletes := by
  intro body bssid cfg s hready hts htype hrata hlen
  obtain ⟨rule, hrule⟩ := exists_addrRule htype hrata
  have hbuild : build body bssid cfg = .ok (mpduOf rule body bssid cfg) :=
    build_eq_ok.2 ⟨hts, rule, hrule, hlen, rfl⟩
  exact ⟨mpduOf rule body bssid cfg, exec_mpduBuild_ok hready hbuild, rfl, rfl, rfl, rfl,
    build_wf hbuild⟩

/-- Settles O36: the checks before the failing one are passed, and the failing one raises. -/
theorem mpduBuildFaults : Obligations.MpduBuildFaults := by
  intro body bssid cfg s hready
  refine ⟨fun hts => ?_, fun hts hdata hmgmt => ?_, fun hts hdata ht hf hmissing => ?_,
    fun hts htype hrata hlen => ?_⟩ <;> apply exec_mpduBuild_error hready
  · exact build_of_undefined hts body bssid
  · exact build_of_addrRule_error hts (addrRule_unsupported hdata hmgmt) body bssid
  · exact build_of_addrRule_error hts (addrRule_rata hdata ht hf hmissing) body bssid
  · obtain ⟨rule, hrule⟩ := exists_addrRule htype hrata
    exact build_of_bodyMax_lt hts hrule hlen bssid

end Sys2Proof.Proofs
end

section
/-!
PROOF. The RX record of a built MPDU, field by field (R76, R77, R145), and the one bit of it that
MPDU.RETRY changes (R147).
-/

namespace Sys2Proof.Proofs

open Sys2Proof.Machine Sys2Proof.Laws Sys2Proof.Safety

/-! The header: the 52 bytes before the body. -/

theorem slice_ser_addr4_some {m : MpduRx} {a : MacAddr} (h : m.addrs.addr4 = some a) :
    slice (ser m) 30 6 = addrBytes a := by
  rw [ser, rxLayout, h]
  rfl

theorem slice_ser_addr4_none {m : MpduRx} (h : m.addrs.addr4 = none) :
    slice (ser m) 30 6 = zeros 6 := by
  rw [ser, rxLayout, h]
  rfl

/-- The fields between the sequence control and the body are zeros in a built MPDU (R76). -/
theorem slice_ser_headerEnd (m : MpduRx) : slice (ser m) 38 14 = zeros 14 := by
  unfold ser rxLayout
  cases m.addrs.addr4 <;> rfl

/-! The body and the trailer. -/

/-- The bytes of the fields after the body (R76). -/
def rxTrailer (m : MpduRx) : Bytes := ((rxLayout m).drop 14).flatMap Prod.snd

/-- The fields before the body take 52 bytes, whether the fourth address is present or not (R76). -/
theorem drop_ser_header (m : MpduRx) : (ser m).drop 52 = padBody m.body ++ rxTrailer m := by
  unfold ser rxLayout
  cases m.addrs.addr4 <;> rfl

/-- A slice from the body on. -/
theorem slice_ser_add (m : MpduRx) (i n : Nat) :
    slice (ser m) (52 + i) n = slice (padBody m.body ++ rxTrailer m) i n := by
  rw [slice, slice, ← drop_ser_header, List.drop_drop]

theorem slice_ser_body (m : MpduRx) : slice (ser m) 52 m.body.length = m.body := by
  rw [slice_ser_add m 0]
  simp [slice, padBody]

/-- The body is padded with zeros to a multiple of four bytes (R45, R76). -/
theorem slice_ser_padding (m : MpduRx) :
    slice (ser m) (52 + m.body.length) (pad4 m.body.length - m.body.length) =
      zeros (pad4 m.body.length - m.body.length) := by
  rw [slice_ser_add]
  simp [slice, padBody]

/-- A slice of the trailer, which follows the padded body. -/
theorem slice_ser_trailer (m : MpduRx) (i n : Nat) :
    slice (ser m) (52 + i + pad4 m.body.length) n = slice (rxTrailer m) i n := by
  rw [Nat.add_assoc, slice_ser_add, Nat.add_comm i, slice, slice, ← padBody_length,
    List.drop_length_add_append]

/-- Settles O37: a field of the header is read at its offset by computation, the others through the
lemmas on the body and the trailer. -/
theorem rxRecordLayout : Obligations.RxRecordLayout := fun m =>
  ⟨ser_length m, rfl, rfl, rfl, rfl, rfl, rfl, fun _ => slice_ser_addr4_some, slice_ser_addr4_none,
    slice_ser_sc m, slice_ser_headerEnd m, slice_ser_body m, slice_ser_padding m,
    slice_ser_trailer m 0 16, slice_ser_trailer m 16 4, slice_ser_trailer m 20 36⟩

/-! Replacing one byte. -/

theorem byteAt_set_ne (b : Bytes) {i k : Nat} (h : k ≠ i) (x : Byte) :
    byteAt (b.set i x) k = byteAt b k := by
  simp [byteAt, List.getD_eq_getElem?_getD, List.getElem?_set_ne h.symm]

theorem byteAt_set_self {b : Bytes} {i : Nat} (h : i < b.length) (x : Byte) :
    byteAt (b.set i x) i = x := by
  simp [byteAt, h]

/-! The retry flag in the frame-control word. -/

/-- The retry flag is bit 11 of the word (R70). -/
theorem fcPackWord_and_retry {f : FcFlags} (h : f.retry = false) (ts : Byte) :
    fcPackWord ts f &&& 0x0800#16 = 0#16 := by
  have hbit : (fcPackWord ts f).getLsbD 11 = false :=
    (congrArg FcFlags.retry (fcFlags_fcPackWord ts f)).trans h
  calc fcPackWord ts f &&& 0x0800#16 = fcPackWord ts f &&& BitVec.twoPow 16 11 := rfl
    _ = 0#16 := by
      rw [BitVec.and_twoPow, hbit]
      rfl

/-- Setting the retry flag sets that bit and no other (R131, R147). -/
theorem fcPackWord_set_retry {f : FcFlags} (h : f.retry = false) (ts : Byte) :
    fcPackWord ts { f with retry := true } = fcPackWord ts f ||| 0x0800#16 := by
  rw [← BitVec.add_eq_or_of_and_eq_zero _ _ (fcPackWord_and_retry h ts)]
  apply BitVec.eq_of_toNat_eq
  have hlt := (fcPackWord ts { f with retry := true }).isLt
  rw [BitVec.toNat_add]
  simp only [fcPackWord_toNat, h, BitVec.toNat_ofNat, Bool.toNat_true, Bool.toNat_false] at hlt ⊢
  omega

/-! MPDU.RETRY. -/

/-- The object MPDU.RETRY makes (R147). -/
def retried (m : MpduRx) : MpduRx :=
  { m with
    cfg := { m.cfg with retry := true }
    fc := fcPackWord m.cfg.ts { m.cfg.flags with retry := true } }

theorem addRetry_ok {m : MpduRx} (h : m.cfg.retry = false) : addRetry m = .ok (retried m) := by
  rw [addRetry, h]
  rfl

theorem addRetry_error {m : MpduRx} (h : m.cfg.retry = true) :
    addRetry m = .error (excPlain .retryTwice) := by
  rw [addRetry, h]
  rfl

/-- A consistent MPDU's frame control is packed from its configuration (R28, R141). -/
theorem fc_of_wf {m : MpduRx} (h : m.wf = true) : m.fc = fcPackWord m.cfg.ts m.cfg.flags := by
  obtain ⟨-, rule, -, -, hm⟩ := build_eq_ok.1 (wf_iff.1 h)
  exact congrArg MpduRx.fc hm

/-- MPDU.RETRY sets bit 11 of a consistent MPDU's frame control, which was clear (R147). -/
theorem retried_fc {m : MpduRx} (hwf : m.wf = true) (h : m.cfg.retry = false) :
    (retried m).fc = m.fc ||| 0x0800#16 ∧ m.fc &&& 0x0800#16 = 0#16 := by
  rw [fc_of_wf hwf]
  exact ⟨fcPackWord_set_retry h _, fcPackWord_and_retry h _⟩

/-- The rebuilt record is the old one with the high byte of the frame control put in place (R147). -/
theorem ser_retried {m : MpduRx} (hwf : m.wf = true) (h : m.cfg.retry = false) :
    ser (retried m) = (ser m).set 9 (byteAt (ser m) 9 ||| 0x08#8) := by
  obtain ⟨hfc, -⟩ := retried_fc hwf h
  have hlow : (retried m).fc.extractLsb' 0 8 = m.fc.extractLsb' 0 8 := by
    rw [hfc, BitVec.extractLsb'_or]
    exact BitVec.or_zero
  have hhigh : (retried m).fc.extractLsb' 8 8 = m.fc.extractLsb' 8 8 ||| 0x08#8 := by
    rw [hfc, BitVec.extractLsb'_or]
    rfl
  calc ser (retried m)
      = ((ser m).set 8 ((retried m).fc.extractLsb' 0 8)).set 9 ((retried m).fc.extractLsb' 8 8) := rfl
    _ = ((ser m).set 8 (m.fc.extractLsb' 0 8)).set 9 (m.fc.extractLsb' 8 8 ||| 0x08#8) := by
      rw [hlow, hhigh]
    _ = (ser m).set 9 (byteAt (ser m) 9 ||| 0x08#8) := rfl

/-- The retry flag's bit of the record is clear where the frame control's is (R70, R76). -/
theorem byteAt_ser_and_retry {m : MpduRx} (h : m.fc &&& 0x0800#16 = 0#16) :
    byteAt (ser m) 9 &&& 0x08#8 = 0#8 :=
  calc byteAt (ser m) 9 &&& 0x08#8
      = m.fc.extractLsb' 8 8 &&& (0x0800#16).extractLsb' 8 8 := rfl
    _ = (m.fc &&& 0x0800#16).extractLsb' 8 8 := BitVec.extractLsb'_and.symm
    _ = 0#8 := by rw [h]; rfl

/-- Settles O38: the record is the old one but for the byte at offset 9, in which bit 3 is set; a retry
flag that is already set raises. -/
theorem mpduRetryResult : Obligations.MpduRetryResult := by
  refine fun m s hready => ⟨fun hwf hretry => ⟨retried m, ?_, rfl, rfl, rfl, rfl, ?_, ?_, ?_, ?_, ?_⟩,
    fun hretry => ?_⟩
  · calc exec (.mpduRetry m) s = s.issuePure ((addRetry m).map .mpdu) := rfl
      _ = .next (s.close (.completed (.mpdu (retried m)))) := by
        rw [addRetry_ok hretry]
        exact issuePure_ok s hready
  · exact addRetry_wf hwf (addRetry_ok hretry)
  · rw [ser_retried hwf hretry, List.length_set]
  · intro k hk
    rw [ser_retried hwf hretry, byteAt_set_ne _ hk]
  · rw [ser_retried hwf hretry, byteAt_set_self (by rw [ser_length]; omega)]
  · obtain ⟨-, hclear⟩ := retried_fc hwf hretry
    exact byteAt_ser_and_retry hclear
  · calc exec (.mpduRetry m) s = s.issuePure ((addRetry m).map .mpdu) := rfl
      _ = .next (s.raise (excPlain .retryTwice)) := by
        rw [addRetry_error hretry]
        exact issuePure_error s hready

end Sys2Proof.Proofs
end

section
/-!
PROOF. The counter commands SEQ.RESET, SEQ.MSDU and SEQ.FRAG: how each ends (R155 to R158) and what they
leave as it was (R24).
-/

namespace Sys2Proof.Proofs

open Sys2Proof.Machine Sys2Proof.Laws Sys2Proof.Safety

/-! How a command ends, by how its pseudocode does (R14). -/

theorem issue_of_ok {s t : State} {r : Result} {body : Except Exc (State × Result)} (hready : ready s)
    (h : body = .ok (t, r)) : s.issue body = .next (t.close (.completed r)) :=
  h ▸ issue_ok s hready

theorem issue_of_error {s : State} {x : Exc} {body : Except Exc (State × Result)} (hready : ready s)
    (h : body = .error x) : s.issue body = .next (s.raise x) :=
  h ▸ issue_error s hready

/-- `N_SRC` is 2 (R24). -/
theorem roleOf_of_two_le {r : Nat} (h : 2 ≤ r) : roleOf r = none := roleOf_eq_none.2 h

/-- Writing the value of a clean counter leaves it clean. -/
theorem setSc_of_clean {s : State} {role : Role} (h : s.dirty role = false) (v : U16) :
    s.setSc role v = s.setCounter role ⟨v, false⟩ := by
  rw [State.setSc, h]

/-! The counter's two steps (R155). -/

/-- The step for a new MSDU as a number: the sequence number goes up modulo 4096 (R157). -/
theorem scNextMsdu_eq (sc : U16) :
    scNextMsdu sc = BitVec.ofNat 16 ((sc.toNat / 16 + 1) % 4096 * 16) := by
  apply BitVec.eq_of_toNat_eq
  rw [scNextMsdu, scw_toNat, BitVec.toNat_add, scSeq_toNat]
  simp only [BitVec.toNat_ofNat]
  omega

/-- The step for a new fragment does not carry into the sequence number below fragment number 15
(R158). -/
theorem scNextFrag_eq {sc : U16} (h : sc.toNat % 16 < 15) :
    scNextFrag sc = scw (scSeq sc) (BitVec.ofNat 4 ((scFrag sc).toNat + 1)) := by
  rw [← scFrag_toNat] at h
  have hstep := scw_add (scSeq sc) (scFrag sc).toNat 1 (by omega)
  rwa [BitVec.ofNat_toNat, BitVec.setWidth_eq, scw_fields] at hstep

theorem scFrag_eq_last {sc : U16} : scFrag sc = 15#4 ↔ sc.toNat % 16 = 15 := by
  rw [← BitVec.toNat_inj, scFrag_toNat]
  rfl

/-! The pseudocodes, outcome by outcome. -/

section
variable {r : Nat} {role : Role} {s : State}

theorem seqReset_ok (hr : roleOf r = some role) :
    seqReset r s = .ok (s.setCounter role ⟨0x0000#16, false⟩, .unit) := withRole_some hr _

theorem seqMsdu_of_clean (hr : roleOf r = some role) (hd : s.dirty role = false) :
    seqMsdu r s =
      .ok (s.setCounter role ⟨scNextMsdu (s.sc role), false⟩, .word (scNextMsdu (s.sc role))) := by
  rw [seqMsdu, withRole_some hr, hd, raiseIf_false, setSc_of_clean hd]

theorem seqMsdu_of_dirty (hr : roleOf r = some role) (hd : s.dirty role = true) :
    seqMsdu r s = .error (excActual .scDirty r) := by
  rw [seqMsdu, withRole_some hr, hd, raiseIf_true]

theorem seqFrag_of_clean (hr : roleOf r = some role) (hd : s.dirty role = false)
    (hlt : (s.sc role).toNat % 16 < 15) :
    seqFrag r s =
      .ok (s.setCounter role ⟨scNextFrag (s.sc role), false⟩, .word (scNextFrag (s.sc role))) := by
  have hlast : (scFrag (s.sc role) == 15#4) = false := by
    rw [beq_eq_false_iff_ne, Ne, scFrag_eq_last]
    omega
  rw [seqFrag, withRole_some hr, hd, raiseIf_false, hlast, raiseIf_false, setSc_of_clean hd]

theorem seqFrag_of_dirty (hr : roleOf r = some role) (hd : s.dirty role = true) :
    seqFrag r s = .error (excActual .scDirty r) := by
  rw [seqFrag, withRole_some hr, hd, raiseIf_true]

theorem seqFrag_of_last (hr : roleOf r = some role) (hd : s.dirty role = false)
    (hlast : (s.sc role).toNat % 16 = 15) : seqFrag r s = .error (excActual .fragCount 17) := by
  rw [seqFrag, withRole_some hr, hd, raiseIf_false, scFrag_eq_last.2 hlast]
  rfl

end

/-- Settles O40: for a source the pseudocode only writes the reset counter, and otherwise it raises. -/
theorem seqResetResult : Obligations.SeqResetResult := fun _ _ hready =>
  ⟨fun _ hr => issue_of_ok hready (seqReset_ok hr),
    fun hr => issue_of_error hready (withRole_none (roleOf_of_two_le hr) _)⟩

/-- Settles O41: on a clean counter the step for a new MSDU is the number stated; the checks before it
raise. -/
theorem seqMsduResult : Obligations.SeqMsduResult := by
  refine fun r s hready => ⟨fun role hr hd => ?_,
    fun role hr hd => issue_of_error hready (seqMsdu_of_dirty hr hd),
    fun hr => issue_of_error hready (withRole_none (roleOf_of_two_le hr) _)⟩
  rw [← scNextMsdu_eq]
  exact issue_of_ok hready (seqMsdu_of_clean hr hd)

/-- Settles O42: below fragment number 15 the step for a new fragment counts up within the fragment
number; the checks before it raise. -/
theorem seqFragResult : Obligations.SeqFragResult := by
  refine fun r s hready => ⟨fun role hr hd hlt => ⟨scNextFrag (s.sc role), ?_, ?_,
      issue_of_ok hready (seqFrag_of_clean hr hd hlt)⟩,
    fun role hr hd => issue_of_error hready (seqFrag_of_dirty hr hd),
    fun role hr hd hlast => issue_of_error hready (seqFrag_of_last hr hd hlast),
    fun hr => issue_of_error hready (withRole_none (roleOf_of_two_le hr) _)⟩
  · rw [scNextFrag_eq hlt, scSeq_scw]
  · rw [scNextFrag_eq hlt, scFrag_scw, BitVec.toNat_ofNat, scFrag_toNat]
    omega

/-! What they leave as it was. -/

/-- A counter command that completes has written the counter of the source it names, and where it returns
a word that is what it wrote, with the dirty bit kept. -/
theorem counterCommand_ok {i : Instr} {r : Nat} {s : State}
    (hi : i = .seqReset r ∨ i = .seqMsdu r ∨ i = .seqFrag r) :
    ∃ body, exec i s = s.issue body ∧ ∀ t res, body = .ok (t, res) →
      ∃ role c, roleOf r = some role ∧ t = s.setCounter role c ∧
        ∀ v, res = .word v → c = ⟨v, s.dirty role⟩ := by
  rcases hi with rfl | rfl | rfl
  · refine ⟨seqReset r s, rfl, fun t res hb => ?_⟩
    obtain ⟨role, hr, hk⟩ := withRole_eq_ok.1 hb
    cases hk
    exact ⟨role, Counter.clear, hr, rfl, nofun⟩
  · refine ⟨seqMsdu r s, rfl, fun t res hb => ?_⟩
    obtain ⟨role, hr, hk⟩ := withRole_eq_ok.1 hb
    obtain ⟨-, hk⟩ := raiseIf_eq_ok.1 hk
    cases hk
    exact ⟨role, _, hr, rfl, fun v hv => by cases hv; rfl⟩
  · refine ⟨seqFrag r s, rfl, fun t res hb => ?_⟩
    obtain ⟨role, hr, hk⟩ := withRole_eq_ok.1 hb
    obtain ⟨-, hk⟩ := raiseIf_eq_ok.1 hk
    obtain ⟨-, hk⟩ := raiseIf_eq_ok.1 hk
    cases hk
    exact ⟨role, _, hr, rfl, fun v hv => by cases hv; rfl⟩

/-- Settles O15: a refusal and a fault write no counter, and a completion writes the named source's and
nothing else. -/
theorem counterCommandsFrame : Obligations.CounterCommandsFrame := by
  intro i r s t hi he
  obtain ⟨body, hexec, hok⟩ := counterCommand_ok (s := s) hi
  rw [hexec] at he
  rcases issue_cases s body with ⟨-, hr⟩ | ⟨-, t', res, hb, hr⟩ | ⟨-, x, -, hr⟩ <;>
    rw [hr] at he <;> cases he
  · exact ⟨rfl, rfl, rfl, oneCompletion_refuse s _, fun _ _ => rfl, fun _ _ _ => .inl rfl⟩
  · obtain ⟨role, c, hrole, rfl, hword⟩ := hok t' res hb
    refine ⟨rfl, rfl, rfl, oneCompletion_close rfl rfl _, fun role' hne => ?_, fun role' v hv => ?_⟩
    · exact get_set_other _ (fun h : role' = role => hne (h ▸ hrole)) c
    · by_cases h : role' = role
      · subst h
        have hres : res = .word v := by simpa using hv
        exact .inr ((get_set_same _ _ _).trans (hword v hres))
      · exact .inl (get_set_other _ h c)
  · exact ⟨rfl, rfl, rfl, oneCompletion_raise s x, fun _ _ => rfl, fun _ _ _ => .inl rfl⟩

end Sys2Proof.Proofs
end

section
/-!
PROOF. FRAG.SEND and its spellings MPDU.SEND and FRAG.SENDSC: the checks in order (R160, R163, R207), the
chain a completed one makes (R162, R164, R166, R167), and what they leave as it was (R24).
-/

namespace Sys2Proof.Proofs

open Sys2Proof.Machine Sys2Proof.Laws Sys2Proof.Safety

/-- FRAG.SEND and its spellings run the pseudocode of the FRAG.SEND they spell (R63). -/
theorem exec_of_expand_fragSend {i : Instr} {r : Nat} {frame : EthFrame} {bssid : MacAddr} {size : Nat}
    {opt : FragOpt} {ov : Option U16} (h : i.expand = .fragSend r frame bssid size opt ov) (s : State) :
    exec i s = s.issue (fragSend r frame bssid size opt ov s) := by
  rw [← exec_expand, h]
  rfl

/-! The checks, in the order of R160. -/

section
variable {r : Nat} {role : Role} {frame : EthFrame} {bssid : MacAddr} {size : Nat} {opt : FragOpt}
  {ov : Option U16} {s : State}

theorem fragSend_of_size_zero (hr : roleOf r = some role) :
    fragSend r frame bssid 0 opt ov s = .error (excPlain .fragSize) := withRole_some hr _

theorem size_beq_zero (hs : 0 < size) : (size == 0) = false := beq_eq_false_iff_ne.2 hs.ne'

theorem fragSend_of_undefined (hr : roleOf r = some role) (hs : 0 < size)
    (hts : tsDefined opt.ts = false) :
    fragSend r frame bssid size opt ov s = .error (excActual .typeSubtype opt.ts.toNat) := by
  rw [fragSend, withRole_some hr, size_beq_zero hs, hts]
  rfl

theorem fragSend_of_not_data (hr : roleOf r = some role) (hs : 0 < size)
    (hts : tsDefined opt.ts = true) (hdata : isData opt.ts = false) :
    fragSend r frame bssid size opt ov s = .error (excActual .frameType opt.ts.toNat) := by
  rw [fragSend, withRole_some hr, size_beq_zero hs, hts, hdata]
  rfl

/-- E_RATA's condition holds where both DS flags are set and an address is absent (D13). -/
theorem rataMissing_of_absent (ht : opt.toDs = true) (hf : opt.fromDs = true)
    (habsent : opt.ra = none ∨ opt.ta = none) :
    rataMissing opt.toDs opt.fromDs opt.ra opt.ta = true := by
  rcases habsent with h | h <;> simp [rataMissing, ht, hf, h]

theorem fragSend_of_rata (hr : roleOf r = some role) (hs : 0 < size) (hts : tsDefined opt.ts = true)
    (hdata : isData opt.ts = true) (hrata : rataMissing opt.toDs opt.fromDs opt.ra opt.ta = true) :
    fragSend r frame bssid size opt ov s = .error (excPlain .rata) := by
  rw [fragSend, withRole_some hr, size_beq_zero hs, hts, hdata, hrata]
  rfl

/-- Past the checks of the operands, FRAG.SEND without an override uses the internal counter. -/
theorem fragSend_none_of_optOk (hr : roleOf r = some role) (hs : 0 < size) (ho : optOk opt) :
    fragSend r frame bssid size opt none s =
      fragCounted r role (jobOf frame bssid size opt (some role)) s := by
  obtain ⟨hts, hdata, hrata⟩ := ho
  rw [fragSend, withRole_some hr, size_beq_zero hs, hts, hdata, rataMissing_eq_false.2 hrata]
  rfl

/-- Past the checks of the operands, FRAG.SEND with an override uses that (R164). -/
theorem fragSend_some_of_optOk {w0 : U16} (hr : roleOf r = some role) (hs : 0 < size)
    (ho : optOk opt) :
    fragSend r frame bssid size opt (some w0) s =
      fragOverridden w0 (jobOf frame bssid size opt none) s := by
  obtain ⟨hts, hdata, hrata⟩ := ho
  rw [fragSend, withRole_some hr, size_beq_zero hs, hts, hdata, rataMissing_eq_false.2 hrata]
  rfl

theorem fragCounted_of_dirty {j : FragJob} (hd : s.dirty role = true) :
    fragCounted r role j s = .error (excActual .scDirty r) := by
  rw [fragCounted, hd, raiseIf_true]

/-- More than 16 fragments do not fit the fragment number (R163, D16). -/
theorem fragCounted_of_too_many {j : FragJob} (hd : s.dirty role = false)
    (hn : 16 < ceilDiv j.body.length j.size) :
    fragCounted r role j s = .error (excActual .fragCount (ceilDiv j.body.length j.size)) := by
  rw [fragCounted, hd, raiseIf_false, show decide (Config.fragMax < _) = true from decide_eq_true hn,
    raiseIf_true]

/-- Under an override the last fragment number would pass 15 (R164, D17). -/
theorem fragOverridden_of_too_many {j : FragJob} {w0 : U16}
    (hn : 16 < (scFrag w0).toNat + ceilDiv j.body.length j.size) :
    fragOverridden w0 j s =
      .error (excActual .fragCount ((scFrag w0).toNat + ceilDiv j.body.length j.size)) := by
  have hlast : Config.fragMax - 1 < (scFrag w0).toNat + ceilDiv j.body.length j.size - 1 := by
    rw [Config.fragMax]
    omega
  rw [fragOverridden, decide_eq_true hlast, raiseIf_true]

end

/-- Settles O43: each fault is the pseudocode's at the first check that fails. -/
theorem fragSendFaults : Obligations.FragSendFaults := by
  intro i r frame bssid size opt ov s hi hready run n
  have hraise {x : Exc} (h : fragSend r frame bssid size opt ov s = .error x) :
      run = .next (s.raise x) :=
    (exec_of_expand_fragSend hi s).trans (issue_of_error hready h)
  refine ⟨fun hr => hraise (withRole_none (roleOf_of_two_le hr) _), fun role hr =>
    ⟨fun hs => ?_, fun hs hts => ?_, fun hs hts hdata => ?_, fun hs hts hdata ht hf habsent => ?_,
      fun hs ho hov hd => ?_, fun hs ho hov hd hn => ?_, fun hs ho w0 hov hn => ?_⟩⟩ <;>
    apply hraise
  · subst hs
    exact fragSend_of_size_zero hr
  · exact fragSend_of_undefined hr hs hts
  · exact fragSend_of_not_data hr hs hts hdata
  · exact fragSend_of_rata hr hs hts hdata (rataMissing_of_absent ht hf habsent)
  · subst hov
    exact (fragSend_none_of_optOk hr hs ho).trans (fragCounted_of_dirty hd)
  · subst hov
    exact (fragSend_none_of_optOk hr hs ho).trans (fragCounted_of_too_many hd hn)
  · subst hov
    exact (fragSend_some_of_optOk hr hs ho).trans (fragOverridden_of_too_many hn)

/-! The completed command. -/

/-- Settles O44: the chain of `fragSend_counted_chain`, reported as the result. -/
theorem fragSendCompletes : Obligations.FragSendCompletes := by
  intro r role frame bssid size opt s hready hr hf hs ho hd hn
  obtain ⟨out, hsend, hchain⟩ := fragSend_counted_chain bssid hr hf hs ho hd hn
  exact ⟨out, issue_of_ok hready hsend, hchain⟩

/-- FRAG.SEND under an override completes with a chain that counts up from the override, emits its records
and changes nothing else (R164, R166). -/
theorem fragSend_overridden_chain {r : Nat} {role : Role} {frame : EthFrame} {size : Nat}
    {opt : FragOpt} {w0 : U16} (bssid : MacAddr) (s : State) (hr : roleOf r = some role)
    (hf : frame.wf = true) (hs : 0 < size) (ho : optOk opt)
    (hn : (scFrag w0).toNat + fragCount frame size ≤ 16) :
    ∃ out : List MpduRx,
      fragSend r frame bssid size opt (some w0) s =
        .ok ({ s with txq := s.txq ++ out.map ser }, .mpdus out) ∧
      isFragChain frame bssid size opt (scSeq w0) (scFrag w0).toNat out := by
  obtain ⟨rule, hrule, hsend⟩ := fragSend_overridden (bssid := bssid) (s := s) hr hf hs ho hn
  refine ⟨_, hsend, ?_⟩
  have hchain := fragMpdus_chain (bssid := bssid) (c := none) (q := scSeq w0) ho hrule hf hs hn
  rwa [scw_fields] at hchain

/-- Settles O45: both commands run the pseudocode of `fragSend_overridden_chain`. -/
theorem fragSendOverrideCompletes : Obligations.FragSendOverrideCompletes := by
  intro r role frame bssid size opt w0 i s hready hr hf hs ho hn hi
  obtain ⟨out, hsend, hchain⟩ := fragSend_overridden_chain bssid s hr hf hs ho hn
  have hexpand : i.expand = .fragSend r frame bssid size opt (some w0) := by
    rcases hi with rfl | rfl <;> rfl
  exact ⟨out, (exec_of_expand_fragSend hexpand s).trans (issue_of_ok hready hsend), hchain⟩

/-- Settles O16: a refusal and a fault emit and count nothing, and of a completion `fragSend_frame` says
what it emits and which counter it may write. -/
theorem fragmentCommandsFrame : Obligations.FragmentCommandsFrame := by
  intro i r frame bssid size opt ov s t hi he
  rw [exec_of_expand_fragSend hi] at he
  rcases issue_cases s (fragSend r frame bssid size opt ov s) with
    ⟨-, hr⟩ | ⟨-, t', res, hb, hr⟩ | ⟨-, x, -, hr⟩ <;> rw [hr] at he <;> cases he
  · exact ⟨rfl, rfl, oneCompletion_refuse s _, fun _ _ => rfl, fun _ => rfl, by simp, fun _ => rfl⟩
  · obtain ⟨hst, hdraws, hpending, hended, -, hother, hov, ms, rfl, htxq, -⟩ := fragSend_frame hb
    have hreport : (t'.close (.completed (.mpdus ms))).ended = s.ended ++ [.completed (.mpdus ms)] := by
      rw [close_ended, hended]
    refine ⟨hdraws, hpending, oneCompletion_close hst hended _, hother, hov, fun out hout => ?_,
      fun hnot => absurd ⟨ms, hreport⟩ hnot⟩
    have hms : ms = out := by simpa [hended] using hout
    exact hms ▸ htxq
  · exact ⟨rfl, rfl, oneCompletion_raise s x, fun _ _ => rfl, fun _ => rfl, by simp, fun _ => rfl⟩

/-! The chunks of the body (R162). -/

/-- Chunk i is `body[i*S : min((i+1)*S, L)]`. -/
theorem chunkOf_eq_take_min (body : Bytes) (size i : Nat) :
    chunkOf body size i =
      (body.drop (i * size)).take (min ((i + 1) * size) body.length - i * size) := by
  rw [chunkOf, slice, List.take_eq_take_iff, List.length_drop, Nat.succ_mul]
  omega

/-- Every chunk but the last is `size` bytes. -/
theorem chunkOf_length_of_not_last {body : Bytes} {size i : Nat} (hL : 0 < body.length)
    (hs : 0 < size) (hi : i + 1 < ceilDiv body.length size) :
    (chunkOf body size i).length = size := by
  obtain ⟨hlast, -, -⟩ := ceilDiv_bounds hL hs
  have hend : (i + 1) * size ≤ (ceilDiv body.length size - 1) * size :=
    Nat.mul_le_mul_right size (by omega)
  rw [Nat.succ_mul] at hend
  rw [chunkOf_length]
  omega

/-- The last chunk is what the others leave of the body, at least one byte and at most `size`. -/
theorem chunkOf_length_of_last {body : Bytes} {size i : Nat} (hL : 0 < body.length) (hs : 0 < size)
    (hi : i + 1 = ceilDiv body.length size) :
    (chunkOf body size i).length = body.length - i * size ∧ 1 ≤ (chunkOf body size i).length ∧
      (chunkOf body size i).length ≤ size := by
  obtain ⟨hlast, hend, -⟩ := ceilDiv_bounds hL hs
  rw [← hi, Nat.add_sub_cancel] at hlast
  rw [← hi, Nat.succ_mul] at hend
  rw [chunkOf_length]
  omega

/-- Settles O47: MPDU i of the chain carries chunk i of the body and its sequence control. -/
theorem fragmentLoopChunks : Obligations.FragmentLoopChunks := by
  intro r role frame bssid size opt ov s t out hf hr he hout L n w
  obtain ⟨hs, -, hfit, ⟨hlen, -, -, hat⟩, htxq, hcount⟩ := fragSend_done hf hr he hout
  have hL := llcBody_length_pos hf
  have hn : n = ceilDiv L size := hlen
  refine ⟨hn ▸ ceilDiv_pos hL hs, fun i m hm => ?_, htxq, fun hov => ?_⟩
  · obtain ⟨-, -, hbody, hcfg⟩ := hat i m hm
    have hi : i < n := (List.getElem?_eq_some_iff.1 hm).1
    refine ⟨?_, fun hlt => ?_, fun hlast => ?_, by rw [hcfg], ?_⟩
    · exact hbody.trans (chunkOf_eq_take_min _ _ _)
    · rw [hbody]
      exact chunkOf_length_of_not_last hL hs (hn ▸ hlt)
    · rw [hbody, ← hlast]
      exact chunkOf_length_of_last hL hs (hlast.trans hn)
    · change (scFrag w).toNat + ceilDiv L size ≤ 16 at hfit
      omega
  · exact (hcount hov).trans (by rw [hn]; rfl)

/-! Sequence numbers (R167). -/

/-- Every MPDU of a completed FRAG.SEND without override carries the counter's next sequence number, and
the counter is left with it. -/
theorem fragSend_done_seq {r : Nat} {role : Role} {frame : EthFrame} {bssid : MacAddr} {size : Nat}
    {opt : FragOpt} {s t : State} {out : List MpduRx} (hf : frame.wf = true)
    (hr : roleOf r = some role) (h : exec (.fragSend r frame bssid size opt none) s = .next t)
    (he : t.ended = s.ended ++ [.completed (.mpdus out)]) :
    (∀ m ∈ out, scSeq m.cfg.sc = scSeq (s.sc role) + 1#12) ∧
      scSeq (t.sc role) = scSeq (s.sc role) + 1#12 := by
  obtain ⟨-, -, -, ⟨-, -, -, hat⟩, -, hcount⟩ := fragSend_done hf hr h he
  refine ⟨fun m hm => ?_, ?_⟩
  · obtain ⟨i, hi⟩ := List.mem_iff_getElem?.1 hm
    obtain ⟨-, -, -, hcfg⟩ := hat i m hi
    simp [hcfg]
  · simp [hcount rfl]

/-- Settles O48: the first command leaves its sequence number in the counter, and the second takes the
next one from there. -/
theorem sequenceAdvancesOncePerMsdu : Obligations.SequenceAdvancesOncePerMsdu := by
  intro r role f1 f2 b1 b2 z1 z2 o1 o2 s t s' t' out1 out2 hf1 hf2 hr h1 he1 hsame h2 he2 m1 hm1 m2 hm2
  obtain ⟨hseq1, hleft⟩ := fragSend_done_seq hf1 hr h1 he1
  obtain ⟨hseq2, -⟩ := fragSend_done_seq hf2 hr h2 he2
  calc scSeq m2.cfg.sc = scSeq (s'.sc role) + 1#12 := hseq2 m2 hm2
    _ = scSeq (t.sc role) + 1#12 := by rw [hsame]
    _ = scSeq m1.cfg.sc + 1#12 := by rw [hleft, hseq1 m1 hm1]

end Sys2Proof.Proofs
end

section
/-!
PROOF. What MPDU.PARSE answers, and that a parsed record can be rebuilt and has the length its header
rules give (R176 to R180).
-/

namespace Sys2Proof.Proofs

open Sys2Proof.Machine Sys2Proof.Laws Sys2Proof.Safety

/-! How the command ends. -/

/-- A command that writes no state and reported a result has it from its pseudocode (R14). -/
theorem pure_ok_of_completed {res : Except Exc Result} {s t : State} {r : Result}
    (h : s.issuePure res = .next t) (hended : t.ended = s.ended ++ [.completed r]) : res = .ok r := by
  rcases issuePure_cases s res with ⟨-, hr⟩ | ⟨-, r', hok, hr⟩ | ⟨-, x, -, hr⟩ <;>
    rw [hr] at h <;> cases h
  · simp at hended
  · obtain rfl : r' = r := by simpa using hended
    exact hok
  · simp at hended

/-- An MPDU.PARSE whose pseudocode returns completes with what it returns (R176). -/
theorem exec_mpduParse_ok {rec : Bytes} {d : Decoded MpduTx} {s : State} (hready : ready s)
    (h : parseRec Config.ivExtBit rec = .ok d) :
    exec (.mpduParse rec) s = .next (s.close (.completed (.parsed d))) :=
  calc exec (.mpduParse rec) s = s.issuePure ((parseRec Config.ivExtBit rec).map .parsed) := rfl
    _ = _ := by
      rw [h]
      exact issuePure_ok s hready

/-- An MPDU.PARSE whose pseudocode raises faults with what it raises (R208). -/
theorem exec_mpduParse_error {rec : Bytes} {x : Exc} {s : State} (hready : ready s)
    (h : parseRec Config.ivExtBit rec = .error x) :
    exec (.mpduParse rec) s = .next (s.raise x) :=
  calc exec (.mpduParse rec) s = s.issuePure ((parseRec Config.ivExtBit rec).map .parsed) := rfl
    _ = _ := by
      rw [h]
      exact issuePure_error s hready

/-- The object an MPDU.PARSE reported is that of its record: the fixed fields, a header parsed from the
bytes after them, and the body that header leaves (R176). -/
theorem parsed_of_exec {rec : Bytes} {s s' : State} {t : MpduTx}
    (he : exec (.mpduParse rec) s = .next s')
    (hended : s'.ended = s.ended ++ [.completed (.parsed (.ok t))]) :
    42 ≤ rec.length ∧ ∃ h body,
      parseHeader Config.ivExtBit (rdLE16 rec 32) (rec.drop 42) = some (h, body) ∧
        t = mpduTxOf rec h body := by
  obtain ⟨d, hparse, hd⟩ := map_ok (pure_ok_of_completed he hended)
  cases hd
  obtain ⟨hlen, -, hheader⟩ := parseRec_eq_ok.1 hparse
  exact ⟨hlen, hheader⟩

/-! The record rebuilt. -/

/-- The conditional header fields written out, in the order of R82. -/
def headerBytes (h : TxHeader) : Bytes :=
  optBytes addrBytes h.addr2 ++ optBytes addrBytes h.addr3 ++ optBytes le16 h.sc ++
    optBytes addrBytes h.addr4 ++ optBytes le16 h.qos ++ optBytes le16 h.cfc ++
    optBytes le32 h.htc ++ optBytes le32 h.iv ++ optBytes le32 h.eiv

/-- The first 32 bytes and the fixed header fields read from a record, written out in the order of R80. -/
def fixedBytes (rec : Bytes) : Bytes :=
  [byteAt rec 0, byteAt rec 1] ++ le16 (rdLE16 rec 2) ++
    (le32 (rdLE32 rec 4) ++ le32 (rdLE32 rec 8) ++ le32 (rdLE32 rec 12) ++ le32 (rdLE32 rec 16) ++
      le32 (rdLE32 rec 20) ++ le32 (rdLE32 rec 24) ++ le32 (rdLE32 rec 28)) ++
    (le16 (rdLE16 rec 32) ++ le16 (rdLE16 rec 34) ++ addrBytes (addrAt rec 36))

theorem txBytes_mpduTxOf (rec : Bytes) (h : TxHeader) (body : Bytes) :
    txBytes (mpduTxOf rec h body) = fixedBytes rec ++ headerBytes h ++ body := rfl

/-- The fixed fields cover the first 42 bytes without a gap (R80). -/
theorem fixedBytes_eq_take {rec : Bytes} (hlen : 42 ≤ rec.length) : fixedBytes rec = rec.take 42 := by
  rw [take_eq_bytes rec 42 hlen]
  simp only [fixedBytes, le16_rdLE16, le32_rdLE32]
  rfl

/-- Each field of a parsed header is written as the bytes it was read from, and the body is what they
leave (R179). -/
theorem parseHeader_bytes {ivBit : Nat} {fcw : U16} {b body : Bytes} {h : TxHeader}
    (hp : parseHeader ivBit fcw b = some (h, body)) : headerBytes h ++ body = b := by
  simp only [parseHeader, Option.bind_eq_some_iff, Prod.exists] at hp
  obtain ⟨addr2, b1, haddr2, addr3, b2, haddr3, sc, b3, hsc, addr4, b4, haddr4, qos, b5, hqos, cfc, b6,
    hcfc, htc, b7, hhtc, iv, b8, hiv, eiv, b9, heiv, hheader⟩ := hp
  cases hheader
  rw [takeField_bytes addrBytes haddr2 (addrBytes_addrAt_zero _),
    takeField_bytes addrBytes haddr3 (addrBytes_addrAt_zero _),
    takeField_bytes le16 hsc (le16_rdLE16_zero _),
    takeField_bytes addrBytes haddr4 (addrBytes_addrAt_zero _),
    takeField_bytes le16 hqos (le16_rdLE16_zero _), takeField_bytes le16 hcfc (le16_rdLE16_zero _),
    takeField_bytes le32 hhtc (le32_rdLE32_zero _), takeField_bytes le32 hiv (le32_rdLE32_zero _),
    takeField_bytes le32 heiv (le32_rdLE32_zero _)]
  simp only [headerBytes, List.append_assoc]

/-- Settles O53: the fixed fields are the record's first 42 bytes, and the header with its body the rest. -/
theorem parseLosesNothing : Obligations.ParseLosesNothing := by
  intro rec s s' t he hended
  obtain ⟨hlen, h, body, hp, rfl⟩ := parsed_of_exec he hended
  refine ⟨?_, rfl, rfl⟩
  calc txBytes (mpduTxOf rec h body)
      = fixedBytes rec ++ (headerBytes h ++ body) := by rw [txBytes_mpduTxOf, List.append_assoc]
    _ = rec.take 42 ++ rec.drop 42 := by rw [fixedBytes_eq_take hlen, parseHeader_bytes hp]
    _ = rec := List.take_append_drop 42 rec

/-- The theoretical length of a parsed header with its body is the record's after its first 32 bytes (R177). -/
theorem thlen_of_parseHeader {ivBit : Nat} {rec body : Bytes} {h : TxHeader} (hlen : 42 ≤ rec.length)
    (hp : parseHeader ivBit (rdLE16 rec 32) (rec.drop 42) = some (h, body)) :
    thlen (rdLE16 rec 32) h.extIv body.length = rec.length - 32 := by
  have hrest := parseHeader_length hp
  rw [List.length_drop] at hrest
  rw [thlen_eq]
  omega

/-- The self-check compares the theoretical length with the reported one (R180). -/
theorem mpduTxOf_lenOk (rec : Bytes) (h : TxHeader) (body : Bytes) :
    (mpduTxOf rec h body).lenOk = true ↔
      thlen (rdLE16 rec 32) h.extIv body.length = (rdLE16 rec 2).toNat := beq_iff_eq

/-- Settles O54: the header and the body are together what follows the first 32 bytes. -/
theorem parseLengthSelfCheck : Obligations.ParseLengthSelfCheck := by
  intro rec s s' t he hended
  obtain ⟨hlen, h, body, hp, rfl⟩ := parsed_of_exec he hended
  have hth := thlen_of_parseHeader hlen hp
  refine ⟨hth, ?_⟩
  rw [mpduTxOf_lenOk, hth, eq_comm]
  rfl

/-! The records that do not parse. -/

/-- The length test comes first (R176, D32). -/
theorem parseRec_of_short {rec : Bytes} (h : rec.length < 42) (ivBit : Nat) :
    parseRec ivBit rec = .ok .notOk := if_pos h

/-- The type+subtype byte is tested next (R176, D23). -/
theorem parseRec_of_undefined {rec : Bytes} (hlen : 42 ≤ rec.length)
    (hts : tsDefined (byteAt rec 32) = false) (ivBit : Nat) :
    parseRec ivBit rec = .error (excActual .typeSubtype (byteAt rec 32).toNat) := by
  rw [parseRec, if_neg hlen.not_gt, fcTs_rdLE16, hts]
  rfl

/-- A record that ends inside its header is not ok (R176, D23). -/
theorem parseRec_of_header_none {rec : Bytes} {ivBit : Nat} (hlen : 42 ≤ rec.length)
    (hts : tsDefined (byteAt rec 32) = true)
    (hp : parseHeader ivBit (rdLE16 rec 32) (rec.drop 42) = none) :
    parseRec ivBit rec = .ok .notOk := by
  rw [parseRec, if_neg hlen.not_gt, fcTs_rdLE16, hts, hp]
  rfl

/-- Settles O50: the two early exits of `parseRec`. -/
theorem parseShortOrUndefined : Obligations.ParseShortOrUndefined := fun _ _ hready =>
  ⟨fun hshort => exec_mpduParse_ok hready (parseRec_of_short hshort _),
    fun hlen hts => exec_mpduParse_error hready (parseRec_of_undefined hlen hts _)⟩

/-! Where the header fits. -/

/-- The extended-IV flag of a record, from the word that ends its header without extended IV, which is
the IV word of a protected frame (R83). -/
def recExtIv (rec : Bytes) : Bool :=
  (fcFlags (rdLE16 rec 32)).prot &&
    (rdLE32 rec (32 + thlen (rdLE16 rec 32) false 0 - 4)).getLsbD Config.ivExtBit

/-- A protected frame's IV word in the bytes after the fixed header is the record's (R83). -/
theorem extIv_drop_eq (rec : Bytes) :
    ((fcFlags (rdLE16 rec 32)).prot &&
      (rdLE32 (rec.drop 42) (headerLen (rdLE16 rec 32) - 4)).getLsbD Config.ivExtBit) =
        recExtIv rec := by
  unfold recExtIv
  cases hprot : (fcFlags (rdLE16 rec 32)).prot with
  | false => rw [Bool.false_and, Bool.false_and]
  | true =>
    have hiv : 4 ≤ headerLen (rdLE16 rec 32) := by
      simp only [headerLen, hprot, Bool.toNat_true]
      omega
    have hoff : 42 + (headerLen (rdLE16 rec 32) - 4) = 32 + thlen (rdLE16 rec 32) false 0 - 4 := by
      rw [thlen_eq, Bool.and_false, Bool.toNat_false]
      omega
    rw [rdLE32_drop, hoff]

/-- The header of a record is its fixed ten bytes, the fields `headerLen` counts, and the extended IV
where there is one (R178). -/
theorem thlen_recExtIv (rec : Bytes) :
    thlen (rdLE16 rec 32) (recExtIv rec) 0 =
      10 + headerLen (rdLE16 rec 32) + 4 * (recExtIv rec).toNat := by
  have hprot : ((fcFlags (rdLE16 rec 32)).prot && recExtIv rec) = recExtIv rec := by simp [recExtIv]
  rw [thlen_eq, hprot, Nat.add_zero]

/-- The header without extended IV is no longer than the header (R178). -/
theorem thlen_false_le (fcw : U16) (e : Bool) : thlen fcw false 0 ≤ thlen fcw e 0 := by
  rw [thlen_eq, thlen_eq, Bool.and_false, Bool.toNat_false]
  omega

/-- A record that holds its header parses, and the body is every byte after it (R176). -/
theorem parseHeader_of_fits {rec : Bytes}
    (hfit : 32 + thlen (rdLE16 rec 32) (recExtIv rec) 0 ≤ rec.length) :
    ∃ h, parseHeader Config.ivExtBit (rdLE16 rec 32) (rec.drop 42) =
        some (h, rec.drop (32 + thlen (rdLE16 rec 32) (recExtIv rec) 0)) ∧
      h.extIv = recExtIv rec := by
  rw [thlen_recExtIv] at hfit ⊢
  have hfields : headerLen (rdLE16 rec 32) ≤ (rec.drop 42).length := by
    rw [List.length_drop]
    omega
  obtain ⟨hok, -⟩ := parseHeader_of_le (ivBit := Config.ivExtBit) hfields
  rw [extIv_drop_eq, List.drop_drop] at hok
  have hend : 42 + (headerLen (rdLE16 rec 32) + 4 * (recExtIv rec).toNat) =
      32 + (10 + headerLen (rdLE16 rec 32) + 4 * (recExtIv rec).toNat) := by omega
  rw [← hend]
  exact hok (by rw [List.length_drop]; omega)

/-- A record that ends before its header does has no header: the bytes run out before the extended IV,
or in it (R176). -/
theorem parseHeader_of_not_fits {rec : Bytes} (hlen : 42 ≤ rec.length)
    (hshort : rec.length < 32 + thlen (rdLE16 rec 32) (recExtIv rec) 0) :
    parseHeader Config.ivExtBit (rdLE16 rec 32) (rec.drop 42) = none := by
  rw [thlen_recExtIv] at hshort
  have hrest : (rec.drop 42).length = rec.length - 42 := List.length_drop
  rcases Nat.lt_or_ge (rec.drop 42).length (headerLen (rdLE16 rec 32)) with hlt | hle
  · refine Option.eq_none_iff_forall_ne_some.2 fun ⟨h, body⟩ hp => ?_
    have := parseHeader_length hp
    omega
  · obtain ⟨-, hnone⟩ := parseHeader_of_le (ivBit := Config.ivExtBit) hle
    rw [extIv_drop_eq] at hnone
    exact hnone (by omega)

/-- Settles O51: the record holds its header or not, and the header without extended IV ends no later. -/
theorem parseCompletes : Obligations.ParseCompletes := by
  intro rec s hready hlen hts fcw h0 ext h
  have hle : h0 ≤ h := thlen_false_le fcw ext
  rcases Nat.lt_or_ge rec.length (32 + h) with hshort | hfit
  · have hp := parseHeader_of_not_fits hlen hshort
    exact ⟨.notOk, exec_mpduParse_ok hready (parseRec_of_header_none hlen hts hp), fun _ => rfl,
      fun _ => rfl, fun hfit => absurd hfit hshort.not_ge⟩
  · obtain ⟨hd, hp, hext⟩ := parseHeader_of_fits hfit
    have hparse := parseRec_eq_ok.2 ⟨hlen, (fcTs_rdLE16 rec).symm ▸ hts, hd, _, hp, rfl⟩
    exact ⟨_, exec_mpduParse_ok hready hparse, fun hlt => by omega, fun hlt => by omega,
      fun _ => ⟨_, rfl, rfl, rfl, rfl, rfl, rfl, rfl, rfl, rfl, hext, rfl⟩⟩

end Sys2Proof.Proofs
end

section
/-!
PROOF. MPDU.THLEN: how it ends, the sum it answers and its bounds (R178).
-/

namespace Sys2Proof.Proofs

open Sys2Proof.Machine Sys2Proof.Laws Sys2Proof.Safety

/-- MPDU.THLEN of a word whose low byte is defined completes with the theoretical length (R178). -/
theorem exec_mpduThlen_ok {v : U16} {s : State} (hready : ready s) (hts : tsDefined (fcTs v) = true)
    (extIv : Bool) (n : Nat) :
    exec (.mpduThlen v extIv n) s = .next (s.close (.completed (.nat (thlen v extIv n)))) :=
  calc exec (.mpduThlen v extIv n) s = s.issuePure ((mpduThlen v extIv n).map .nat) := rfl
    _ = _ := by
      rw [mpduThlen, hts]
      exact issuePure_ok s hready

/-- MPDU.THLEN of any other word faults with its low byte (R178). -/
theorem exec_mpduThlen_error {v : U16} {s : State} (hready : ready s)
    (hts : tsDefined (fcTs v) = false) (extIv : Bool) (n : Nat) :
    exec (.mpduThlen v extIv n) s = .next (s.raise (excActual .typeSubtype (fcTs v).toNat)) :=
  calc exec (.mpduThlen v extIv n) s = s.issuePure ((mpduThlen v extIv n).map .nat) := rfl
    _ = _ := by
      rw [mpduThlen, hts]
      exact issuePure_error s hready

/-- The extended-IV operand counts on a protected frame only (R178). -/
theorem thlen_of_unprotected {v : U16} (h : v.getLsbD 14 = false) (e : Bool) (n : Nat) :
    thlen v e n = 10 + headerLen v + n := by
  have hprot : (fcFlags v).prot = false := h
  rw [thlen_eq, hprot]
  rfl

/-- The terms that the type+subtype byte alone decides, with HT control, come to at most 20: a control
wrapper has no address but the first and no QoS control (R82, R178). -/
theorem typeTerms_le (ts : Byte) (f : FcFlags) :
    6 * (hasA2 ts).toNat + 6 * (hasA3 ts).toNat + 2 * (hasSc ts).toNat + 2 * (isQosData ts).toNat +
      2 * (isCtrlWrapper ts).toNat + 4 * (hasHtc ts f).toNat ≤ 20 := by
  have hhtc := (hasHtc ts f).toNat_le
  cases hcw : isCtrlWrapper ts with
  | true =>
    obtain rfl : ts = 0x74#8 := eq_of_beq hcw
    have hterms : 6 * (hasA2 0x74#8).toNat + 6 * (hasA3 0x74#8).toNat + 2 * (hasSc 0x74#8).toNat +
      2 * (isQosData 0x74#8).toNat = 0 := by decide
    rw [hterms, Bool.toNat_true]
    omega
  | false =>
    have ha2 := (hasA2 ts).toNat_le
    have ha3 := (hasA3 ts).toNat_le
    have hsc := (hasSc ts).toNat_le
    have hqos := (isQosData ts).toNat_le
    rw [Bool.toNat_false]
    omega

/-- The longest header has 44 bytes (R178). -/
theorem thlen_zero_le (v : U16) (e : Bool) : thlen v e 0 ≤ 44 := by
  have htype := typeTerms_le (fcTs v) (fcFlags v)
  have ha4 := (hasA4 (fcFlags v)).toNat_le
  have hiv := (fcFlags v).prot.toNat_le
  have heiv := ((fcFlags v).prot && e).toNat_le
  simp only [thlen]
  omega

/-- The shortest header is the ten fixed bytes (R178). -/
theorem le_thlen (v : U16) (e : Bool) (n : Nat) : 10 ≤ thlen v e n := by
  rw [thlen_eq]
  omega

/-- Settles O49: the two ways MPDU.THLEN ends, with each term of `thlen` a 0 or 1 by its condition, and
the bounds, which the rule's words reach. -/
theorem theoreticalLength : Obligations.TheoreticalLength := by
  refine ⟨fun v extIv n s hready => ⟨fun hts => ?_, fun hts => exec_mpduThlen_error hready hts _ _⟩,
    fun _ _ _ => rfl, fun v n hprot => ?_, fun v extIv _ => ⟨le_thlen v extIv 0, thlen_zero_le v extIv⟩,
    by decide, by decide, by decide, by decide⟩
  · rw [exec_mpduThlen_ok hready hts]
    simp only [thlen, Bool.toNat, Bool.cond_eq_ite]
    rfl
  · rw [thlen_of_unprotected hprot, thlen_of_unprotected hprot]

end Sys2Proof.Proofs
end

section
/-!
PROOF. Faults and reset: a FAULTED block refuses (R209), fault entry comes before every effect (R204) and
latches `ST` (R208), and FCB.RESET ends it (R231).
-/

namespace Sys2Proof.Proofs

open Sys2Proof.Machine Sys2Proof.Laws Sys2Proof.Safety

/-- A FAULTED block refuses whatever the command's pseudocode would do (R209). -/
theorem exec_of_faulted {i : Instr} {s : State} (hf : s.st.faulted = true) (hi : i ≠ .fcbReset) :
    exec i s = .next (s.refuse .faulted) := by
  obtain ⟨body, he, -⟩ := exec_issue i hi s
  rw [he, issue_of_faulted s body hf]

/-- Settles O6: what the refusal changes is the report. -/
theorem faultedRefusesAllButReset : Obligations.FaultedRefusesAllButReset :=
  fun _ _ hf hi => exec_of_faulted hf hi

/-- Settles O7: a command that reports a fault did nothing but enter it, and fault entry writes none of
these fields. -/
theorem faultsComeBeforeEffects : Obligations.FaultsComeBeforeEffects := by
  intro i s t x he hended
  obtain ⟨-, -, rfl⟩ := exec_faulted he hended
  exact ⟨raise_counters s x, raise_txq s x, raise_draws s x, raise_pending s x⟩

/-- Settles O8: a command that reports a fault did nothing but enter it; the codes are those of R203's
table. -/
theorem faultEntryLatchesStatus : Obligations.FaultEntryLatchesStatus :=
  ⟨fun _ _ _ _ he hended => exec_faulted he hended, by decide⟩

/-- Settles O9: FCB.RESET resets the block and reports its completion. -/
theorem fcbResetCompletes : Obligations.FcbResetCompletes := exec_fcbReset

end Sys2Proof.Proofs
end

section
/-!
PROOF. The comparator, CMP.DOWN and CMP.UP: their checks in order (R191, R194, R207), when they pass, and
that a failed one stops the block (R195).
-/

namespace Sys2Proof.Proofs

open Sys2Proof.Machine Sys2Proof.Laws Sys2Proof.Safety

/-! How a command that writes no state ends, by how its pseudocode does (R14). -/

theorem issuePure_of_ok {s : State} {r : Result} {res : Except Exc Result} (hready : ready s)
    (h : res = .ok r) : s.issuePure res = .next (s.close (.completed r)) :=
  h ▸ issuePure_ok s hready

theorem issuePure_of_error {s : State} {x : Exc} {res : Except Exc Result} (hready : ready s)
    (h : res = .error x) : s.issuePure res = .next (s.raise x) :=
  h ▸ issuePure_error s hready

/-- A comparison that finds one value twice is passed (R191, R194). -/
theorem raiseIf_bne_of_eq {α β : Type} [BEq β] [LawfulBEq β] {a b : β} (h : a = b) (x : Exc)
    (k : Except Exc α) : raiseIf (a != b) x k = k := by
  simp [h]

/-! The comparisons both checks end with. -/

section
variable {d : LlcDecoded} {exp : Expect}

theorem compareTail_of_etype_ne (h : d.etype ≠ exp.etype) :
    compareTail d exp =
      .error (excMismatch .ethertype (.num exp.etype.toNat) (.num d.etype.toNat)) :=
  raiseIf_bne h _ _

theorem compareTail_of_payload_ne (he : d.etype = exp.etype) (hp : d.payload ≠ exp.payload) :
    compareTail d exp = .error (excMismatch .payload (.bytes exp.payload) (.bytes d.payload)) := by
  rw [compareTail, raiseIf_bne_of_eq he, raiseIf_bne hp]

end

section
variable {p : Bytes} {e : U16} {exp : Expect}

/-- The fields read from an LLC/SNAP frame pass where its ethertype and payload are the expected ones. -/
theorem compareTail_llcFieldsOf (he : e = exp.etype) (hp : p = exp.payload)
    (q : Option (BitVec 3 × Tag)) : compareTail (llcFieldsOf p e q) exp = .ok .pass := by
  rw [compareTail, raiseIf_bne_of_eq ((llcFieldsOf_etype p e q).trans he),
    raiseIf_bne_of_eq ((llcFieldsOf_payload p e q).trans hp)]

/-- The fields read from an LLC/SNAP frame with another payload than expected raise both. -/
theorem compareTail_llcFieldsOf_payload_ne (he : e = exp.etype) (hp : p ≠ exp.payload)
    (q : Option (BitVec 3 × Tag)) :
    compareTail (llcFieldsOf p e q) exp =
      .error (excMismatch .payload (.bytes exp.payload) (.bytes p)) := by
  rw [← llcFieldsOf_payload p e q] at hp
  rw [compareTail_of_payload_ne ((llcFieldsOf_etype p e q).trans he) hp, llcFieldsOf_payload]

end

/-! CMP.DOWN. -/

section
variable {m0 : MpduRx} {rest : List MpduRx} {exp : Expect}

/-- The least place whose triple differs from the first MPDU's, counted with the first (R191). -/
theorem chainBreak_eq_some {i : Nat} {m : MpduRx} (hm : rest[i]? = some m)
    (hne : triple m ≠ triple m0)
    (hleast : ∀ k m', k < i → rest[k]? = some m' → triple m' = triple m0) :
    chainBreak m0 rest = some (i + 1) := by
  obtain ⟨hi, rfl⟩ := List.getElem?_eq_some_iff.1 hm
  have hfind : rest.findIdx? (fun m => triple m != triple m0) = some i := by
    refine List.findIdx?_eq_some_iff_getElem.2 ⟨hi, bne_iff_ne.2 hne, fun k hk => ?_⟩
    simpa using hleast k _ hk (List.getElem?_eq_getElem (hk.trans hi))
  rw [chainBreak, hfind]
  rfl

theorem cmpDown_of_chainBreak {i : Nat} (h : chainBreak m0 rest = some i) :
    cmpDown (m0 :: rest) exp = .error (excIndex .chainAddr i) := by
  simp only [cmpDown, h]

theorem cmpDown_of_notOk (h : ∀ m ∈ rest, triple m = triple m0)
    (hd : llcDec ((m0 :: rest).flatMap MpduRx.body) = .notOk) :
    cmpDown (m0 :: rest) exp = .error (excPlain .cmpDecode) := by
  simp only [cmpDown, chainBreak_eq_none.2 h, hd]

end

/-- Settles O56: each fault is the pseudocode's at the first check that fails. -/
theorem cmpDownFaults : Obligations.CmpDownFaults := by
  refine fun exp s hready => ⟨issuePure_of_error hready rfl, ?_⟩
  intro m0 rest run body
  have hraise {x : Exc} (h : cmpDown (m0 :: rest) exp = .error x) : run = .next (s.raise x) :=
    issuePure_of_error hready h
  refine ⟨fun i m hm hne hleast => ?_, fun hsame => ⟨fun hd => ?_, fun d hd =>
    ⟨fun hdst => ?_, fun hdst hsrc => ?_, fun hdst hsrc he => ?_, fun hdst hsrc he hp => ?_⟩⟩⟩ <;>
    apply hraise
  · exact cmpDown_of_chainBreak (chainBreak_eq_some hm hne hleast)
  · exact cmpDown_of_notOk hsame hd
  · rw [cmpDown_eq hsame hd, raiseIf_bne hdst]
  · rw [cmpDown_eq hsame hd, raiseIf_bne_of_eq hdst, raiseIf_bne hsrc]
  · rw [cmpDown_eq hsame hd, raiseIf_bne_of_eq hdst, raiseIf_bne_of_eq hsrc,
      compareTail_of_etype_ne he]
  · rw [cmpDown_eq hsame hd, raiseIf_bne_of_eq hdst, raiseIf_bne_of_eq hsrc,
      compareTail_of_payload_ne he hp]

/-- On a chain with the expected addresses that carries an LLC/SNAP frame, what CMP.DOWN still compares
are the ethertype and the payload of that frame (R191). -/
theorem cmpDown_of_llcFrame {ms : List MpduRx} {exp : Expect} {bssid : MacAddr} {p : Bytes} {e : U16}
    {q : Option (BitVec 3 × Tag)} (hne : ms ≠ [])
    (haddr : ∀ m ∈ ms, m.cfg.dst = exp.dst ∧ m.cfg.src = exp.src ∧ m.bssid = bssid)
    (hbody : ms.flatMap MpduRx.body = llcFrame p e q) (he : q = none → e ≠ 0x8100#16) :
    cmpDown ms exp = compareTail (llcFieldsOf p e q) exp := by
  obtain ⟨m0, rest, rfl⟩ := List.exists_cons_of_ne_nil hne
  have htriple : ∀ m ∈ m0 :: rest, triple m = (exp.dst, exp.src, bssid) := by
    intro m hm
    obtain ⟨hdst, hsrc, hbssid⟩ := haddr m hm
    rw [triple, hdst, hsrc, hbssid]
  have hsame : ∀ m ∈ rest, triple m = triple m0 := fun m hm =>
    (htriple m (List.mem_cons_of_mem m0 hm)).trans (htriple m0 List.mem_cons_self).symm
  obtain ⟨hdst, hsrc, -⟩ := haddr m0 List.mem_cons_self
  rw [cmpDown_eq hsame (hbody ▸ llcDec_llcFrame he), raiseIf_bne_of_eq hdst, raiseIf_bne_of_eq hsrc]

/-- Settles O55: the frame the chain carries has the expected ethertype and payload. -/
theorem cmpDownPasses : Obligations.CmpDownPasses := by
  intro ms exp q bssid s hready hne haddr hbody he
  exact issuePure_of_ok hready <|
    calc cmpDown ms exp = compareTail (llcFieldsOf exp.payload exp.etype q) exp :=
          cmpDown_of_llcFrame hne haddr hbody he
      _ = .ok .pass := compareTail_llcFieldsOf rfl rfl q

/-! CMP.UP. -/

/-- Past the checks of the header, CMP.UP works on the body (R194). -/
theorem cmpUp_eq_compareBody {tag : U32} {t : MpduTx} {exp : Expect} {ap : MacAddr}
    (hpattern : t.policy.w0 = tag) (hlen : t.lenOk = true) (h1 : t.addr1 = ap)
    (h2 : t.addr2 = some exp.src) (h3 : t.addr3 = some exp.dst) :
    cmpUp tag (.ok t) exp ap = compareBody t.body exp := by
  rw [cmpUp, raiseIf_bne_of_eq hpattern, hlen, Bool.not_true, raiseIf_false, raiseIf_bne_of_eq h1,
    raiseIf_bne_of_eq h2, raiseIf_bne_of_eq h3]

section
variable {body : Bytes} {exp : Expect}

theorem compareBody_of_short (h : body.length < 4) :
    compareBody body exp = .error (excPlain .cmpDecode) := by
  rw [compareBody, show decide (body.length < Config.fcsPlaceholderLen) = true from decide_eq_true h,
    raiseIf_true]

/-- A body that holds the placeholders is decoded without them (R194). -/
theorem compareBody_of_notOk (h : 4 ≤ body.length) (hd : llcDec (stripFcs body) = .notOk) :
    compareBody body exp = .error (excPlain .cmpDecode) := by
  have hfits : decide (body.length < Config.fcsPlaceholderLen) = false :=
    decide_eq_false (Nat.not_lt.2 h)
  simp only [compareBody, hfits, raiseIf_false, hd]

/-- A body that decodes without the placeholders leaves the comparisons (R194). -/
theorem compareBody_eq {d : LlcDecoded} (h : 4 ≤ body.length)
    (hd : llcDec (stripFcs body) = .ok d) :
    compareBody body exp =
      raiseIf (d.dot1q != exp.dot1q) (excMismatch .dot1q (.flag exp.dot1q) (.flag d.dot1q))
        (compareTail d exp) := by
  have hfits : decide (body.length < Config.fcsPlaceholderLen) = false :=
    decide_eq_false (Nat.not_lt.2 h)
  simp only [compareBody, hfits, raiseIf_false, hd]

end

/-- Settles O59: each fault is the pseudocode's at the first check that fails. -/
theorem cmpUpFaults : Obligations.CmpUpFaults := by
  refine fun exp ap s hready => ⟨issuePure_of_error hready rfl, ?_⟩
  intro t run
  have hraise {x : Exc} (h : cmpUp Config.patternTag (.ok t) exp ap = .error x) :
      run = .next (s.raise x) := issuePure_of_error hready h
  refine ⟨fun hpat => ?_, fun hpat => ⟨fun hlen => ?_, fun hlen => ⟨fun h1 => ?_, fun h1 =>
    ⟨fun h2 => ?_, fun h2 => ⟨fun h3 => ?_, fun h3 => ⟨fun hshort => ?_, fun hfits =>
      ⟨fun hd => ?_, fun d hd => ⟨fun hq => ?_, fun hq he => ?_, fun hq he hp => ?_⟩⟩⟩⟩⟩⟩⟩⟩ <;>
    apply hraise
  · rw [cmpUp, raiseIf_bne hpat]
  · rw [cmpUp, raiseIf_bne_of_eq hpat, hlen, Bool.not_false, raiseIf_true]
  · rw [cmpUp, raiseIf_bne_of_eq hpat, hlen, Bool.not_true, raiseIf_false, raiseIf_bne h1]
  · rw [cmpUp, raiseIf_bne_of_eq hpat, hlen, Bool.not_true, raiseIf_false, raiseIf_bne_of_eq h1,
      raiseIf_bne h2]
  · rw [cmpUp, raiseIf_bne_of_eq hpat, hlen, Bool.not_true, raiseIf_false, raiseIf_bne_of_eq h1,
      raiseIf_bne_of_eq h2, raiseIf_bne h3]
  all_goals rw [cmpUp_eq_compareBody hpat hlen h1 h2 h3]
  · exact compareBody_of_short hshort
  · exact compareBody_of_notOk hfits hd
  · rw [compareBody_eq hfits hd, raiseIf_bne hq]
  · rw [compareBody_eq hfits hd, raiseIf_bne_of_eq hq, compareTail_of_etype_ne he]
  · rw [compareBody_eq hfits hd, raiseIf_bne_of_eq hq, compareTail_of_payload_ne he hp]

/-- Stripping takes the four placeholder bytes off and nothing else (R194). -/
theorem stripFcs_append {body tail : Bytes} (h : tail.length = 4) : stripFcs (body ++ tail) = body := by
  rw [stripFcs, List.length_append, h]
  exact List.take_left' rfl

/-- Settles O58: the checks of the header pass, and the body without its last four bytes is an LLC/SNAP
frame, which LLC.DEC reads back. -/
theorem cmpUpPasses : Obligations.CmpUpPasses := by
  intro t exp ap q tail s hready hpat hlen h1 h2 h3 htail hbody hq he
  have hfits : 4 ≤ t.body.length := by
    rw [hbody, List.length_append]
    omega
  have hdec : llcDec (stripFcs t.body) = .ok (llcFieldsOf exp.payload exp.etype q) := by
    rw [hbody, stripFcs_append htail, llcDec_llcFrame he]
  exact issuePure_of_ok hready <|
    calc cmpUp Config.patternTag (.ok t) exp ap = compareBody t.body exp :=
          cmpUp_eq_compareBody hpat hlen h1 h2 h3
      _ = compareTail (llcFieldsOf exp.payload exp.etype q) exp := by
          rw [compareBody_eq hfits hdec, raiseIf_bne_of_eq ((llcFieldsOf_dot1q _ _ q).trans hq.symm)]
      _ = .ok .pass := compareTail_llcFieldsOf rfl rfl q

/-! A failed check stops the block (R195). -/

/-- The comparator writes no state, and its only result is the pass. -/
theorem comparator_issuePure {i : Instr}
    (hi : (∃ ms exp, i = .cmpDown ms exp) ∨ ∃ p exp ap, i = .cmpUp p exp ap) (s : State) :
    ∃ res, exec i s = s.issuePure res ∧ ∀ r, res = .ok r → r = .pass := by
  rcases hi with ⟨ms, exp, rfl⟩ | ⟨p, exp, ap, rfl⟩
  · exact ⟨cmpDown ms exp, rfl, fun _ => cmpDown_ok⟩
  · exact ⟨cmpUp Config.patternTag p exp ap, rfl, fun _ => cmpUp_ok⟩

/-- Settles O60: in a ready state the pseudocode passes or raises, fault entry makes the block FAULTED, and
a FAULTED block refuses until FCB.RESET clears `ST`. -/
theorem comparatorFailureLatches : Obligations.ComparatorFailureLatches := by
  intro i s hready hi
  obtain ⟨res, hexec, hpass⟩ := comparator_issuePure hi s
  cases res with
  | ok r =>
    obtain rfl := hpass r rfl
    exact .inl (hexec.trans (issuePure_ok s hready))
  | error x =>
    exact .inr ⟨x, s.raise x, hexec.trans (issuePure_error s hready), rfl, rfl,
      fun _ hi' => exec_of_faulted rfl hi', _, exec_fcbReset _, rfl⟩

end Sys2Proof.Proofs
end

section
/-!
PROOF. The downlink scenario (R193): the chain FRAG.SEND makes of an encoded frame, compared with that
frame.
-/

namespace Sys2Proof.Proofs

open Sys2Proof.Machine Sys2Proof.Laws Sys2Proof.Safety

/-- A FRAG.SEND that reported MPDUs named a source (R24, R160). -/
theorem roleOf_of_fragSend_completed {r : Nat} {frame : EthFrame} {bssid : MacAddr} {size : Nat}
    {opt : FragOpt} {ov : Option U16} {s t : State} {out : List MpduRx}
    (h : exec (.fragSend r frame bssid size opt ov) s = .next t)
    (hended : t.ended = s.ended ++ [.completed (.mpdus out)]) : ∃ role, roleOf r = some role := by
  rw [exec_of_expand_fragSend rfl] at h
  rcases issue_cases s (fragSend r frame bssid size opt ov s) with
    ⟨-, he⟩ | ⟨-, t', res, hok, he⟩ | ⟨-, x, -, he⟩ <;> rw [he] at h <;> cases h
  · simp at hended
  · obtain ⟨role, hr, -⟩ := fragSend_ok_checks hok
    exact ⟨role, hr⟩
  · simp at hended

/-- The chain of R166 has the frame's addresses and carries its LLC/SNAP body, so CMP.DOWN against the
frame's addresses is left with the frame's ethertype and payload to compare. -/
theorem cmpDown_of_isFragChain {f : EthFrame} {bssid : MacAddr} {size : Nat} {opt : FragOpt}
    {q : BitVec 12} {f0 : Nat} {out : List MpduRx} {exp : Expect} (hf : f.wf = true) (hs : 0 < size)
    (hchain : isFragChain f bssid size opt q f0 out) (hdst : exp.dst = f.dst)
    (hsrc : exp.src = f.src) :
    cmpDown out exp =
      compareTail (llcFieldsOf f.payload f.etype (f.tag.map fun t => (f.prio, t))) exp := by
  obtain ⟨hlen, hbody, -, hat⟩ := hchain
  have hpos : 0 < out.length := hlen ▸ ceilDiv_pos (llcBody_length_pos hf) hs
  refine cmpDown_of_llcFrame (bssid := bssid) (List.length_pos_iff.1 hpos) (fun m hm => ?_) hbody
    fun _ => etype_ne_of_wf hf
  obtain ⟨i, hi⟩ := List.mem_iff_getElem?.1 hm
  obtain ⟨-, hbssid, -, hcfg⟩ := hat i m hi
  exact ⟨by rw [hcfg, hdst], by rw [hcfg, hsrc], hbssid⟩

/-- Settles O57: the frame ETH.ENC returned is well formed, so the MPDUs are its chain, whose ethertype and
payload are the frame's. -/
theorem downlinkScenario : Obligations.DownlinkScenario := by
  intro dst src prio length etype tag f r bssid size opt ov out s0 t0 s1 t1 s henc hframe hsend hout
    hready
  have hf : f.wf = true := resultOk_of_exec henc hframe nofun rfl
  obtain ⟨role, hr⟩ := roleOf_of_fragSend_completed hsend hout
  obtain ⟨hs, -, -, hchain, -⟩ := fragSend_done hf hr hsend hout
  have hcmp {exp : Expect} (hdst : exp.dst = f.dst) (hsrc : exp.src = f.src) :=
    cmpDown_of_isFragChain hf hs hchain hdst hsrc
  refine ⟨issuePure_of_ok hready ?_, fun p hp => issuePure_of_error hready ?_⟩
  · exact (hcmp rfl rfl).trans (compareTail_llcFieldsOf (exp := expectOf f) rfl rfl _)
  · exact (hcmp rfl rfl).trans <|
      compareTail_llcFieldsOf_payload_ne (exp := { expectOf f with payload := p }) rfl hp.symm _

end Sys2Proof.Proofs
end
